-- ==== Sys2Proof/Word.lean ====
section
/-! DEFINITION. The word types of the block and its environment, and the closed sets of answers (rules R7, R8, R10). -/

namespace Sys2Proof

/-- A byte of the code buffer (R41). -/
abbrev Byte := BitVec 8

/-- A 16-bit compressed word, `IN_WIDTH` (R6). -/
abbrev Half := BitVec 16

/-- A 32-bit canonical instruction word, `OUT_WIDTH` (R6). -/
abbrev Word := BitVec 32

/-- A 64-bit address of the environment, `ADDR_BITS` (R6, R26). -/
abbrev Addr := BitVec 64

/-- A register identifier 0 to 31, `REG_BITS` (R22). -/
abbrev RegId := BitVec 5

/-- A compressed register field, `CREG_BITS` (R23). -/
abbrev CReg := BitVec 3

/-- The three decoding-error classes, mutually exclusive per encoding (R78, R230). -/
inductive DecodingError where
  /-- "the bit pattern can never be a valid instruction in this ISA" (R78) -/
  | illegal
  /-- "bit pattern reserved by the spec for future/other extensions" (R78) -/
  | reserved
  /-- "valid RISC-V instruction, decoder support pending" (R78) -/
  | unimplemented
deriving DecidableEq, Repr

/-- The closed set of statuses (R10). `notCompressed` comes from the top-level dispatcher only. -/
inductive Status where
  | ok
  | illegal
  | reserved
  | unimplemented
  | notCompressed
deriving DecidableEq, Repr

/-- The four quadrants, selected by `h[1:0]` (R62). -/
inductive Quadrant where
  | q0
  | q1
  | q2
  | q3
deriving DecidableEq, Repr

/-- The pair a quadrant decoder and the block answer with: `status_o` and `word_o` (R10, R21). -/
structure BlockResult where
  status : Status
  word   : Word
deriving DecidableEq, Repr

end Sys2Proof
end

