-- ==== Sys2Proof/Config.lean ====
section
/-! DEFINITION. What the hardware's build fixes: the parameters of rule R6, those it calls OPEN as a structure that the block takes as
an argument, and what the spec leaves to an external collaborator, the body of `decode` (R200), as constants with no body. -/

namespace Sys2Proof.Config

/-- `STATUS_ENC`, the code of each status (R6, R232). -/
structure StatusEnc where
  ok            : BitVec 3
  illegal       : BitVec 3
  reserved      : BitVec 3
  unimplemented : BitVec 3
  notCompressed : BitVec 3
deriving DecidableEq, Repr

/-- The parameters that the spec's decisions call OPEN, which a model takes as an argument (R6; D3 to D6, D12, D13). Every function
of the block that depends on one takes them; the length classifier (D17) is an argument of the fetch. -/
structure Params where
  /-- `STATUS_ENC` (D3). -/
  statusEnc : StatusEnc
  /-- `ERR_WORD`, what `word_o` carries when the status is not OK (D4, R182). -/
  errWord : Word
  /-- `RD0_CLASS`, the class of `C.LI` and `C.LWSP` with `rd == 0` (D5, R134, R164). -/
  rd0Class : DecodingError
  /-- `MISC_OTHER_CLASS`, the class of the five MISC-ALU combinations the source calls unreachable (D6, R140). -/
  miscOtherClass : DecodingError
  /-- `ZERO_REG` (D12, R24). -/
  zeroReg : RegId
  /-- `SP_REG` (D12, R24). -/
  spReg : RegId
  /-- `SUB_FUNCT7` (D13, R107). -/
  subFunct7 : BitVec 7
  /-- `SUB_FUNCT3` (D13, R107). -/
  subFunct3 : BitVec 3
  /-- `SUB_OPCODE` (D13, R107). -/
  subOpcode : BitVec 7
deriving DecidableEq, Repr

/-- The parameters at the values of R6: the build that `exec` and `step` are, and the default of every function that takes them
(log 13). UNVERIFIED: the spec states the register numbers and the `SUB` constants and marks them general knowledge (logs 11, 12). -/
def r6 : Params where
  statusEnc := ⟨0#3, 1#3, 2#3, 3#3, 4#3⟩
  errWord := 0x00000000#32
  rd0Class := .reserved
  miscOtherClass := .unimplemented
  zeroReg := 0#5
  spReg := 2#5
  subFunct7 := 0b0100000#7
  subFunct3 := 0b000#3
  subOpcode := 0b0110011#7

/-- `ADDI_FUNCT3` (R6, R109). -/
def addiFunct3 : BitVec 3 := 0b000#3

/-- `ADDI_OPCODE` (R6, R109). -/
def addiOpcode : BitVec 7 := 0b0010011#7

/-- `LW_FUNCT3` (R6, R110). -/
def lwFunct3 : BitVec 3 := 0b010#3

/-- `LW_OPCODE` (R6, R110). -/
def lwOpcode : BitVec 7 := 0b0000011#7

/-- `LWSP_PERM`, the one permutation list of the block, first-written entry first (R97). -/
def lwspPerm : List Nat := [5, 4, 3, 2, 7, 6]

/-- The error, if any, that the external `decode` gives on a full-width word the block did not build. A FREE VALUE: the
body of `decode` is not in the source (R200), only that it is a function of its argument and can fail. Log 7. -/
opaque externalDecodeError : Word → Option DecodingError

/-- What the external `decode` makes of a block result `NOT_COMPRESSED`: the error, if any, and else the word that names the
instruction. A FREE VALUE: the spec leaves it open (R185, N12) and `word_o` must not be used then (R263). Log 21. -/
opaque externalNotCompressed : Option DecodingError × Word

end Sys2Proof.Config
end

