-- ==== Sys2Proof/Machine/Operands.lean ====
section
/-! DEFINITION. Operand assembly: the Bit Permutation Utility (R90 to R97), the Immediate Extractor (R100 to R102), the
expansion of compressed register fields (R23) and the two ways a raw immediate becomes 12 bits (R69, R70). -/

namespace Sys2Proof.Machine

/-! ## Bit Permutation Utility -/

/-- The preconditions on an `W`-bit unit's list: at most `W` entries, every entry below `W`, entries pairwise
distinct (R91); the widths are 16 and 32 (R90). -/
abbrev validPerm (W : Nat) (L : List Nat) : Prop :=
  (W = 16 ∨ W = 32) ∧ L.length ≤ W ∧ (∀ e ∈ L, e < W) ∧ L.Nodup

/-- The scatter loop from dense bit `k` on; `es` is what is left of the list read from its end, `e_k` first (R92). -/
def scatterFrom {W : Nat} (x : BitVec W) : Nat → List Nat → BitVec W
  | _, [] => 0#W
  | k, e :: es => (if x.getLsbD k then BitVec.twoPow W e else 0#W) ||| scatterFrom x (k + 1) es

/-- `scatter_W(x, L)`: dense bit `k` of `x` goes to position `L[n-1-k]` (R92). -/
def scatter {W : Nat} (x : BitVec W) (L : List Nat) : BitVec W := scatterFrom x 0 L.reverse

/-- The gather loop from dense bit `k` on (R93). -/
def gatherFrom {W : Nat} (x : BitVec W) : Nat → List Nat → BitVec W
  | _, [] => 0#W
  | k, e :: es => (if x.getLsbD e then BitVec.twoPow W k else 0#W) ||| gatherFrom x (k + 1) es

/-- `gather_W(x, L)`: position `L[n-1-k]` of `x` is read into dense bit `k` (R93). -/
def gather {W : Nat} (x : BitVec W) (L : List Nat) : BitVec W := gatherFrom x 0 L.reverse

/-- `mask(L)`: the positions a list names (R95). -/
def permMask (W : Nat) : List Nat → BitVec W
  | [] => 0#W
  | e :: es => BitVec.twoPow W e ||| permMask W es

/-- The source's `inv_permute` is the scatter (R94). -/
def invPermute {W : Nat} (x : BitVec W) (L : List Nat) : BitVec W := scatter x L

/-- The source's `permute` is the gather (R94). -/
def permute {W : Nat} (x : BitVec W) (L : List Nat) : BitVec W := gather x L

/-- Building a scatter unit: a list that breaks the preconditions is refused at build time (R91). -/
def scatterUnit (W : Nat) (L : List Nat) : Option (BitVec W → BitVec W) :=
  if validPerm W L then some (fun x => scatter x L) else none

/-- Building a gather unit: a list that breaks the preconditions is refused at build time (R91). -/
def gatherUnit (W : Nat) (L : List Nat) : Option (BitVec W → BitVec W) :=
  if validPerm W L then some (fun x => gather x L) else none

/-! ## Fields of the compressed word -/

/-- `ci_raw(h) = {h[12], h[6:2]}`, the Immediate Extractor for its one format, CI (R100, R101). -/
def ciRaw (h : Half) : BitVec 6 := h.extractLsb' 12 1 ++ h.extractLsb' 2 5

/-- `h[11:7]`, the 5-bit `rd` field of the CI format (R63, R71). -/
def rdField (h : Half) : RegId := h.extractLsb' 7 5

/-- `h[9:7]`, the 3-bit `rd' = rs1'` field of the MISC-ALU format (R64). -/
def rdPField (h : Half) : CReg := h.extractLsb' 7 3

/-- `h[4:2]`, the 3-bit `rs2'` field of the MISC-ALU format (R64). -/
def rs2PField (h : Half) : CReg := h.extractLsb' 2 3

/-- `h[1:0]` selects the quadrant (R62). -/
def quadrantOf (h : Half) : Quadrant :=
  match h.getLsbD 1, h.getLsbD 0 with
  | false, false => .q0
  | false, true => .q1
  | true, false => .q2
  | true, true => .q3

/-! ## Expansion of operands -/

/-- A compressed register field names register `8 + field = {0b01, field}` (R23). -/
def expandCReg (f : CReg) : RegId := (0b01#2 ++ f : BitVec 5)

/-- `C.LI`: the immediate field is `sext_12(raw)` (R69). -/
def liImm (raw : BitVec 6) : BitVec 12 := raw.signExtend 12

/-- `C.LWSP`: the byte offset `scatter_16(raw, LWSP_PERM)`, zero-extended to 12 bits (R70, R97). -/
def lwspImm (raw : BitVec 6) : BitVec 12 := (scatter (raw.setWidth 16) Config.lwspPerm).setWidth 12

end Sys2Proof.Machine
end

