-- ==== Sys2Proof/Machine/Builder.lean ====
section
/-! DEFINITION. The Instruction Field Builder (R105 to R111): concatenation of fields and constants. Operand widths are the
port widths of R105, so no operand can spill into a neighbouring field. -/

namespace Sys2Proof.Machine

/-- `build_r`, the R-type builder (R106). -/
def buildR (funct7 : BitVec 7) (rs2 rs1 : RegId) (funct3 : BitVec 3) (rd : RegId) (opcode : BitVec 7) : Word :=
  (funct7 ++ rs2 ++ rs1 ++ funct3 ++ rd ++ opcode : BitVec 32)

/-- `build_i`, the I-type builder; it neither extends nor interprets `imm` (R108). -/
def buildI (imm : BitVec 12) (rs1 : RegId) (funct3 : BitVec 3) (rd : RegId) (opcode : BitVec 7) : Word :=
  (imm ++ rs1 ++ funct3 ++ rd ++ opcode : BitVec 32)

/-- `build_sub(rd, rs1, rs2)` (R107). -/
def buildSub (rd rs1 rs2 : RegId) (P : Config.Params := Config.r6) : Word :=
  buildR P.subFunct7 rs2 rs1 P.subFunct3 rd P.subOpcode

/-- `build_addi(rd, rs1, imm)` (R109). -/
def buildAddi (rd rs1 : RegId) (imm : BitVec 12) : Word :=
  buildI imm rs1 Config.addiFunct3 rd Config.addiOpcode

/-- `build_lw(rd, imm)`, whose base register is fixed to the stack pointer (R110). -/
def buildLw (rd : RegId) (imm : BitVec 12) (P : Config.Params := Config.r6) : Word :=
  buildI imm P.spReg Config.lwFunct3 rd Config.lwOpcode

/-! ## Reading the fields back (R66, R111) -/

/-- `opcode = w[6:0]`. -/
def opcodeOf (w : Word) : BitVec 7 := w.extractLsb' 0 7

/-- `rd = w[11:7]`. -/
def rdOf (w : Word) : RegId := w.extractLsb' 7 5

/-- `funct3 = w[14:12]`. -/
def funct3Of (w : Word) : BitVec 3 := w.extractLsb' 12 3

/-- `rs1 = w[19:15]`. -/
def rs1Of (w : Word) : RegId := w.extractLsb' 15 5

/-- `rs2 = w[24:20]` (R-type). -/
def rs2Of (w : Word) : RegId := w.extractLsb' 20 5

/-- `funct7 = w[31:25]` (R-type). -/
def funct7Of (w : Word) : BitVec 7 := w.extractLsb' 25 7

/-- `imm = w[31:20]` (I-type). -/
def immOf (w : Word) : BitVec 12 := w.extractLsb' 20 12

/-! ## The three output rows of the opcode table, as tests on a 32-bit word (R67) -/

/-- The fixed bits of the `ADDI` row. -/
def fitsAddi (w : Word) : Bool :=
  opcodeOf w == Config.addiOpcode && funct3Of w == Config.addiFunct3

/-- The fixed bits of the `LW` row; its `rs1` is fixed to the stack pointer. -/
def fitsLw (w : Word) : Bool :=
  opcodeOf w == Config.lwOpcode && funct3Of w == Config.lwFunct3 && rs1Of w == Config.r6.spReg

/-- The fixed bits of the `SUB` row. -/
def fitsSub (w : Word) : Bool :=
  opcodeOf w == Config.r6.subOpcode && funct3Of w == Config.r6.subFunct3 && funct7Of w == Config.r6.subFunct7

end Sys2Proof.Machine
end

