-- ==== Sys2Proof/Syntax.lean ====
section
/-! DEFINITION. The instructions: one constructor per row of `spec/opcode_table.json`, in the table's order.

A row with operands (R63, R64, R66) has its fields as arguments. For every other row the spec gives no operand layout (R65):
its arguments are the bits the rule does not read, uninterpreted, high part first, so that no bit of a word is lost (log 15). -/

namespace Sys2Proof

inductive Instr where
  /-- `q0.000` (R116); `unread = h[12:2]`, as in every class selected by `h[15:13]` and `h[1:0]` only. -/
  | q0c000 (unread : BitVec 11)
  /-- `q0.001` `FLD` (R117). -/
  | q0c001Fld (unread : BitVec 11)
  /-- `q0.010` `LW` (R118). -/
  | q0c010Lw (unread : BitVec 11)
  /-- `q0.011` `LD` (R119). -/
  | q0c011Ld (unread : BitVec 11)
  /-- `q0.100` (R120). -/
  | q0c100 (unread : BitVec 11)
  /-- `q0.101` `FSD` (R121). -/
  | q0c101Fsd (unread : BitVec 11)
  /-- `q0.110` `SW` (R122). -/
  | q0c110Sw (unread : BitVec 11)
  /-- `q0.111` `SD` (R123). -/
  | q0c111Sd (unread : BitVec 11)
  /-- `q1.000` (R131). -/
  | q1c000 (unread : BitVec 11)
  /-- `q1.001` (R132). -/
  | q1c001 (unread : BitVec 11)
  /-- `C.LI rd, imm` (R133): `rd = h[11:7]`, not 0; `raw = {h[12], h[6:2]}`. -/
  | cLi (rd : RegId) (raw : BitVec 6)
  /-- `C.LI` with `rd == 0` (R134): `raw = {h[12], h[6:2]}`, not examined. -/
  | cLiRd0 (raw : BitVec 6)
  /-- `q1.011` (R135). -/
  | q1c011 (unread : BitVec 11)
  /-- `q1.100.00` MISC-ALU (R137): `hi = h[12]`, `lo = h[9:2]`. -/
  | miscAlu00 (hi : BitVec 1) (lo : BitVec 8)
  /-- `q1.100.01` MISC-ALU (R138). -/
  | miscAlu01 (hi : BitVec 1) (lo : BitVec 8)
  /-- `q1.100.10` MISC-ALU (R139). -/
  | miscAlu10 (hi : BitVec 1) (lo : BitVec 8)
  /-- `C.SUB rd', rs2'` (R141): `rdP = h[9:7]`, `rs2P = h[4:2]`. -/
  | cSub (rdP rs2P : CReg)
  /-- `q1.100.11.(0,01)` (R144): `hi = h[9:7]`, `lo = h[4:2]`, unread. -/
  | misc11s001 (hi lo : BitVec 3)
  /-- `q1.100.11.(0,10)` (R145). -/
  | misc11s010 (hi lo : BitVec 3)
  /-- `q1.100.11.(0,11)` (R146). -/
  | misc11s011 (hi lo : BitVec 3)
  /-- `q1.100.11.(1,00)` (R147). -/
  | misc11s100 (hi lo : BitVec 3)
  /-- `q1.100.11.(1,01)` (R148). -/
  | misc11s101 (hi lo : BitVec 3)
  /-- `q1.100.11.(1,10)` (R142). -/
  | misc11s110 (hi lo : BitVec 3)
  /-- `q1.100.11.(1,11)` (R143). -/
  | misc11s111 (hi lo : BitVec 3)
  /-- `q1.101` (R149). -/
  | q1c101 (unread : BitVec 11)
  /-- `q1.110` (R150). -/
  | q1c110 (unread : BitVec 11)
  /-- `q1.111` (R151). -/
  | q1c111 (unread : BitVec 11)
  /-- `q2.000` (R161). -/
  | q2c000 (unread : BitVec 11)
  /-- `q2.001` (R162). -/
  | q2c001 (unread : BitVec 11)
  /-- `C.LWSP rd, offset(sp)` (R163): `rd = h[11:7]`, not 0; `raw = {h[12], h[6:2]}`. -/
  | cLwsp (rd : RegId) (raw : BitVec 6)
  /-- `C.LWSP` with `rd == 0` (R164): `raw = {h[12], h[6:2]}`, not examined. -/
  | cLwspRd0 (raw : BitVec 6)
  /-- `q2.011` (R165). -/
  | q2c011 (unread : BitVec 11)
  /-- `q2.100` (R166). -/
  | q2c100 (unread : BitVec 11)
  /-- `q2.101` (R167). -/
  | q2c101 (unread : BitVec 11)
  /-- `q2.110` (R168). -/
  | q2c110 (unread : BitVec 11)
  /-- `q2.111` (R169). -/
  | q2c111 (unread : BitVec 11)
  /-- Quadrant 3 (R181): the first half of a 4-byte instruction. `full` is the whole 32-bit word `{b3, b2, b1, b0}` (R43),
  one that is none of the three output rows below. -/
  | notCompressed (full : Word)
  /-- `ADDI rd, rs1, imm`, a 32-bit word (R109). -/
  | addi (rd rs1 : RegId) (imm : BitVec 12)
  /-- `LW rd, imm(sp)`, a 32-bit word (R110). -/
  | lw (rd : RegId) (imm : BitVec 12)
  /-- `SUB rd, rs1, rs2`, a 32-bit word (R107). -/
  | sub (rd rs1 rs2 : RegId)
deriving DecidableEq, Repr

end Sys2Proof
end

