-- ==== Sys2Proof/WellFormed.lean ====
section
/-! DEFINITION. When an instruction term stands for a word: the constraints of the opcode table's rows (R77). -/

namespace Sys2Proof

/-- `C.LI` and `C.LWSP` have `rd != 0` (R133, R163); a quadrant-3 word has `w[1:0] = 11` (R181) and is none of the three
output rows, which have constructors of their own (log 14). Every other term is a word of its row. -/
def Instr.wellFormed : Instr → Bool
  | .q0c000 _ | .q0c001Fld _ | .q0c010Lw _ | .q0c011Ld _ | .q0c100 _ | .q0c101Fsd _ | .q0c110Sw _ | .q0c111Sd _ => true
  | .q1c000 _ | .q1c001 _ => true
  | .cLi rd _ => rd != 0#5
  | .cLiRd0 _ | .q1c011 _ => true
  | .miscAlu00 _ _ | .miscAlu01 _ _ | .miscAlu10 _ _ => true
  | .cSub _ _ => true
  | .misc11s001 _ _ | .misc11s010 _ _ | .misc11s011 _ _ | .misc11s100 _ _ | .misc11s101 _ _ => true
  | .misc11s110 _ _ | .misc11s111 _ _ => true
  | .q1c101 _ | .q1c110 _ | .q1c111 _ => true
  | .q2c000 _ | .q2c001 _ => true
  | .cLwsp rd _ => rd != 0#5
  | .cLwspRd0 _ | .q2c011 _ | .q2c100 _ | .q2c101 _ | .q2c110 _ | .q2c111 _ => true
  | .notCompressed w =>
    w.getLsbD 1 && w.getLsbD 0 && !Machine.fitsAddi w && !Machine.fitsLw w && !Machine.fitsSub w
  | .addi _ _ _ | .lw _ _ | .sub _ _ _ => true

end Sys2Proof
end

