-- ==== Sys2Proof/Decode.lean ====
section
/-! DEFINITION. Decoding and encoding. `decodeBytes` is total on any bytes: every 16-bit word is of one row (R72), so the only
rejections are the named ones for bytes that run out. The encoder is written from the same tables (R62 to R66). -/

namespace Sys2Proof

open Machine

/-! ## Byte order -/

/-- The word `{b1, b0}` of two bytes, `b0` at the lower address (R42). -/
def halfOfBytes (b0 b1 : Byte) : Half := (b1 ++ b0 : BitVec 16)

/-- The word `{b3, b2, b1, b0}` of four bytes, `b0` at the lowest address (R43). -/
def wordOfBytes (b0 b1 b2 b3 : Byte) : Word := (b3 ++ b2 ++ b1 ++ b0 : BitVec 32)

/-- The first `n` little-endian bytes of a 32-bit word. -/
def bytesOfWord (n : Nat) (w : Word) : List Byte :=
  [w.extractLsb' 0 8, w.extractLsb' 8 8, w.extractLsb' 16 8, w.extractLsb' 24 8].take n

/-! ## Decoding -/

/-- The bits `h[12:2]`, unread in the classes selected by `h[15:13]` and `h[1:0]` (R65). -/
def unreadField (h : Half) : BitVec 11 := h.extractLsb' 2 11

/-- Quadrant 0, by `h[15:13]` (R73, R115). -/
def decodeQ0 (h : Half) : Instr :=
  match h.getLsbD 15, h.getLsbD 14, h.getLsbD 13 with
  | false, false, false => .q0c000 (unreadField h)
  | false, false, true => .q0c001Fld (unreadField h)
  | false, true, false => .q0c010Lw (unreadField h)
  | false, true, true => .q0c011Ld (unreadField h)
  | true, false, false => .q0c100 (unreadField h)
  | true, false, true => .q0c101Fsd (unreadField h)
  | true, true, false => .q0c110Sw (unreadField h)
  | true, true, true => .q0c111Sd (unreadField h)

/-- MISC-ALU sub-case `11`, by `(h[12], h[6:5])` (R140). -/
def decodeMisc11 (h : Half) : Instr :=
  match h.getLsbD 12, h.getLsbD 6, h.getLsbD 5 with
  | false, false, false => .cSub (rdPField h) (rs2PField h)
  | false, false, true => .misc11s001 (rdPField h) (rs2PField h)
  | false, true, false => .misc11s010 (rdPField h) (rs2PField h)
  | false, true, true => .misc11s011 (rdPField h) (rs2PField h)
  | true, false, false => .misc11s100 (rdPField h) (rs2PField h)
  | true, false, true => .misc11s101 (rdPField h) (rs2PField h)
  | true, true, false => .misc11s110 (rdPField h) (rs2PField h)
  | true, true, true => .misc11s111 (rdPField h) (rs2PField h)

/-- MISC-ALU, by `h[11:10]` (R136). -/
def decodeMiscAlu (h : Half) : Instr :=
  match h.getLsbD 11, h.getLsbD 10 with
  | false, false => .miscAlu00 (h.extractLsb' 12 1) (h.extractLsb' 2 8)
  | false, true => .miscAlu01 (h.extractLsb' 12 1) (h.extractLsb' 2 8)
  | true, false => .miscAlu10 (h.extractLsb' 12 1) (h.extractLsb' 2 8)
  | true, true => decodeMisc11 h

/-- Quadrant 1, by `h[15:13]`, then the narrower selectors (R74, R130). -/
def decodeQ1 (h : Half) : Instr :=
  match h.getLsbD 15, h.getLsbD 14, h.getLsbD 13 with
  | false, false, false => .q1c000 (unreadField h)
  | false, false, true => .q1c001 (unreadField h)
  | false, true, false => if rdField h = 0#5 then .cLiRd0 (ciRaw h) else .cLi (rdField h) (ciRaw h)
  | false, true, true => .q1c011 (unreadField h)
  | true, false, false => decodeMiscAlu h
  | true, false, true => .q1c101 (unreadField h)
  | true, true, false => .q1c110 (unreadField h)
  | true, true, true => .q1c111 (unreadField h)

/-- Quadrant 2, by `h[15:13]` and, for `010`, `h[11:7]` (R75, R160). -/
def decodeQ2 (h : Half) : Instr :=
  match h.getLsbD 15, h.getLsbD 14, h.getLsbD 13 with
  | false, false, false => .q2c000 (unreadField h)
  | false, false, true => .q2c001 (unreadField h)
  | false, true, false => if rdField h = 0#5 then .cLwspRd0 (ciRaw h) else .cLwsp (rdField h) (ciRaw h)
  | false, true, true => .q2c011 (unreadField h)
  | true, false, false => .q2c100 (unreadField h)
  | true, false, true => .q2c101 (unreadField h)
  | true, true, false => .q2c110 (unreadField h)
  | true, true, true => .q2c111 (unreadField h)

/-- A 4-byte instruction's word: one of the output rows, or any other quadrant-3 word (R66, R67, R76). -/
def decodeFullWord (w : Word) : Instr :=
  if fitsAddi w then .addi (rdOf w) (rs1Of w) (immOf w)
  else if fitsLw w then .lw (rdOf w) (immOf w)
  else if fitsSub w then .sub (rdOf w) (rs1Of w) (rs2Of w)
  else .notCompressed w

/-- Why bytes are rejected. -/
inductive Reject where
  /-- There is no byte. -/
  | empty
  /-- One byte is left: not the 16 bits that tell the length (R60). -/
  | oneByte
  /-- A quadrant-3 word with fewer than four bytes (R60). -/
  | cutShort
deriving DecidableEq, Repr

/-- The 4-byte case of `decodeBytes`, with the bytes after the first two. -/
def decodeLong (b0 b1 : Byte) : List Byte → Except Reject (Instr × List Byte)
  | b2 :: b3 :: rest => .ok (decodeFullWord (wordOfBytes b0 b1 b2 b3), rest)
  | [_] => .error .cutShort
  | [] => .error .cutShort

/-- One instruction from the front of a byte list, with the bytes left over; the length is told from `h[1:0]` (R60). -/
def decodeBytes : List Byte → Except Reject (Instr × List Byte)
  | [] => .error .empty
  | [_] => .error .oneByte
  | b0 :: b1 :: rest =>
    match quadrantOf (halfOfBytes b0 b1) with
    | .q0 => .ok (decodeQ0 (halfOfBytes b0 b1), rest)
    | .q1 => .ok (decodeQ1 (halfOfBytes b0 b1), rest)
    | .q2 => .ok (decodeQ2 (halfOfBytes b0 b1), rest)
    | .q3 => decodeLong b0 b1 rest

/-- The instruction of a word whose bits are numbered as the opcode table numbers them, bits from `nbits` up being 0; the
bytes are laid out little-endian up to the longest instruction, four bytes (R42, R43, R60). -/
def decodeTableWord (nbits w : Nat) : Option Instr :=
  match decodeBytes (bytesOfWord 4 (BitVec.ofNat 32 (w % 2 ^ nbits))) with
  | .ok (i, _) => some i
  | .error _ => none

/-! ## Encoding -/

/-- A word of a class selected by `h[15:13]` and `h[1:0]` (R62). -/
def encodeClass (funct3 : BitVec 3) (unread : BitVec 11) (op : BitVec 2) : Half :=
  (funct3 ++ unread ++ op : BitVec 16)

/-- A word of the CI format (R63). -/
def encodeCi (funct3 : BitVec 3) (raw : BitVec 6) (rd : RegId) (op : BitVec 2) : Half :=
  (funct3 ++ raw.extractLsb' 5 1 ++ rd ++ raw.extractLsb' 0 5 ++ op : BitVec 16)

/-- A word of a MISC-ALU class with `h[11:10] = sub` (R64). -/
def encodeMisc (hi : BitVec 1) (sub : BitVec 2) (lo : BitVec 8) : Half :=
  (0b100#3 ++ hi ++ sub ++ lo ++ 0b01#2 : BitVec 16)

/-- A word of the MISC-ALU register-register format (R64). -/
def encodeMisc11 (selHi : BitVec 1) (selLo : BitVec 2) (rdP rs2P : BitVec 3) : Half :=
  (0b100#3 ++ selHi ++ 0b11#2 ++ rdP ++ selLo ++ rs2P ++ 0b01#2 : BitVec 16)

/-- How many bytes an instruction occupies in the code buffer (R60). -/
def Instr.byteLength : Instr → Nat
  | .q0c000 _ | .q0c001Fld _ | .q0c010Lw _ | .q0c011Ld _ | .q0c100 _ | .q0c101Fsd _ | .q0c110Sw _ | .q0c111Sd _ => 2
  | .q1c000 _ | .q1c001 _ | .cLi _ _ | .cLiRd0 _ | .q1c011 _ => 2
  | .miscAlu00 _ _ | .miscAlu01 _ _ | .miscAlu10 _ _ | .cSub _ _ => 2
  | .misc11s001 _ _ | .misc11s010 _ _ | .misc11s011 _ _ | .misc11s100 _ _ | .misc11s101 _ _ => 2
  | .misc11s110 _ _ | .misc11s111 _ _ => 2
  | .q1c101 _ | .q1c110 _ | .q1c111 _ => 2
  | .q2c000 _ | .q2c001 _ | .cLwsp _ _ | .cLwspRd0 _ | .q2c011 _ | .q2c100 _ | .q2c101 _ | .q2c110 _ | .q2c111 _ => 2
  | .notCompressed _ | .addi _ _ _ | .lw _ _ | .sub _ _ _ => 4

/-- The instruction's word, a 16-bit one zero-extended. -/
def encodeWord : Instr → Word
  | .q0c000 x => (encodeClass 0b000#3 x 0b00#2).setWidth 32
  | .q0c001Fld x => (encodeClass 0b001#3 x 0b00#2).setWidth 32
  | .q0c010Lw x => (encodeClass 0b010#3 x 0b00#2).setWidth 32
  | .q0c011Ld x => (encodeClass 0b011#3 x 0b00#2).setWidth 32
  | .q0c100 x => (encodeClass 0b100#3 x 0b00#2).setWidth 32
  | .q0c101Fsd x => (encodeClass 0b101#3 x 0b00#2).setWidth 32
  | .q0c110Sw x => (encodeClass 0b110#3 x 0b00#2).setWidth 32
  | .q0c111Sd x => (encodeClass 0b111#3 x 0b00#2).setWidth 32
  | .q1c000 x => (encodeClass 0b000#3 x 0b01#2).setWidth 32
  | .q1c001 x => (encodeClass 0b001#3 x 0b01#2).setWidth 32
  | .cLi rd raw => (encodeCi 0b010#3 raw rd 0b01#2).setWidth 32
  | .cLiRd0 raw => (encodeCi 0b010#3 raw 0#5 0b01#2).setWidth 32
  | .q1c011 x => (encodeClass 0b011#3 x 0b01#2).setWidth 32
  | .miscAlu00 hi lo => (encodeMisc hi 0b00#2 lo).setWidth 32
  | .miscAlu01 hi lo => (encodeMisc hi 0b01#2 lo).setWidth 32
  | .miscAlu10 hi lo => (encodeMisc hi 0b10#2 lo).setWidth 32
  | .cSub rdP rs2P => (encodeMisc11 0b0#1 0b00#2 rdP rs2P).setWidth 32
  | .misc11s001 hi lo => (encodeMisc11 0b0#1 0b01#2 hi lo).setWidth 32
  | .misc11s010 hi lo => (encodeMisc11 0b0#1 0b10#2 hi lo).setWidth 32
  | .misc11s011 hi lo => (encodeMisc11 0b0#1 0b11#2 hi lo).setWidth 32
  | .misc11s100 hi lo => (encodeMisc11 0b1#1 0b00#2 hi lo).setWidth 32
  | .misc11s101 hi lo => (encodeMisc11 0b1#1 0b01#2 hi lo).setWidth 32
  | .misc11s110 hi lo => (encodeMisc11 0b1#1 0b10#2 hi lo).setWidth 32
  | .misc11s111 hi lo => (encodeMisc11 0b1#1 0b11#2 hi lo).setWidth 32
  | .q1c101 x => (encodeClass 0b101#3 x 0b01#2).setWidth 32
  | .q1c110 x => (encodeClass 0b110#3 x 0b01#2).setWidth 32
  | .q1c111 x => (encodeClass 0b111#3 x 0b01#2).setWidth 32
  | .q2c000 x => (encodeClass 0b000#3 x 0b10#2).setWidth 32
  | .q2c001 x => (encodeClass 0b001#3 x 0b10#2).setWidth 32
  | .cLwsp rd raw => (encodeCi 0b010#3 raw rd 0b10#2).setWidth 32
  | .cLwspRd0 raw => (encodeCi 0b010#3 raw 0#5 0b10#2).setWidth 32
  | .q2c011 x => (encodeClass 0b011#3 x 0b10#2).setWidth 32
  | .q2c100 x => (encodeClass 0b100#3 x 0b10#2).setWidth 32
  | .q2c101 x => (encodeClass 0b101#3 x 0b10#2).setWidth 32
  | .q2c110 x => (encodeClass 0b110#3 x 0b10#2).setWidth 32
  | .q2c111 x => (encodeClass 0b111#3 x 0b10#2).setWidth 32
  | .notCompressed w => w
  | .addi rd rs1 imm => buildAddi rd rs1 imm
  | .lw rd imm => buildLw rd imm
  | .sub rd rs1 rs2 => buildSub rd rs1 rs2

/-- The bytes of a well-formed instruction, lowest address first (R42, R43). -/
def encode (i : Instr) : List Byte := bytesOfWord i.byteLength (encodeWord i)

/-- The 16 bits the length is told from, the word that is presented on `instr_i` (R42, R60). -/
def Instr.firstHalf (i : Instr) : Half := (encodeWord i).setWidth 16

/-! ## The input rows of the opcode table (R77) -/

/-- One input row of `opcode_table.json`: the words `h` with `h & mask == pattern`, and `h[11:7] != 0` where the row says so. -/
structure Row where
  mask    : Half
  pattern : Half
  rdNot0  : Bool
  result  : Status
  words   : Nat
deriving DecidableEq, Repr

/-- A row selects a word. -/
def Row.selects (r : Row) (h : Half) : Bool :=
  h &&& r.mask == r.pattern && (!r.rdNot0 || rdField h != 0#5)

/-- Quadrant 0 (R73). -/
def rowsQ0 : List Row :=
  [⟨0xE003#16, 0x0000#16, false, .illegal, 2048⟩,
   ⟨0xE003#16, 0x2000#16, false, .unimplemented, 2048⟩,
   ⟨0xE003#16, 0x4000#16, false, .unimplemented, 2048⟩,
   ⟨0xE003#16, 0x6000#16, false, .unimplemented, 2048⟩,
   ⟨0xE003#16, 0x8000#16, false, .reserved, 2048⟩,
   ⟨0xE003#16, 0xA000#16, false, .unimplemented, 2048⟩,
   ⟨0xE003#16, 0xC000#16, false, .unimplemented, 2048⟩,
   ⟨0xE003#16, 0xE000#16, false, .unimplemented, 2048⟩]

/-- Quadrant 1 but for MISC-ALU (R74). -/
def rowsQ1 : List Row :=
  [⟨0xE003#16, 0x0001#16, false, .unimplemented, 2048⟩,
   ⟨0xE003#16, 0x2001#16, false, .unimplemented, 2048⟩,
   ⟨0xE003#16, 0x4001#16, true, .ok, 1984⟩,
   ⟨0xEF83#16, 0x4001#16, false, .reserved, 64⟩,
   ⟨0xE003#16, 0x6001#16, false, .unimplemented, 2048⟩,
   ⟨0xE003#16, 0xA001#16, false, .unimplemented, 2048⟩,
   ⟨0xE003#16, 0xC001#16, false, .unimplemented, 2048⟩,
   ⟨0xE003#16, 0xE001#16, false, .unimplemented, 2048⟩]

/-- Quadrant 1, MISC-ALU (R74). -/
def rowsMiscAlu : List Row :=
  [⟨0xEC03#16, 0x8001#16, false, .unimplemented, 512⟩,
   ⟨0xEC03#16, 0x8401#16, false, .unimplemented, 512⟩,
   ⟨0xEC03#16, 0x8801#16, false, .unimplemented, 512⟩,
   ⟨0xFC63#16, 0x8C01#16, false, .ok, 64⟩,
   ⟨0xFC63#16, 0x8C21#16, false, .unimplemented, 64⟩,
   ⟨0xFC63#16, 0x8C41#16, false, .unimplemented, 64⟩,
   ⟨0xFC63#16, 0x8C61#16, false, .unimplemented, 64⟩,
   ⟨0xFC63#16, 0x9C01#16, false, .unimplemented, 64⟩,
   ⟨0xFC63#16, 0x9C21#16, false, .unimplemented, 64⟩,
   ⟨0xFC63#16, 0x9C41#16, false, .reserved, 64⟩,
   ⟨0xFC63#16, 0x9C61#16, false, .reserved, 64⟩]

/-- Quadrants 2 and 3 (R75, R76). -/
def rowsQ2Q3 : List Row :=
  [⟨0xE003#16, 0x0002#16, false, .unimplemented, 2048⟩,
   ⟨0xE003#16, 0x2002#16, false, .unimplemented, 2048⟩,
   ⟨0xE003#16, 0x4002#16, true, .ok, 1984⟩,
   ⟨0xEF83#16, 0x4002#16, false, .reserved, 64⟩,
   ⟨0xE003#16, 0x6002#16, false, .unimplemented, 2048⟩,
   ⟨0xE003#16, 0x8002#16, false, .unimplemented, 2048⟩,
   ⟨0xE003#16, 0xA002#16, false, .unimplemented, 2048⟩,
   ⟨0xE003#16, 0xC002#16, false, .unimplemented, 2048⟩,
   ⟨0xE003#16, 0xE002#16, false, .unimplemented, 2048⟩,
   ⟨0x0003#16, 0x0003#16, false, .notCompressed, 16384⟩]

/-- The 37 input rows (R77); their order does not matter. -/
def inputRows : List Row := rowsQ0 ++ rowsQ1 ++ rowsMiscAlu ++ rowsQ2Q3

end Sys2Proof
end

