-- ==== Sys2Proof/Machine/Flags.lean ====
section
/-! DEFINITION. The block has no flags, condition codes or predicates (R27); what stands here is its status output: the coding
`STATUS_ENC` of `status_o[2:0]` (R232) and the answers a decoder can give (R9, R182). -/

namespace Sys2Proof

/-- `STATUS_ENC` (R232, log 13). -/
def Status.code (st : Status) (P : Config.Params := Config.r6) : BitVec 3 :=
  match st with
  | .ok => P.statusEnc.ok
  | .illegal => P.statusEnc.illegal
  | .reserved => P.statusEnc.reserved
  | .unimplemented => P.statusEnc.unimplemented
  | .notCompressed => P.statusEnc.notCompressed

/-- The status a code stands for; with the codes of R6, 5, 6 and 7 are never produced (R232). -/
def Status.ofCode (c : BitVec 3) (P : Config.Params := Config.r6) : Option Status :=
  if c = Status.ok.code P then some .ok
  else if c = Status.illegal.code P then some .illegal
  else if c = Status.reserved.code P then some .reserved
  else if c = Status.unimplemented.code P then some .unimplemented
  else if c = Status.notCompressed.code P then some .notCompressed
  else none

/-- The status of a decoding error (R10). -/
def DecodingError.status : DecodingError → Status
  | .illegal => .illegal
  | .reserved => .reserved
  | .unimplemented => .unimplemented

/-- `return Ok(w)` (R9). -/
def BlockResult.ok (w : Word) : BlockResult := ⟨.ok, w⟩

/-- `return Err(e)`: the word is `ERR_WORD` (R9, R182). -/
def BlockResult.err (e : DecodingError) (P : Config.Params := Config.r6) : BlockResult := ⟨e.status, P.errWord⟩

/-- `return NotCompressed`: the word is `ERR_WORD` (R181). -/
def BlockResult.notCompressed (P : Config.Params := Config.r6) : BlockResult := ⟨.notCompressed, P.errWord⟩

/-- What a consumer reads: the status first, the word only when it is OK (R182, R263 item 6); `none` for quadrant 3. -/
def BlockResult.read (r : BlockResult) : Option (Except DecodingError Word) :=
  match r.status with
  | .ok => some (.ok r.word)
  | .illegal => some (.error .illegal)
  | .reserved => some (.error .reserved)
  | .unimplemented => some (.error .unimplemented)
  | .notCompressed => none

end Sys2Proof
end

