-- ==== Sys2Proof/Machine/State.lean ====
section
/-! DEFINITION. The state of the front-end as plain data. The block itself holds no state (R20, R26 to R30): State holds the values on
the block's ports (R21, log 2), the environment's state of rule R31, and the calls the caller has queued (log 5). -/

namespace Sys2Proof.Machine

/-! ## The code buffer -/

/-- A finite, byte-addressed sequence of bytes, offsets 0 to `size - 1` (R41), in one canonical form: the cells list the
nonzero bytes, offsets strictly rising (log 6). -/
structure Memory where
  size  : Nat
  cells : List Host.Cell
deriving DecidableEq, Repr

/-- What an offset below `size` that no cell lists reads as (log 6). -/
def Memory.unlisted : Byte := 0#8

/-- The canonical form of a buffer. -/
abbrev Memory.wf (m : Memory) : Prop :=
  m.cells.Pairwise (fun c d => c.1 < d.1) ∧ ∀ c ∈ m.cells, c.2 ≠ Memory.unlisted ∧ c.1 < m.size

/-! ## The iterators (R31, R192) -/

/-- State of `InstructionIter`. The cursor is a byte offset (log 17). -/
structure InstructionIter where
  buffer : Memory
  cursor : Nat
deriving DecidableEq, Repr

/-- State of `LocationIter`. -/
structure LocationIter where
  buffer : Memory
  base   : Addr
  cursor : Nat
deriving DecidableEq, Repr

/-- One item of `InstructionIter` (R194, R195), before the external `decode` makes an `Instruction` of it. -/
inductive Item where
  /-- A 2-byte instruction: what the block answered for it. -/
  | block (r : BlockResult)
  /-- A 4-byte instruction: the little-endian word handed to the external `decode`. -/
  | full (w : Word)
deriving DecidableEq, Repr

/-! ## The loader (R201 to R210) -/

/-- What the external `decode` makes of a word: its `Instruction` type is not in the source (R200), and a value is named
here by the canonical word it was made from (log 7). -/
structure Instruction where
  word : Word
deriving DecidableEq, Repr

/-- One program header: whether it is `PT_LOAD`, its permissions, and the bytes of its segment (R202, R204; log 9). -/
structure ProgramHeader where
  ptLoad     : Bool
  readable   : Bool
  writable   : Bool
  executable : Bool
  bytes      : List Byte
deriving DecidableEq, Repr

/-- An ELF image in parsed form: what R202 and R204 consult (log 9). -/
structure ElfImage where
  is64         : Bool
  littleEndian : Bool
  library      : Bool
  headers      : List ProgramHeader
  entry        : Addr
deriving DecidableEq, Repr

/-- What a path leads to (R201, R209). -/
inductive ElfFile where
  | unreadable
  | unparsable
  | image (img : ElfImage)
deriving DecidableEq, Repr

/-- The four constraints of R202, in the document's order. -/
inductive ShapeConstraint where
  /-- "must be ... 64bit ... little endian", non-library. -/
  | imageKind
  /-- "must have 2 program segments". -/
  | twoSegments
  /-- "code segment ... missing". -/
  | codeSegment
  | dataSegment
deriving DecidableEq, Repr

/-- The loader's errors, recoverable and returned to the caller (R209, R243). -/
inductive LoaderError where
  | fileIo
  | elfParse
  | shape (c : ShapeConstraint)
  | decoding (e : DecodingError)
deriving DecidableEq, Repr

/-- What `load_object_file` returns on success (R204). -/
structure RiscuProgram where
  codeSegment  : List Byte
  dataSegment  : List Byte
  entryAddress : Addr
deriving DecidableEq, Repr

/-- What `load_and_decode_object_file` returns on success (R205). -/
structure DecodedRiscuProgram where
  codeSegment  : List Instruction
  dataSegment  : List Addr
  entryAddress : Addr
deriving DecidableEq, Repr

/-! ## The caller (log 5) -/

/-- A call of the caller's other than the next value of `InstructionIter`. -/
inductive HostCall where
  /-- `LocationIter.next()` (R193). -/
  | nextLocation
  /-- Hold a word on `instr_i` (R263 items 4 and 5). -/
  | present (h : Half)
  /-- `InstructionIter::new(buffer)` (R192). -/
  | newInstructionIter (bytes : List Byte)
  /-- `LocationIter::new(buffer, base_address)` (R192). -/
  | newLocationIter (bytes : List Byte) (base : Addr)
  /-- `load_object_file(path)` (R201). -/
  | loadObjectFile (file : ElfFile)
  /-- `load_and_decode_object_file(path)` (R205). -/
  | loadAndDecodeObjectFile (file : ElfFile)
deriving DecidableEq, Repr

/-- A queued call. -/
inductive Request where
  /-- `InstructionIter.next()` (R195), which is also what is asked when nothing is queued. -/
  | nextInstruction
  | call (c : HostCall)
deriving DecidableEq, Repr

/-! ## The state -/

/-- Everything the spec gives the machine. -/
structure State where
  /-- `instr_i` (R21). -/
  instrI : Half
  /-- `word_o` (R21, R182). -/
  wordO : Word
  /-- `status_o` (R21, R232), before coding. -/
  statusO : Status
  /-- `InstructionIter` (R31). -/
  ins : InstructionIter
  /-- What it has yielded since it was made, oldest first (R195; log 18). -/
  insItems : List Item
  /-- It has answered `None` (R196). -/
  insEnded : Bool
  /-- `LocationIter` (R31). -/
  loc : LocationIter
  /-- What it has yielded since it was made, oldest first (R193; log 18). -/
  locItems : List Addr
  /-- It has answered `None` (R196). -/
  locEnded : Bool
  /-- The result of the last `load_object_file`, if there was one (R31, R204, R209). -/
  program : Option (Except LoaderError RiscuProgram)
  /-- The result of the last `load_and_decode_object_file`, if there was one (R31, R205, R209). -/
  decodedProgram : Option (Except LoaderError DecodedRiscuProgram)
  /-- Calls not yet served, the next one first (log 5). -/
  requests : List Request
deriving DecidableEq, Repr

/-- The defects of the environment, fatal (R235, log 16); the block reaches none. -/
inductive Fault where
  /-- `defect(TRUNCATED)`: a fetch would pass the end of the buffer (R197). Raised by both iterators. Safe: the spec gives
  this outcome and yields nothing. -/
  | truncated
  /-- `defect(BAD_LENGTH)`: the classifier answered neither 2 nor 4 (R198). Raised by both iterators, never with the classifier of
  R191. Safe: the spec gives this outcome. -/
  | badLength
  /-- A code segment whose length is not a multiple of 4, "a loader defect" (R206). Raised by the decoding loader. Safe: the
  load gives no program. -/
  | codeSegmentLength
deriving DecidableEq, Repr

/-- What the model gives no meaning to. -/
inductive Refusal where
  /-- An instruction whose meaning is not written. Raised by `exec`'s arms only; safe. -/
  | notModelled (mnemonic : String)
  /-- A data segment whose length is not a multiple of 8: "A model refuses such a program" (R207). Raised by the decoding
  loader; safe. -/
  | dataSegmentLength
deriving DecidableEq, Repr

/-- A buffer of no bytes. -/
def Memory.empty : Memory := ⟨0, []⟩

/-- The machine before anything is asked of it. There is no reset input (R30, R260); the ports carry a word (log 2), no buffer has
been handed to an iterator and cursors are 0 (R261, log 4), nothing is loaded and nothing queued (logs 4, 5). -/
def State.reset : State where
  instrI := 0x0000#16
  wordO := 0x00000000#32
  statusO := .illegal
  ins := ⟨Memory.empty, 0⟩
  insItems := []
  insEnded := false
  loc := ⟨Memory.empty, 0#64, 0⟩
  locItems := []
  locEnded := false
  program := none
  decodedProgram := none
  requests := []

end Sys2Proof.Machine
end

