-- ==== Sys2Proof/Machine/Ops.lean ====
section
/-! DEFINITION. The shared operations: the code buffer, the length classifier, the fetch of both iterators, and the ways an
instruction answers. The block takes no exception (R238): a decoding error is an answer like any other, and the
three `answer` operations below are its whole error mechanism (R237); there is no return from one (R239). -/

namespace Sys2Proof.Machine

/-- The outcome of a step of this machine. -/
abbrev Result := Host.Outcome State Fault Refusal

/-! ## The code buffer -/

/-- The byte the cells list at an offset, or what an unlisted one reads as. -/
def cellAt (a : Nat) : List Host.Cell → Byte
  | [] => Memory.unlisted
  | c :: cs => if c.1 = a then c.2 else cellAt a cs

/-- Read one byte; an offset at or past the end does not exist (R41, R47). -/
def Memory.read (m : Memory) (a : Nat) : Option Byte :=
  if a < m.size then some (cellAt a m.cells) else none

/-- Put a byte into a canonical cell list, keeping it canonical. -/
def setCell (a : Nat) (b : Byte) : List Host.Cell → List Host.Cell
  | [] => if b = Memory.unlisted then [] else [(a, b)]
  | c :: cs =>
    if a < c.1 then (if b = Memory.unlisted then c :: cs else (a, b) :: c :: cs)
    else if a = c.1 then (if b = Memory.unlisted then cs else (a, b) :: cs)
    else c :: setCell a b cs

/-- Put a byte at an offset, lengthening the buffer if need be. The machine never writes its buffers (R46): this is how one
is filled from outside. -/
def Memory.write (m : Memory) (a : Nat) (b : Byte) : Memory :=
  ⟨max m.size (a + 1), setCell a b m.cells⟩

/-- Put bytes from an offset on. -/
def Memory.writeBytes (m : Memory) (a : Nat) : List Byte → Memory
  | [] => m
  | b :: bs => (m.write a b).writeBytes (a + 1) bs

/-- The cells of a byte sequence that starts at an offset. -/
def cellsFrom (a : Nat) : List Byte → List Host.Cell
  | [] => []
  | b :: bs => if b = Memory.unlisted then cellsFrom (a + 1) bs else (a, b) :: cellsFrom (a + 1) bs

/-- The buffer that holds exactly a byte sequence. -/
def Memory.ofBytes (bs : List Byte) : Memory := ⟨bs.length, cellsFrom 0 bs⟩

/-- The `n` bytes from an offset on, unless that passes the end: the bounds check before each fetch (R47). -/
def Memory.readBytes (m : Memory) (a n : Nat) : Option (List Byte) :=
  if a + n ≤ m.size then some ((List.range n).map (fun k => cellAt (a + k) m.cells)) else none

/-- `MemRead(a, 2)`, little-endian (R42). -/
def Memory.readHalf (m : Memory) (a : Nat) : Option Half :=
  if a + 2 ≤ m.size then some (halfOfBytes (cellAt a m.cells) (cellAt (a + 1) m.cells)) else none

/-- `MemRead(a, 4)`, little-endian (R43). -/
def Memory.readWord (m : Memory) (a : Nat) : Option Word :=
  if a + 4 ≤ m.size then
    some (wordOfBytes (cellAt a m.cells) (cellAt (a + 1) m.cells) (cellAt (a + 2) m.cells) (cellAt (a + 3) m.cells))
  else none

/-! ## Fetch -/

/-- The external length classifier, with the body the spec takes (R191). -/
def instructionLength (h : Half) : Nat :=
  match quadrantOf h with
  | .q0 => 2
  | .q1 => 2
  | .q2 => 2
  | .q3 => 4

/-- The part both iterators share: end of the sequence, bounds check, the 16-bit read, the length and its check (R193, R195,
R196 to R198), for any classifier. `none` is the end; otherwise the word and the length. -/
def classifyAt (classifier : Half → Nat) (m : Memory) (cursor : Nat) : Except Fault (Option (Half × Nat)) :=
  if m.size ≤ cursor then .ok none
  else
    match m.readHalf cursor with
    | none => .error .truncated
    | some h => if classifier h ≠ 2 ∧ classifier h ≠ 4 then .error .badLength else .ok (some (h, classifier h))

/-- The fetch of `InstructionIter`: after `classifyAt`, the bounds check on all of the instruction and the 2- or 4-byte
re-read (R195, R197). -/
def fetchAt (classifier : Half → Nat) (m : Memory) (cursor : Nat) : Except Fault (Option (Half × List Byte)) :=
  match classifyAt classifier m cursor with
  | .error f => .error f
  | .ok none => .ok none
  | .ok (some (h, n)) =>
    match m.readBytes cursor n with
    | none => .error .truncated
    | some bs => .ok (some (h, bs))

/-- Hold a word on `instr_i`. -/
def State.setInstrI (s : State) (h : Half) : State := { s with instrI := h }

/-- The outputs follow (R21). -/
def State.setOutputs (s : State) (r : BlockResult) : State := { s with statusO := r.status, wordO := r.word }

/-- `InstructionIter` yields an item and its cursor moves past the `n` bytes of the instruction (R195). -/
def State.yieldItem (s : State) (it : Item) (n : Nat) : State :=
  { s with ins := { s.ins with cursor := s.ins.cursor + n }, insItems := s.insItems ++ [it] }

/-- `InstructionIter` answers `None` (R196). -/
def State.endInstructions (s : State) : State := { s with insEnded := true }

/-- `LocationIter` yields the address the instruction started at, modulo 2^64, and its cursor moves (R193). -/
def State.yieldLocation (s : State) (n : Nat) : State :=
  { s with loc := { s.loc with cursor := s.loc.cursor + n }
           locItems := s.locItems ++ [s.loc.base + BitVec.ofNat 64 s.loc.cursor] }

/-- `LocationIter` answers `None` (R196). -/
def State.endLocations (s : State) : State := { s with locEnded := true }

/-! ## Answers -/

/-- A 2-byte instruction: the block's outputs carry the result, and the result is the item (R182, R185, R195). -/
def State.answer (s : State) (r : BlockResult) : State := (s.setOutputs r).yieldItem (.block r) 2

/-- The word is expanded to the canonical word `w` (R9). -/
def answerOk (w : Word) (s : State) : Result := .next (s.answer (.ok w))

/-- The word is classified: a returned status, no trap (R237); in a walk, one item (R194). -/
def answerErr (e : DecodingError) (s : State) : Result := .next (s.answer (.err e))

/-- A 4-byte instruction: the block answers `NOT_COMPRESSED` for its first half (R181, log 3) and the item is the whole word, for
the external `decode` (R195). -/
def answerFull (w : Word) (s : State) : Result :=
  .next ((s.setOutputs .notCompressed).yieldItem (.full w) 4)

end Sys2Proof.Machine
end

