-- ==== Sys2Proof/Machine/Quadrant0.lean ====
section
/-! DEFINITION. Quadrant 0: the decoder `decompress_q0` as the spec writes it (R115), and the meaning of each of its classes
(R116 to R123). -/

namespace Sys2Proof.Machine

/-- `decompress_q0(h)`, total on all 16-bit words; it reads `h[15:13]` only (R115). -/
def decompressQ0 (h : Half) (P : Config.Params := Config.r6) : BlockResult :=
  match h.getLsbD 15, h.getLsbD 14, h.getLsbD 13 with
  | false, false, false => .err .illegal P
  | false, false, true => .err .unimplemented P
  | false, true, false => .err .unimplemented P
  | false, true, true => .err .unimplemented P
  | true, false, false => .err .reserved P
  | true, false, true => .err .unimplemented P
  | true, true, false => .err .unimplemented P
  | true, true, true => .err .unimplemented P

/-- `q0.000`: `Err(Illegal)`, the whole class (R116). -/
def execQ0c000 (_unread : BitVec 11) (s : State) : Result := answerErr .illegal s

/-- `q0.001` `FLD`: `Err(Unimplemented)` (R117). -/
def execQ0c001Fld (_unread : BitVec 11) (s : State) : Result := answerErr .unimplemented s

/-- `q0.010` `LW`: `Err(Unimplemented)` (R118). -/
def execQ0c010Lw (_unread : BitVec 11) (s : State) : Result := answerErr .unimplemented s

/-- `q0.011` `LD`: `Err(Unimplemented)` (R119). -/
def execQ0c011Ld (_unread : BitVec 11) (s : State) : Result := answerErr .unimplemented s

/-- `q0.100`: `Err(Reserved)` (R120). -/
def execQ0c100 (_unread : BitVec 11) (s : State) : Result := answerErr .reserved s

/-- `q0.101` `FSD`: `Err(Unimplemented)` (R121). -/
def execQ0c101Fsd (_unread : BitVec 11) (s : State) : Result := answerErr .unimplemented s

/-- `q0.110` `SW`: `Err(Unimplemented)` (R122). -/
def execQ0c110Sw (_unread : BitVec 11) (s : State) : Result := answerErr .unimplemented s

/-- `q0.111` `SD`: `Err(Unimplemented)` (R123). -/
def execQ0c111Sd (_unread : BitVec 11) (s : State) : Result := answerErr .unimplemented s

end Sys2Proof.Machine
end

