-- ==== Sys2Proof/Machine/Quadrant1.lean ====
section
/-! DEFINITION. Quadrant 1: the decoder `decompress_q1` as the spec writes it (R130, R136), and the meaning of each of its
classes (R131 to R135, R137 to R139, R141 to R151). -/

namespace Sys2Proof.Machine

/-- The second level of sub-case `11`, by `(h[12], h[6:5])` (R136, R140). -/
def miscAlu11 (h : Half) (P : Config.Params := Config.r6) : BlockResult :=
  match h.getLsbD 12, h.getLsbD 6, h.getLsbD 5 with
  | false, false, false =>
    .ok (buildSub (expandCReg (rdPField h)) (expandCReg (rdPField h)) (expandCReg (rs2PField h)) P)
  | false, false, true => .err P.miscOtherClass P
  | false, true, false => .err P.miscOtherClass P
  | false, true, true => .err P.miscOtherClass P
  | true, false, false => .err P.miscOtherClass P
  | true, false, true => .err P.miscOtherClass P
  | true, true, false => .err .reserved P
  | true, true, true => .err .reserved P

/-- `misc_alu(h)`, by `h[11:10]` (R136). -/
def miscAlu (h : Half) (P : Config.Params := Config.r6) : BlockResult :=
  match h.getLsbD 11, h.getLsbD 10 with
  | false, false => .err .unimplemented P
  | false, true => .err .unimplemented P
  | true, false => .err .unimplemented P
  | true, true => miscAlu11 h P

/-- `decompress_q1(h)`, total on all 16-bit words; it does not read `h[1:0]` (R130). -/
def decompressQ1 (h : Half) (P : Config.Params := Config.r6) : BlockResult :=
  match h.getLsbD 15, h.getLsbD 14, h.getLsbD 13 with
  | false, false, false => .err .unimplemented P
  | false, false, true => .err .unimplemented P
  | false, true, false =>
    if rdField h = 0#5 then .err P.rd0Class P
    else .ok (buildAddi (rdField h) P.zeroReg (liImm (ciRaw h)))
  | false, true, true => .err .unimplemented P
  | true, false, false => miscAlu h P
  | true, false, true => .err .unimplemented P
  | true, true, false => .err .unimplemented P
  | true, true, true => .err .unimplemented P

/-- `q1.000`: `Err(Unimplemented)` (R131). -/
def execQ1c000 (_unread : BitVec 11) (s : State) : Result := answerErr .unimplemented s

/-- `q1.001`: `Err(Unimplemented)` (R132). -/
def execQ1c001 (_unread : BitVec 11) (s : State) : Result := answerErr .unimplemented s

/-- `C.LI rd, imm`: `Ok(build_addi(rd, ZERO_REG, sext_12(raw)))` (R133). -/
def execCLi (rd : RegId) (raw : BitVec 6) (s : State) : Result :=
  answerOk (buildAddi rd Config.r6.zeroReg (liImm raw)) s

/-- `C.LI` with `rd == 0`: `Err(Reserved)`, the immediate is not examined (R134). -/
def execCLiRd0 (_raw : BitVec 6) (s : State) : Result := answerErr Config.r6.rd0Class s

/-- `q1.011`: `Err(Unimplemented)` (R135). -/
def execQ1c011 (_unread : BitVec 11) (s : State) : Result := answerErr .unimplemented s

/-- `q1.100.00` MISC-ALU: `Err(Unimplemented)` (R137). -/
def execMiscAlu00 (_hi : BitVec 1) (_lo : BitVec 8) (s : State) : Result := answerErr .unimplemented s

/-- `q1.100.01` MISC-ALU: `Err(Unimplemented)` (R138). -/
def execMiscAlu01 (_hi : BitVec 1) (_lo : BitVec 8) (s : State) : Result := answerErr .unimplemented s

/-- `q1.100.10` MISC-ALU: `Err(Unimplemented)` (R139). -/
def execMiscAlu10 (_hi : BitVec 1) (_lo : BitVec 8) (s : State) : Result := answerErr .unimplemented s

/-- `C.SUB rd', rs2'`: `Ok(build_sub(r, r, r2))` with both fields offset by 8 (R141). -/
def execCSub (rdP rs2P : CReg) (s : State) : Result :=
  answerOk (buildSub (expandCReg rdP) (expandCReg rdP) (expandCReg rs2P)) s

/-- `q1.100.11.(0,01)`: `Err(Unimplemented)` (R144, R140). -/
def execMisc11s001 (_hi : BitVec 3) (_lo : BitVec 3) (s : State) : Result := answerErr Config.r6.miscOtherClass s

/-- `q1.100.11.(0,10)`: `Err(Unimplemented)` (R145, R140). -/
def execMisc11s010 (_hi : BitVec 3) (_lo : BitVec 3) (s : State) : Result := answerErr Config.r6.miscOtherClass s

/-- `q1.100.11.(0,11)`: `Err(Unimplemented)` (R146, R140). -/
def execMisc11s011 (_hi : BitVec 3) (_lo : BitVec 3) (s : State) : Result := answerErr Config.r6.miscOtherClass s

/-- `q1.100.11.(1,00)`: `Err(Unimplemented)` (R147, R140). -/
def execMisc11s100 (_hi : BitVec 3) (_lo : BitVec 3) (s : State) : Result := answerErr Config.r6.miscOtherClass s

/-- `q1.100.11.(1,01)`: `Err(Unimplemented)` (R148, R140). -/
def execMisc11s101 (_hi : BitVec 3) (_lo : BitVec 3) (s : State) : Result := answerErr Config.r6.miscOtherClass s

/-- `q1.100.11.(1,10)`: `Err(Reserved)` (R142). -/
def execMisc11s110 (_hi : BitVec 3) (_lo : BitVec 3) (s : State) : Result := answerErr .reserved s

/-- `q1.100.11.(1,11)`: `Err(Reserved)` (R143). -/
def execMisc11s111 (_hi : BitVec 3) (_lo : BitVec 3) (s : State) : Result := answerErr .reserved s

/-- `q1.101`: `Err(Unimplemented)`; no target is computed (R149). -/
def execQ1c101 (_unread : BitVec 11) (s : State) : Result := answerErr .unimplemented s

/-- `q1.110`: `Err(Unimplemented)`; no target is computed (R150). -/
def execQ1c110 (_unread : BitVec 11) (s : State) : Result := answerErr .unimplemented s

/-- `q1.111`: `Err(Unimplemented)`; no target is computed (R151). -/
def execQ1c111 (_unread : BitVec 11) (s : State) : Result := answerErr .unimplemented s

end Sys2Proof.Machine
end

