-- ==== Sys2Proof/Machine/Quadrant2.lean ====
section
/-! DEFINITION. Quadrant 2: the decoder `decompress_q2` as the spec writes it (R160), and the meaning of each of its classes
(R161 to R169). -/

namespace Sys2Proof.Machine

/-- `decompress_q2(h)`, total on all 16-bit words; it does not read `h[1:0]` (R160). -/
def decompressQ2 (h : Half) (P : Config.Params := Config.r6) : BlockResult :=
  match h.getLsbD 15, h.getLsbD 14, h.getLsbD 13 with
  | false, false, false => .err .unimplemented P
  | false, false, true => .err .unimplemented P
  | false, true, false =>
    if rdField h = 0#5 then .err P.rd0Class P else .ok (buildLw (rdField h) (lwspImm (ciRaw h)) P)
  | false, true, true => .err .unimplemented P
  | true, false, false => .err .unimplemented P
  | true, false, true => .err .unimplemented P
  | true, true, false => .err .unimplemented P
  | true, true, true => .err .unimplemented P

/-- `q2.000`: `Err(Unimplemented)` (R161). -/
def execQ2c000 (_unread : BitVec 11) (s : State) : Result := answerErr .unimplemented s

/-- `q2.001`: `Err(Unimplemented)` (R162). -/
def execQ2c001 (_unread : BitVec 11) (s : State) : Result := answerErr .unimplemented s

/-- `C.LWSP rd, offset(sp)`: `Ok(build_lw(rd, zext_12(scatter_16(raw, LWSP_PERM))))`; no load is performed (R163). -/
def execCLwsp (rd : RegId) (raw : BitVec 6) (s : State) : Result :=
  answerOk (buildLw rd (lwspImm raw)) s

/-- `C.LWSP` with `rd == 0`: `Err(Reserved)`, the immediate is not examined (R164). -/
def execCLwspRd0 (_raw : BitVec 6) (s : State) : Result := answerErr Config.r6.rd0Class s

/-- `q2.011`: `Err(Unimplemented)` (R165). -/
def execQ2c011 (_unread : BitVec 11) (s : State) : Result := answerErr .unimplemented s

/-- `q2.100`: `Err(Unimplemented)` (R166). -/
def execQ2c100 (_unread : BitVec 11) (s : State) : Result := answerErr .unimplemented s

/-- `q2.101`: `Err(Unimplemented)` (R167). -/
def execQ2c101 (_unread : BitVec 11) (s : State) : Result := answerErr .unimplemented s

/-- `q2.110`: `Err(Unimplemented)` (R168). -/
def execQ2c110 (_unread : BitVec 11) (s : State) : Result := answerErr .unimplemented s

/-- `q2.111`: `Err(Unimplemented)` (R169). -/
def execQ2c111 (_unread : BitVec 11) (s : State) : Result := answerErr .unimplemented s

end Sys2Proof.Machine
end

