-- ==== Sys2Proof/Machine/TopLevel.lean ====
section
/-! DEFINITION. The top-level dispatcher (R180 to R184), the meanings of the 4-byte instructions (R181, R195), and the external
`decode` as far as the spec states it (R185, R200). -/

namespace Sys2Proof.Machine

/-- `decompress(h)`, the function of the whole block (R180). -/
def decompress (h : Half) (P : Config.Params := Config.r6) : BlockResult :=
  match quadrantOf h with
  | .q0 => decompressQ0 h P
  | .q1 => decompressQ1 h P
  | .q2 => decompressQ2 h P
  | .q3 => .notCompressed P

/-! ## Meanings of the 4-byte instructions: the spec gives their execution no meaning (R5), the walk hands them on (log 14) -/

/-- Quadrant 3: the block answers `NOT_COMPRESSED`, the walk hands the whole word on (R181, R195). -/
def execNotCompressed (full : Word) (s : State) : Result := answerFull full s

/-- `ADDI rd, rs1, imm` in the code buffer: the word of R109 is handed on (R195). -/
def execAddi (rd rs1 : RegId) (imm : BitVec 12) (s : State) : Result := answerFull (buildAddi rd rs1 imm) s

/-- `LW rd, imm(sp)` in the code buffer: the word of R110 is handed on (R195). -/
def execLw (rd : RegId) (imm : BitVec 12) (s : State) : Result := answerFull (buildLw rd imm) s

/-- `SUB rd, rs1, rs2` in the code buffer: the word of R107 is handed on (R195). -/
def execSub (rd rs1 rs2 : RegId) (s : State) : Result := answerFull (buildSub rd rs1 rs2) s

/-! ## Shapes of emitted words (R184) -/

/-- A word of the shape `C.LI` emits (R184). -/
def shapeLi (w : Word) : Bool :=
  fitsAddi w && rs1Of w == Config.r6.zeroReg && rdOf w != 0#5 && w.extractLsb' 25 7 == (w.extractLsb' 25 1).signExtend 7

/-- A word of the shape the MISC-ALU `SUB` case emits (R184). -/
def shapeSub (w : Word) : Bool :=
  fitsSub w && w.extractLsb' 23 2 == 0b01#2 && w.extractLsb' 18 2 == 0b01#2 && w.extractLsb' 10 2 == 0b01#2
    && rs1Of w == rdOf w

/-- A word of the shape `C.LWSP` emits (R184). -/
def shapeLwsp (w : Word) : Bool :=
  fitsLw w && w.extractLsb' 28 4 == 0b0000#4 && w.extractLsb' 20 2 == 0b00#2 && rdOf w != 0#5

/-- A word of one of the three emitted shapes (R184). -/
def emittedShape (w : Word) : Bool := shapeLi w || shapeSub w || shapeLwsp w

/-! ## The external `decode` (R200) -/

/-- `decode` on a full-width word: it decodes every word the block emits; on any other word whether it fails, and how, is
the free value of the configuration (log 7). -/
def decodeFullWidth (w : Word) : Except DecodingError Instruction :=
  if emittedShape w then .ok ⟨w⟩
  else
    match Config.externalDecodeError w with
    | none => .ok ⟨w⟩
    | some e => .error e

/-- A word that `decode` routes through the quadrant decoders: the zero extension of a 16-bit word that is not of
quadrant 3 (R43, R185; log 8). -/
def isHalfOrigin (w : Word) : Bool :=
  w.extractLsb' 16 16 == 0#16 && quadrantOf (w.setWidth 16) != .q3

/-- What `decode` makes of a block result `NOT_COMPRESSED`: a free value, the model's choice for what the spec leaves open (R185,
N12; log 21). No word the block answered is used, as R263 asks of a consumer. -/
def decodeNotCompressed : Except DecodingError Instruction :=
  match Config.externalNotCompressed.1 with
  | none => .ok ⟨Config.externalNotCompressed.2⟩
  | some e => .error e

/-- `decode(u32)`: for a 16-bit-origin word `decode(word_o)` if the status is OK, else the error of the status (R185, R195). A
16-bit-origin word is never `NOT_COMPRESSED` here, by the test of log 8; that arm is log 21. -/
def decode (w : Word) : Except DecodingError Instruction :=
  if isHalfOrigin w then
    match (decompress (w.setWidth 16)).read with
    | some (.ok w') => decodeFullWidth w'
    | some (.error e) => .error e
    | none => decodeNotCompressed
  else decodeFullWidth w

/-- What `InstructionIter` yields for an item: `Ok(Instruction)` or `Err(DecodingError)` (R194, R195). A step of the machine yields no
block item `NOT_COMPRESSED`; what it would be decoded to is left open (log 21). -/
def Item.decoded : Item → Except DecodingError Instruction
  | .block r =>
    match r.read with
    | some (.ok w) => decodeFullWidth w
    | some (.error e) => .error e
    | none => decodeNotCompressed
  | .full w => decode w

/-- How many bytes an item's instruction occupied (R195). -/
def Item.byteLength : Item → Nat
  | .block _ => 2
  | .full _ => 4

/-! ## The walk as a function of the parameters (R6) -/

/-- `InstructionIter.next()` of a build with parameters `P` and a length classifier: the block's result where the classifier says 2,
the whole word where it says 4 (R195). The fetched word is presented in both cases (log 3), and the outputs follow it (R21): they are
the block's function of it whatever length the classifier gives. The machine's step is the build with the values of R6 and the
classifier of R191 (log 13). -/
def instructionNextOf (P : Config.Params) (classifier : Half → Nat) (s : State) : Result :=
  match fetchAt classifier s.ins.buffer s.ins.cursor with
  | .error f => .fault f
  | .ok none => .next s.endInstructions
  | .ok (some (h, b0 :: b1 :: b2 :: b3 :: _)) =>
    .next (((s.setInstrI h).setOutputs (decompress h P)).yieldItem (.full (wordOfBytes b0 b1 b2 b3)) 4)
  | .ok (some (h, _)) => .next ((s.setInstrI h).answer (decompress h P))

end Sys2Proof.Machine
end

