-- ==== Sys2Proof/Machine/Loader.lean ====
section
/-! DEFINITION. The ELF64 RISC-U loader (R201 to R210), environment, on files in parsed form (log 9). -/

namespace Sys2Proof.Machine

/-- The loadable segments (R202). -/
def ElfImage.loadable (img : ElfImage) : List ProgramHeader := img.headers.filter (·.ptLoad)

/-- "execute-only (not readable, not writable, executable)" (R202). -/
def ProgramHeader.isCode (p : ProgramHeader) : Bool := !p.readable && !p.writable && p.executable

/-- "read-write, not executable" (R202). -/
def ProgramHeader.isData (p : ProgramHeader) : Bool := p.readable && p.writable && !p.executable

/-- The segment of a list that holds exactly one: the spec's "exactly one" (R202). -/
def onlyOne : List ProgramHeader → Option ProgramHeader
  | [] => none
  | [p] => some p
  | _ :: _ :: _ => none

/-- The four constraints, in order; the first failing one is reported (R202, R203). -/
def ElfImage.load (img : ElfImage) : Except LoaderError RiscuProgram :=
  if !(img.is64 && img.littleEndian && !img.library) then .error (.shape .imageKind)
  else if img.loadable.length ≠ 2 then .error (.shape .twoSegments)
  else
    match onlyOne (img.loadable.filter (·.isCode)) with
    | none => .error (.shape .codeSegment)
    | some code =>
      match onlyOne (img.loadable.filter (·.isData)) with
      | none => .error (.shape .dataSegment)
      | some data => .ok ⟨code.bytes, data.bytes, img.entry⟩

/-- `load_object_file` (R201, R204, R209). -/
def loadObjectFile : ElfFile → Except LoaderError RiscuProgram
  | .unreadable => .error .fileIo
  | .unparsable => .error .elfParse
  | .image img => img.load

/-- "every 4-byte chunk of the code segment through the external 32-bit `decode`", the first error ending it (R205, R208);
bytes that do not fill a chunk are ruled out before (R206). A chunk is read little-endian: DESIGN CHOICE, the spec gives no byte order
for it (log 22). -/
def decodeChunks : List Byte → Except DecodingError (List Instruction)
  | b0 :: b1 :: b2 :: b3 :: rest =>
    match decode (wordOfBytes b0 b1 b2 b3) with
    | .error e => .error e
    | .ok i =>
      match decodeChunks rest with
      | .error e => .error e
      | .ok is => .ok (i :: is)
  | _ => .ok []

/-- "every 8-byte chunk of the data segment into 64-bit little-endian words" (R44, R205); bytes that do not fill a chunk are
ruled out before (R207). -/
def dataWords : List Byte → List Addr
  | b0 :: b1 :: b2 :: b3 :: b4 :: b5 :: b6 :: b7 :: rest =>
    (b7 ++ b6 ++ b5 ++ b4 ++ b3 ++ b2 ++ b1 ++ b0 : BitVec 64) :: dataWords rest
  | _ => []

/-- The decoding half of `load_and_decode_object_file`: the two length checks, then the code words, then the data words
(R205 to R208; the order of the checks is log 10). -/
def decodeProgram (p : RiscuProgram) : Host.Outcome (Except LoaderError DecodedRiscuProgram) Fault Refusal :=
  if p.codeSegment.length % 4 ≠ 0 then .fault .codeSegmentLength
  else if p.dataSegment.length % 8 ≠ 0 then .refused .dataSegmentLength
  else
    match decodeChunks p.codeSegment with
    | .error e => .next (.error (.decoding e))
    | .ok is => .next (.ok ⟨is, dataWords p.dataSegment, p.entryAddress⟩)

/-- `load_and_decode_object_file` (R205). -/
def loadAndDecodeObjectFile (f : ElfFile) : Host.Outcome (Except LoaderError DecodedRiscuProgram) Fault Refusal :=
  match loadObjectFile f with
  | .error e => .next (.error e)
  | .ok p => decodeProgram p

end Sys2Proof.Machine
end

