-- ==== Sys2Proof/Machine/Calls.lean ====
section
/-! DEFINITION. The caller's calls other than the next instruction: `LocationIter.next()` (R193), presenting a word to the block
(R180), making iterators (R192) and the two loaders (R201, R205). -/

namespace Sys2Proof.Machine

/-- `LocationIter.next()` of a build with a given length classifier (OPEN, D17): it reads two bytes only and does not call the block
(R193); a length other than 2 or 4 is a defect (R198). -/
def locationNextOf (classifier : Half → Nat) (s : State) : Result :=
  match classifyAt classifier s.loc.buffer s.loc.cursor with
  | .error f => .fault f
  | .ok none => .next s.endLocations
  | .ok (some (_, n)) => .next (s.yieldLocation n)

/-- `LocationIter.next()` with the classifier of R191. -/
def locationNext (s : State) : Result := locationNextOf instructionLength s

/-- Hold `h` on `instr_i`: both outputs follow (R21, R180). -/
def presentWord (h : Half) (s : State) : Result := .next ((s.setInstrI h).setOutputs (decompress h))

/-- `InstructionIter::new(buffer)`: cursor 0, nothing yielded (R192, R199). -/
def newInstructionIter (bytes : List Byte) (s : State) : Result :=
  .next { s with ins := ⟨Memory.ofBytes bytes, 0⟩, insItems := [], insEnded := false }

/-- `LocationIter::new(buffer, base_address)`: cursor 0, nothing yielded (R192, R199). -/
def newLocationIter (bytes : List Byte) (base : Addr) (s : State) : Result :=
  .next { s with loc := ⟨Memory.ofBytes bytes, base, 0⟩, locItems := [], locEnded := false }

/-- `load_object_file`: its result, success or a recoverable error, goes to the caller (R201, R209). -/
def callLoadObjectFile (f : ElfFile) (s : State) : Result := .next { s with program := some (loadObjectFile f) }

/-- `load_and_decode_object_file`: as above, but for the defect and the refusal (R205 to R209). The words it gives to `decode` do not
show on the block's ports: DESIGN CHOICE, the spec is silent (log 20). -/
def callLoadAndDecode (f : ElfFile) (s : State) : Result :=
  match loadAndDecodeObjectFile f with
  | .next r => .next { s with decodedProgram := some r }
  | .fault x => .fault x
  | .refused x => .refused x

/-- Serve one call. -/
def serve (c : HostCall) (s : State) : Result :=
  match c with
  | .nextLocation => locationNext s
  | .present h => presentWord h s
  | .newInstructionIter bytes => newInstructionIter bytes s
  | .newLocationIter bytes base => newLocationIter bytes base s
  | .loadObjectFile f => callLoadObjectFile f s
  | .loadAndDecodeObjectFile f => callLoadAndDecode f s

end Sys2Proof.Machine
end

