-- ==== Sys2Proof/Machine/Dispatch.lean ====
section
/-! DEFINITION. The one dispatch from an instruction to its meaning. -/

namespace Sys2Proof.Machine

def exec (i : Instr) (s : State) : Host.Outcome State Fault Refusal :=
  match i with
  | .q0c000 unread => Sys2Proof.Machine.execQ0c000 unread s
  | .q0c001Fld unread => Sys2Proof.Machine.execQ0c001Fld unread s
  | .q0c010Lw unread => Sys2Proof.Machine.execQ0c010Lw unread s
  | .q0c011Ld unread => Sys2Proof.Machine.execQ0c011Ld unread s
  | .q0c100 unread => Sys2Proof.Machine.execQ0c100 unread s
  | .q0c101Fsd unread => Sys2Proof.Machine.execQ0c101Fsd unread s
  | .q0c110Sw unread => Sys2Proof.Machine.execQ0c110Sw unread s
  | .q0c111Sd unread => Sys2Proof.Machine.execQ0c111Sd unread s
  | .q1c000 unread => Sys2Proof.Machine.execQ1c000 unread s
  | .q1c001 unread => Sys2Proof.Machine.execQ1c001 unread s
  | .cLi rd raw => Sys2Proof.Machine.execCLi rd raw s
  | .cLiRd0 raw => Sys2Proof.Machine.execCLiRd0 raw s
  | .q1c011 unread => Sys2Proof.Machine.execQ1c011 unread s
  | .miscAlu00 hi lo => Sys2Proof.Machine.execMiscAlu00 hi lo s
  | .miscAlu01 hi lo => Sys2Proof.Machine.execMiscAlu01 hi lo s
  | .miscAlu10 hi lo => Sys2Proof.Machine.execMiscAlu10 hi lo s
  | .cSub rdP rs2P => Sys2Proof.Machine.execCSub rdP rs2P s
  | .misc11s001 hi lo => Sys2Proof.Machine.execMisc11s001 hi lo s
  | .misc11s010 hi lo => Sys2Proof.Machine.execMisc11s010 hi lo s
  | .misc11s011 hi lo => Sys2Proof.Machine.execMisc11s011 hi lo s
  | .misc11s100 hi lo => Sys2Proof.Machine.execMisc11s100 hi lo s
  | .misc11s101 hi lo => Sys2Proof.Machine.execMisc11s101 hi lo s
  | .misc11s110 hi lo => Sys2Proof.Machine.execMisc11s110 hi lo s
  | .misc11s111 hi lo => Sys2Proof.Machine.execMisc11s111 hi lo s
  | .q1c101 unread => Sys2Proof.Machine.execQ1c101 unread s
  | .q1c110 unread => Sys2Proof.Machine.execQ1c110 unread s
  | .q1c111 unread => Sys2Proof.Machine.execQ1c111 unread s
  | .q2c000 unread => Sys2Proof.Machine.execQ2c000 unread s
  | .q2c001 unread => Sys2Proof.Machine.execQ2c001 unread s
  | .cLwsp rd raw => Sys2Proof.Machine.execCLwsp rd raw s
  | .cLwspRd0 raw => Sys2Proof.Machine.execCLwspRd0 raw s
  | .q2c011 unread => Sys2Proof.Machine.execQ2c011 unread s
  | .q2c100 unread => Sys2Proof.Machine.execQ2c100 unread s
  | .q2c101 unread => Sys2Proof.Machine.execQ2c101 unread s
  | .q2c110 unread => Sys2Proof.Machine.execQ2c110 unread s
  | .q2c111 unread => Sys2Proof.Machine.execQ2c111 unread s
  | .notCompressed full => Sys2Proof.Machine.execNotCompressed full s
  | .addi rd rs1 imm => Sys2Proof.Machine.execAddi rd rs1 imm s
  | .lw rd imm => Sys2Proof.Machine.execLw rd imm s
  | .sub rd rs1 rs2 => Sys2Proof.Machine.execSub rd rs1 rs2 s

end Sys2Proof.Machine
end

