-- ==== Sys2Proof/Machine/Step.lean ====
section
/-! DEFINITION. One step: the next call in the queue, or, when nothing is queued, the next value of `InstructionIter` (logs 1, 5). -/

namespace Sys2Proof.Machine

/-- `InstructionIter.next()`: the end of the sequence, a defect, or the fetched word presented to the block and the
instruction's meaning (R195; log 3). -/
def instructionNext (s : State) : Host.Outcome State Fault Refusal :=
  match fetchAt instructionLength s.ins.buffer s.ins.cursor with
  | .error f => .fault f
  | .ok none => .next s.endInstructions
  | .ok (some (h, bytes)) =>
    match decodeBytes bytes with
    | .ok (i, _) => exec i (s.setInstrI h)
    | .error _ => .fault .truncated

/-- One step of the machine. -/
def step (s : State) : Host.Outcome State Fault Refusal :=
  match s.requests with
  | [] => instructionNext s
  | .nextInstruction :: rest => instructionNext { s with requests := rest }
  | .call c :: rest => serve c { s with requests := rest }

/-- `s` with an instruction's bytes, up to four, at `InstructionIter`'s cursor and nothing queued before it: the load of a
program from outside (log 4). -/
def State.withFetchWord (s : State) (nbits w : Nat) : State :=
  { s with
    ins := { s.ins with
      buffer := s.ins.buffer.writeBytes s.ins.cursor (bytesOfWord 4 (BitVec.ofNat 32 (w % 2 ^ nbits))) }
    requests := [] }

end Sys2Proof.Machine
end

