-- ==== Sys2Proof/Safety.lean ====
section
/-! DEFINITION. What counts as a good state and as a safe run, and when a state asks for the next instruction. -/

namespace Sys2Proof.Machine

/-- The outputs are the function of `instr_i` that R21 and R180 make them. -/
def State.OutputsFollowInput (s : State) : Prop :=
  (⟨s.statusO, s.wordO⟩ : BlockResult) = decompress s.instrI

/-- A block result the spec allows: an OK word has an emitted shape (R184), any other result carries `ERR_WORD` (R182). -/
def BlockResult.Allowed (r : BlockResult) : Prop :=
  (r.status = .ok → emittedShape r.word = true) ∧ (r.status ≠ .ok → r.word = Config.r6.errWord)

/-- An item the spec allows: the block is asked for 2-byte instructions only, so its item is never `NOT_COMPRESSED` (R10,
R195); a full word is of quadrant 3 (R60). -/
def Item.Allowed : Item → Prop
  | .block r => BlockResult.Allowed r ∧ r.status ≠ .notCompressed
  | .full w => quadrantOf (w.setWidth 16) = .q3

/-- The walk of `InstructionIter` is accounted for: a canonical buffer, an even cursor inside it (R45, R47) that is the sum of the
lengths of the items yielded (R199), allowed items, and an answer `None` only at the end (R196). -/
structure State.InstructionWalk (s : State) : Prop where
  buffer : s.ins.buffer.wf
  bounded : s.ins.cursor ≤ s.ins.buffer.size
  even : s.ins.cursor % 2 = 0
  contiguous : s.ins.cursor = (s.insItems.map Item.byteLength).sum
  items : ∀ it ∈ s.insItems, it.Allowed
  ended : s.insEnded = true → s.ins.cursor = s.ins.buffer.size

/-- The walk of `LocationIter`: as above, but it may pass the end by two, since it reads two bytes only (R193, program P4). -/
structure State.LocationWalk (s : State) : Prop where
  buffer : s.loc.buffer.wf
  bounded : s.loc.cursor ≤ s.loc.buffer.size + 2
  even : s.loc.cursor % 2 = 0
  atLeast : 2 * s.locItems.length ≤ s.loc.cursor
  atMost : s.loc.cursor ≤ 4 * s.locItems.length
  ended : s.locEnded = true → s.loc.buffer.size ≤ s.loc.cursor

/-- The invariant of the machine. -/
structure State.Inv (s : State) : Prop where
  outputs : s.OutputsFollowInput
  instructions : s.InstructionWalk
  locations : s.LocationWalk

/-- The next step asks for the next instruction, and leaves `rest` queued: nothing is queued, or that request is at the head. -/
def State.AsksNext (s : State) (rest : List Request) : Prop :=
  (s.requests = [] ∧ rest = []) ∨ s.requests = .nextInstruction :: rest

/-- A run of `n` steps from `s` meets no fault and no refusal. -/
def State.SafeFor (s : State) (n : Nat) : Prop := ∃ t, Host.Core.run core n s = .next t

end Sys2Proof.Machine
end

