-- ==== Sys2Proof/Certificates/Slice0/Obligations.lean ====
section
/-! DEFINITION. The statements for the provers, from the numbered rules of the spec. A statement about every state holds in states no
run reaches too; where it needs a good state, it says so by `State.Inv`, which `StepKeepsInvariant` and `ResetMeetsInvariant` are about. -/

namespace Sys2Proof.Machine

/-- The state after a 2-byte instruction for which the block answers `(st, w)`: ports, item and cursor change, nothing else. -/
def State.afterBlock (s : State) (st : Status) (w : Word) : State :=
  { s with
    statusO := st
    wordO := w
    ins := { s.ins with cursor := s.ins.cursor + 2 }
    insItems := s.insItems ++ [.block ⟨st, w⟩] }

/-- The state after a 4-byte instruction whose word is `w`: ports, item and cursor change, nothing else. -/
def State.afterFull (s : State) (w : Word) : State :=
  { s with
    statusO := .notCompressed
    wordO := 0#32
    ins := { s.ins with cursor := s.ins.cursor + 4 }
    insItems := s.insItems ++ [.full w] }

/-- A decoder, and the whole block, give status `st` and the zero word for every word `h` with `h & mask == pattern`. -/
def ClassGives (decoder : Half → BlockResult) (mask pattern : Half) (st : Status) : Prop :=
  ∀ h : Half, h &&& mask = pattern → decoder h = ⟨st, 0#32⟩ ∧ decompress h = ⟨st, 0#32⟩

/-- The two bytes of a 16-bit word, as the buffer holds them (R42). -/
def bytesOfHalf (h : Half) : List Byte := [h.extractLsb' 0 8, h.extractLsb' 8 8]

/-- How many of the 65536 words have a status. -/
def countStatus (st : Status) : Nat :=
  (List.range 65536).countP (fun n => (decompress (BitVec.ofNat 16 n)).status == st)

end Sys2Proof.Machine

open Sys2Proof Sys2Proof.Machine

/-! ## The expanded instructions -/

/-- R133: `C.LI rd, imm` with `rd != 0` gives `ADDI rd, x0, sext_12({h[12], h[6:2]})`, as a meaning and as the block's function. That the
sign extension is done here is the spec's own decision D9, the number of the zero register its decision D12 (log 11). -/
def Obligations.CLiExpandsToAddi : Prop :=
  (∀ (s : State) (rd : RegId) (raw : BitVec 6), rd ≠ 0#5 →
    exec (.cLi rd raw) s =
      .next (s.afterBlock .ok (raw.signExtend 12 ++ 0b00000#5 ++ 0b000#3 ++ rd ++ 0b0010011#7 : BitVec 32))) ∧
  ∀ h : Half, h &&& 0xE003#16 = 0x4001#16 → h.extractLsb' 7 5 ≠ 0#5 →
    decodeBytes (bytesOfHalf h) = .ok (.cLi (h.extractLsb' 7 5) (h.extractLsb' 12 1 ++ h.extractLsb' 2 5 : BitVec 6), []) ∧
    decompressQ1 h = decompress h ∧
    decompress h = ⟨.ok, ((h.extractLsb' 12 1 ++ h.extractLsb' 2 5 : BitVec 6).signExtend 12
      ++ 0b00000#5 ++ 0b000#3 ++ h.extractLsb' 7 5 ++ 0b0010011#7 : BitVec 32)⟩

/-- R141: `C.SUB` gives `SUB r, r, r2` with `r = {01, h[9:7]}` and `r2 = {01, h[4:2]}`, for all 64 operand pairs. `SUB`'s funct7, funct3
and opcode are general knowledge in the spec itself (R107, its decision D13; log 12). -/
def Obligations.CSubExpandsToSub : Prop :=
  (∀ (s : State) (rdP rs2P : CReg),
    exec (.cSub rdP rs2P) s =
      .next (s.afterBlock .ok (0b0100000#7 ++ (0b01#2 ++ rs2P : BitVec 5) ++ (0b01#2 ++ rdP : BitVec 5) ++ 0b000#3
        ++ (0b01#2 ++ rdP : BitVec 5) ++ 0b0110011#7 : BitVec 32))) ∧
  ∀ h : Half, h &&& 0xFC63#16 = 0x8C01#16 →
    decodeBytes (bytesOfHalf h) = .ok (.cSub (h.extractLsb' 7 3) (h.extractLsb' 2 3), []) ∧
    decompressQ1 h = decompress h ∧
    decompress h = ⟨.ok, (0b0100000#7 ++ (0b01#2 ++ h.extractLsb' 2 3 : BitVec 5) ++ (0b01#2 ++ h.extractLsb' 7 3 : BitVec 5)
      ++ 0b000#3 ++ (0b01#2 ++ h.extractLsb' 7 3 : BitVec 5) ++ 0b0110011#7 : BitVec 32)⟩

/-- R163: `C.LWSP rd, offset(sp)` with `rd != 0` gives `LW rd, off(x2)`, `off = {h[3], h[2], h[12], h[6], h[5], h[4], 00}`. That the
offset is zero-extended is the spec's own decision D10, the number of `sp` its decision D12 (log 11). -/
def Obligations.CLwspExpandsToLw : Prop :=
  (∀ (s : State) (rd : RegId) (raw : BitVec 6), rd ≠ 0#5 →
    exec (.cLwsp rd raw) s =
      .next (s.afterBlock .ok (0b0000#4 ++ raw.extractLsb' 0 2 ++ raw.extractLsb' 2 4 ++ 0b00#2 ++ 0b00010#5 ++ 0b010#3 ++ rd
        ++ 0b0000011#7 : BitVec 32))) ∧
  ∀ h : Half, h &&& 0xE003#16 = 0x4002#16 → h.extractLsb' 7 5 ≠ 0#5 →
    decodeBytes (bytesOfHalf h) = .ok (.cLwsp (h.extractLsb' 7 5) (h.extractLsb' 12 1 ++ h.extractLsb' 2 5 : BitVec 6), []) ∧
    decompressQ2 h = decompress h ∧
    decompress h = ⟨.ok, (0b0000#4 ++ h.extractLsb' 3 1 ++ h.extractLsb' 2 1 ++ h.extractLsb' 12 1 ++ h.extractLsb' 6 1
      ++ h.extractLsb' 5 1 ++ h.extractLsb' 4 1 ++ 0b00#2 ++ 0b00010#5 ++ 0b010#3 ++ h.extractLsb' 7 5 ++ 0b0000011#7
      : BitVec 32)⟩

/-! ## The classified words

`Err(…)` is the class with the word output `ERR_WORD` (R9), whose value zero is the spec's own decision D4, fixed by log 13. -/

/-- R116, R120: quadrant 0, `000` is `Illegal` and `100` is `Reserved`, whatever the other bits. -/
def Obligations.Quadrant0IllegalAndReserved : Prop :=
  (∀ (s : State) (x : BitVec 11), exec (.q0c000 x) s = .next (s.afterBlock .illegal 0#32)) ∧
  (∀ (s : State) (x : BitVec 11), exec (.q0c100 x) s = .next (s.afterBlock .reserved 0#32)) ∧
  ClassGives (decompressQ0 ·) 0xE003#16 0x0000#16 .illegal ∧ ClassGives (decompressQ0 ·) 0xE003#16 0x8000#16 .reserved

/-- R117 to R119, R121 to R123: the six other classes of quadrant 0 are `Unimplemented`. -/
def Obligations.Quadrant0Unimplemented : Prop :=
  (∀ (s : State) (x : BitVec 11),
    exec (.q0c001Fld x) s = .next (s.afterBlock .unimplemented 0#32) ∧
    exec (.q0c010Lw x) s = .next (s.afterBlock .unimplemented 0#32) ∧
    exec (.q0c011Ld x) s = .next (s.afterBlock .unimplemented 0#32) ∧
    exec (.q0c101Fsd x) s = .next (s.afterBlock .unimplemented 0#32) ∧
    exec (.q0c110Sw x) s = .next (s.afterBlock .unimplemented 0#32) ∧
    exec (.q0c111Sd x) s = .next (s.afterBlock .unimplemented 0#32)) ∧
  ClassGives (decompressQ0 ·) 0xE003#16 0x2000#16 .unimplemented ∧
  ClassGives (decompressQ0 ·) 0xE003#16 0x4000#16 .unimplemented ∧
  ClassGives (decompressQ0 ·) 0xE003#16 0x6000#16 .unimplemented ∧
  ClassGives (decompressQ0 ·) 0xE003#16 0xA000#16 .unimplemented ∧
  ClassGives (decompressQ0 ·) 0xE003#16 0xC000#16 .unimplemented ∧
  ClassGives (decompressQ0 ·) 0xE003#16 0xE000#16 .unimplemented

/-- R131, R132, R135, R149 to R151: the classes of quadrant 1 other than `C.LI` and MISC-ALU are `Unimplemented`. -/
def Obligations.Quadrant1TopLevelUnimplemented : Prop :=
  (∀ (s : State) (x : BitVec 11),
    exec (.q1c000 x) s = .next (s.afterBlock .unimplemented 0#32) ∧
    exec (.q1c001 x) s = .next (s.afterBlock .unimplemented 0#32) ∧
    exec (.q1c011 x) s = .next (s.afterBlock .unimplemented 0#32) ∧
    exec (.q1c101 x) s = .next (s.afterBlock .unimplemented 0#32) ∧
    exec (.q1c110 x) s = .next (s.afterBlock .unimplemented 0#32) ∧
    exec (.q1c111 x) s = .next (s.afterBlock .unimplemented 0#32)) ∧
  ClassGives (decompressQ1 ·) 0xE003#16 0x0001#16 .unimplemented ∧
  ClassGives (decompressQ1 ·) 0xE003#16 0x2001#16 .unimplemented ∧
  ClassGives (decompressQ1 ·) 0xE003#16 0x6001#16 .unimplemented ∧
  ClassGives (decompressQ1 ·) 0xE003#16 0xA001#16 .unimplemented ∧
  ClassGives (decompressQ1 ·) 0xE003#16 0xC001#16 .unimplemented ∧
  ClassGives (decompressQ1 ·) 0xE003#16 0xE001#16 .unimplemented

/-- R137 to R139, R144 to R148: the MISC-ALU classes that are not expanded and not reserved are `Unimplemented`. For the five of R144
to R148 that is a choice: the spec's decision D6, OPEN as `MISC_OTHER_CLASS`, which log 13 fixes at the value of R6. -/
def Obligations.MiscAluUnimplemented : Prop :=
  (∀ (s : State) (hi : BitVec 1) (lo : BitVec 8),
    exec (.miscAlu00 hi lo) s = .next (s.afterBlock .unimplemented 0#32) ∧
    exec (.miscAlu01 hi lo) s = .next (s.afterBlock .unimplemented 0#32) ∧
    exec (.miscAlu10 hi lo) s = .next (s.afterBlock .unimplemented 0#32)) ∧
  (∀ (s : State) (hi lo : BitVec 3),
    exec (.misc11s001 hi lo) s = .next (s.afterBlock .unimplemented 0#32) ∧
    exec (.misc11s010 hi lo) s = .next (s.afterBlock .unimplemented 0#32) ∧
    exec (.misc11s011 hi lo) s = .next (s.afterBlock .unimplemented 0#32) ∧
    exec (.misc11s100 hi lo) s = .next (s.afterBlock .unimplemented 0#32) ∧
    exec (.misc11s101 hi lo) s = .next (s.afterBlock .unimplemented 0#32)) ∧
  ClassGives (decompressQ1 ·) 0xEC03#16 0x8001#16 .unimplemented ∧
  ClassGives (decompressQ1 ·) 0xEC03#16 0x8401#16 .unimplemented ∧
  ClassGives (decompressQ1 ·) 0xEC03#16 0x8801#16 .unimplemented ∧
  ClassGives (decompressQ1 ·) 0xFC63#16 0x8C21#16 .unimplemented ∧
  ClassGives (decompressQ1 ·) 0xFC63#16 0x8C41#16 .unimplemented ∧
  ClassGives (decompressQ1 ·) 0xFC63#16 0x8C61#16 .unimplemented ∧
  ClassGives (decompressQ1 ·) 0xFC63#16 0x9C01#16 .unimplemented ∧
  ClassGives (decompressQ1 ·) 0xFC63#16 0x9C21#16 .unimplemented

/-- R142, R143: the two reserved MISC-ALU classes. -/
def Obligations.MiscAluReserved : Prop :=
  (∀ (s : State) (hi lo : BitVec 3),
    exec (.misc11s110 hi lo) s = .next (s.afterBlock .reserved 0#32) ∧
    exec (.misc11s111 hi lo) s = .next (s.afterBlock .reserved 0#32)) ∧
  ClassGives (decompressQ1 ·) 0xFC63#16 0x9C41#16 .reserved ∧ ClassGives (decompressQ1 ·) 0xFC63#16 0x9C61#16 .reserved

/-- R134, R164: `C.LI` and `C.LWSP` with `rd == 0` are `Reserved`, whatever the immediate. That they are rejected is the source's; that
the class is `Reserved` is a choice: the spec's decision D5, OPEN as `RD0_CLASS`, which log 13 fixes at the value of R6. -/
def Obligations.RdZeroReserved : Prop :=
  (∀ (s : State) (raw : BitVec 6),
    exec (.cLiRd0 raw) s = .next (s.afterBlock .reserved 0#32) ∧
    exec (.cLwspRd0 raw) s = .next (s.afterBlock .reserved 0#32)) ∧
  ClassGives (decompressQ1 ·) 0xEF83#16 0x4001#16 .reserved ∧ ClassGives (decompressQ2 ·) 0xEF83#16 0x4002#16 .reserved

/-- R161, R162, R165 to R169: the classes of quadrant 2 other than `C.LWSP` are `Unimplemented`. -/
def Obligations.Quadrant2Unimplemented : Prop :=
  (∀ (s : State) (x : BitVec 11),
    exec (.q2c000 x) s = .next (s.afterBlock .unimplemented 0#32) ∧
    exec (.q2c001 x) s = .next (s.afterBlock .unimplemented 0#32) ∧
    exec (.q2c011 x) s = .next (s.afterBlock .unimplemented 0#32) ∧
    exec (.q2c100 x) s = .next (s.afterBlock .unimplemented 0#32) ∧
    exec (.q2c101 x) s = .next (s.afterBlock .unimplemented 0#32) ∧
    exec (.q2c110 x) s = .next (s.afterBlock .unimplemented 0#32) ∧
    exec (.q2c111 x) s = .next (s.afterBlock .unimplemented 0#32)) ∧
  ClassGives (decompressQ2 ·) 0xE003#16 0x0002#16 .unimplemented ∧
  ClassGives (decompressQ2 ·) 0xE003#16 0x2002#16 .unimplemented ∧
  ClassGives (decompressQ2 ·) 0xE003#16 0x6002#16 .unimplemented ∧
  ClassGives (decompressQ2 ·) 0xE003#16 0x8002#16 .unimplemented ∧
  ClassGives (decompressQ2 ·) 0xE003#16 0xA002#16 .unimplemented ∧
  ClassGives (decompressQ2 ·) 0xE003#16 0xC002#16 .unimplemented ∧
  ClassGives (decompressQ2 ·) 0xE003#16 0xE002#16 .unimplemented

/-- R181: quadrant 3 gives `NOT_COMPRESSED` and the zero word; that the walk hands the whole word on is R195. That the block answers
quadrant 3 so, and does not pass the word through, is the spec's own decision D2; that the word is zero, its decision D4. That a walk
shows the first half to the block is the model's choice, log 3. -/
def Obligations.QuadrantThreeNotCompressed : Prop :=
  (∀ (s : State) (w : Word), (Instr.notCompressed w).wellFormed = true →
    exec (.notCompressed w) s = .next (s.afterFull w)) ∧
  ClassGives (decompress ·) 0x0003#16 0x0003#16 .notCompressed

/-- R107, R109, R110 with R195: a word of an output row in the code buffer is a 4-byte instruction that is handed on whole. The model's
choice of a meaning for these rows is log 14. That the ports then read `NOT_COMPRESSED` and the zero word (R181; D2, D4) is its choice
too, log 3. The number of `sp` and the constants of `SUB` are general knowledge in the spec itself (D12, D13; logs 11, 12). -/
def Obligations.OutputRowsHandedOn : Prop :=
  (∀ (s : State) (rd rs1 : RegId) (imm : BitVec 12),
    exec (.addi rd rs1 imm) s = .next (s.afterFull (imm ++ rs1 ++ 0b000#3 ++ rd ++ 0b0010011#7 : BitVec 32))) ∧
  (∀ (s : State) (rd : RegId) (imm : BitVec 12),
    exec (.lw rd imm) s = .next (s.afterFull (imm ++ 0b00010#5 ++ 0b010#3 ++ rd ++ 0b0000011#7 : BitVec 32))) ∧
  ∀ (s : State) (rd rs1 rs2 : RegId),
    exec (.sub rd rs1 rs2) s =
      .next (s.afterFull (0b0100000#7 ++ rs2 ++ rs1 ++ 0b000#3 ++ rd ++ 0b0110011#7 : BitVec 32))

/-! ## The block as a whole -/

/-- R180, R181: the dispatch on `h[1:0]`. That the block dispatches, and that quadrant 3 is answered `NOT_COMPRESSED`, is the spec's own
decision D2; that the word is then zero, its decision D4. -/
def Obligations.TopLevelDispatch : Prop :=
  ∀ h : Half,
    (h.extractLsb' 0 2 = 0b00#2 → decompress h = decompressQ0 h) ∧
    (h.extractLsb' 0 2 = 0b01#2 → decompress h = decompressQ1 h) ∧
    (h.extractLsb' 0 2 = 0b10#2 → decompress h = decompressQ2 h) ∧
    (h.extractLsb' 0 2 = 0b11#2 → decompress h = ⟨.notCompressed, 0#32⟩)

/-- R182: the zero word unless OK, and an OK word has `w[1:0] = 11`, so it is never the zero word; at every instruction. That the word is
zero unless OK is the spec's own decision D4, OPEN as `ERR_WORD`, which log 13 fixes at the value of R6; that a 4-byte instruction leaves
such outputs is the model's choice, log 3. -/
def Obligations.ErrorCarriesZeroWord : Prop :=
  ∀ (i : Instr) (s t : State), exec i s = .next t →
    (t.statusO ≠ .ok → t.wordO = 0#32) ∧ (t.statusO = .ok → t.wordO.extractLsb' 0 2 = 0b11#2 ∧ t.wordO ≠ 0#32)

/-- R183: how many words have each status. The counts are the spec's own inference from R73 to R76, whose classes rest on its decisions
D2, D5 and D6 (log 13). -/
def Obligations.StatusCounts : Prop :=
  countStatus .ok = 4032 ∧ countStatus .illegal = 2048 ∧ countStatus .reserved = 2304 ∧
  countStatus .unimplemented = 40768 ∧ countStatus .notCompressed = 16384

/-- R184: a 32-bit word is an OK answer for some input exactly when it has one of the three shapes. The shapes are the spec's own
inference from R133, R141 and R163; their register numbers and `SUB` constants are general knowledge in the spec itself (D12, D13; logs
11, 12), their extensions its decisions D9 and D10. -/
def Obligations.OkWordsHaveEmittedShape : Prop :=
  ∀ w : Word, emittedShape w = true ↔ ∃ h : Half, decompress h = ⟨.ok, w⟩

/-- R184: the map from OK inputs to words is injective, within the classes and across them. This is the spec's own inference from R133,
R141 and R163, whose constants are D12 and D13 (logs 11, 12). -/
def Obligations.OkExpansionInjective : Prop :=
  ∀ (h h' : Half) (w : Word), decompress h = ⟨.ok, w⟩ → decompress h' = ⟨.ok, w⟩ → h = h'

/-- R232, R234: the code of each status, that a code tells its status, and that 5, 6 and 7 stand for none. The codes are the spec's own
decision D3, OPEN as `STATUS_ENC`, which log 13 fixes at the value of R6. -/
def Obligations.StatusCodes : Prop :=
  Status.code .ok = 0#3 ∧ Status.code .illegal = 1#3 ∧ Status.code .reserved = 2#3 ∧
  Status.code .unimplemented = 3#3 ∧ Status.code .notCompressed = 4#3 ∧
  (∀ (c : BitVec 3) (st : Status), Status.ofCode c = some st ↔ Status.code st = c) ∧
  ∀ c : BitVec 3, 5 ≤ c.toNat → Status.ofCode c = none

/-- R77: every 16-bit word is of exactly one input row, and the row's result is the block's status; for an instruction it is the status
its meaning leaves on `status_o`, which for a 4-byte instruction is the model's choice, log 3. The rows' results rest on the spec's own
decisions D2, D5 and D6 (log 13). -/
def Obligations.EveryWordOneRow : Prop :=
  (∀ h : Half, ∃ r, inputRows.filter (fun r => r.selects h) = [r] ∧ (decompress h).status = r.result) ∧
  ∀ i : Instr, i.wellFormed = true → ∃ r, inputRows.filter (fun r => r.selects i.firstHalf) = [r] ∧
    ∀ s : State, ∃ t, exec i s = .next t ∧ t.statusO = r.result

/-! ## Encoding -/

/-- Every well-formed instruction, with every operand at every value, is what its encoding decodes to. Which instruction a word is called
is the model's choice where the table has an output row (log 14) and where a class has unread bits (log 15); the byte order of a 4-byte
word is the spec's own decision D16. -/
def Obligations.DecodeEncodeRoundTrip : Prop :=
  ∀ (i : Instr) (rest : List Byte), i.wellFormed = true → decodeBytes (encode i ++ rest) = .ok (i, rest)

/-- Whatever bytes decode to is well-formed, and encodes to those bytes: no bit of a word is dropped, and no two words share a meaning.
Which instruction a word is called is the model's choice where the table has an output row (log 14) and where a class has unread bits (log
15); the byte order of a 4-byte word is the spec's own decision D16. -/
def Obligations.EncodeDecodeRoundTrip : Prop :=
  ∀ (bs rest : List Byte) (i : Instr), decodeBytes bs = .ok (i, rest) → i.wellFormed = true ∧ encode i ++ rest = bs

/-- Words written out from the spec's vectors (V-Q0, V-Q1, V-Q2, V-BLD, program P2) decode to the instructions they stand for. The unread
bits are log 15, the output rows log 14; the byte order of a 4-byte word is the spec's own decision D16, the `SUB` constants and the
number of `sp` are logs 12 and 11. -/
def Obligations.SampleWordsDecode : Prop :=
  decodeBytes [0x00#8, 0x00#8] = .ok (.q0c000 0#11, []) ∧
  decodeBytes [0x15#8, 0x45#8] = .ok (.cLi 10#5 5#6, []) ∧
  decodeBytes [0x05#8, 0x8C#8] = .ok (.cSub 0#3 1#3, []) ∧
  decodeBytes [0x21#8, 0x8C#8] = .ok (.misc11s001 0#3 0#3, []) ∧
  decodeBytes [0x32#8, 0x45#8] = .ok (.cLwsp 10#5 12#6, []) ∧
  decodeBytes [0x13#8, 0x05#8, 0x50#8, 0x00#8] = .ok (.addi 10#5 0#5 5#12, []) ∧
  decodeBytes [0x33#8, 0x05#8, 0xB5#8, 0x40#8] = .ok (.sub 10#5 10#5 11#5, []) ∧
  decodeBytes [0x03#8, 0x25#8, 0xC1#8, 0x00#8] = .ok (.lw 10#5 12#12, [])

/-! ## The walk of `InstructionIter`

One step is one `next()` (log 1). The length of an instruction is that of R191, the spec's own decision D17, OPEN and fixed by log 13. -/

/-- When the bytes at the cursor decode to an instruction, a step presents the first 16 bits to the block and runs it, with nothing queued
and with the next instruction asked for at the head of the queue (R195; logs 1, 3, 5). The byte order of a 4-byte word is the spec's own
decision D16. An instruction's length is R191, the spec's own decision D17 (log 13). -/
def Obligations.StepRunsDecodedInstruction : Prop :=
  ∀ (s : State) (h : Half) (bs : List Byte) (i : Instr),
    s.ins.buffer.readHalf s.ins.cursor = some h → s.ins.buffer.readBytes s.ins.cursor bs.length = some bs →
    decodeBytes bs = .ok (i, []) →
    (s.requests = [] → step s = exec i { s with instrI := h }) ∧
    ∀ rest, s.requests = .nextInstruction :: rest → step s = exec i { s with instrI := h, requests := rest }

/-- R195, R185, R180: on a 2-byte instruction a step is the block's function of the fetched word, and no decoding error stops the walk
(R194). The instructions' own meanings and the decoders of R115, R130 and R160 agree on every word. One step is one `next()` (log 1),
asked for when nothing is queued (log 5); that the block holds the dispatch is the spec's own decision D2; that a decoding error is one
item of the walk is its inference in R194; the recorded item is log 18. Which words are 2 and which 4 bytes long is R191, the spec's own
decision D17 (log 13). -/
def Obligations.StepRefinesBlock : Prop :=
  ∀ (s : State) (h : Half), s.requests = [] → s.ins.buffer.readHalf s.ins.cursor = some h →
    h.extractLsb' 0 2 ≠ 0b11#2 →
    step s = .next (({ s with instrI := h } : State).afterBlock (decompress h).status (decompress h).word)

/-- R195, R43: on a 4-byte instruction that is all there, a step hands on the little-endian word. That the 4-byte read is little-endian is
the spec's own decision D16; that the ports then read `NOT_COMPRESSED` and the zero word is the model's choice, log 3. Which words are 2
and which 4 bytes long is R191, the spec's own decision D17 (log 13). -/
def Obligations.StepHandsOnFullWord : Prop :=
  ∀ (s : State) (h : Half) (w : Word), s.requests = [] → s.ins.buffer.readHalf s.ins.cursor = some h →
    h.extractLsb' 0 2 = 0b11#2 → s.ins.buffer.readWord s.ins.cursor = some w →
    step s = .next (({ s with instrI := h } : State).afterFull w)

/-- R196: at the buffer length the walk ends, and every further request also gives `None`, queued or not. That `None` is recorded as a
mark is log 18, the queue log 5. That `cursor >= len` is the check of both iterators is the spec's own decision D18. -/
def Obligations.WalkEnds : Prop :=
  ∀ (s : State) (rest : List Request), s.AsksNext rest → s.ins.buffer.size ≤ s.ins.cursor →
    step s = .next { s with requests := rest, insEnded := true } ∧
    ∀ rest', ({ s with requests := rest, insEnded := true } : State).AsksNext rest' →
      step { s with requests := rest, insEnded := true } = .next { s with requests := rest', insEnded := true }

/-- R197: a step that asks for the next instruction, queued or not, faults exactly when one byte remains or a 4-byte instruction is cut
short; the fault is `TRUNCATED`, and nothing is refused. That a cut fetch is the fatal `TRUNCATED` is the spec's own decision D18; that a
defect is a fault which stops the machine is log 16, DEDUCED. The queue is log 5. Which words are 2 and which 4 bytes long is R191, the
spec's own decision D17 (log 13). -/
def Obligations.StepFaultsExactlyWhenTruncated : Prop :=
  ∀ (s : State) (rest : List Request), s.AsksNext rest →
    (step s = .fault .truncated ↔
      s.ins.cursor + 1 = s.ins.buffer.size ∨
      ∃ h, s.ins.buffer.readHalf s.ins.cursor = some h ∧ h.extractLsb' 0 2 = 0b11#2 ∧
        s.ins.buffer.size < s.ins.cursor + 4) ∧
    (∀ f, step s = .fault f → f = .truncated) ∧ ∀ r, step s ≠ .refused r

/-- R198: with any classifier that answers neither 2 nor 4 for the fetched word, both iterators' fetches end in `BAD_LENGTH`. -/
def Obligations.BadLengthIsDefect : Prop :=
  ∀ (classifier : Half → Nat) (m : Memory) (c : Nat) (h : Half), m.readHalf c = some h →
    classifier h ≠ 2 → classifier h ≠ 4 →
    classifyAt classifier m c = .error .badLength ∧ fetchAt classifier m c = .error .badLength

/-- R42, R43: reads are little-endian and bounded, and the 4-byte read's low half is the word that was classified. The byte order of
the 4-byte read is the spec's own decision D16. -/
def Obligations.FetchIsLittleEndian : Prop :=
  ∀ (m : Memory) (a : Nat),
    (∀ h : Half, m.readHalf a = some h ↔
      ∃ b0 b1, m.read a = some b0 ∧ m.read (a + 1) = some b1 ∧ h = (b1 ++ b0 : BitVec 16)) ∧
    (∀ w : Word, m.readWord a = some w ↔
      ∃ b0 b1 b2 b3, m.read a = some b0 ∧ m.read (a + 1) = some b1 ∧ m.read (a + 2) = some b2 ∧ m.read (a + 3) = some b3 ∧
        w = (b3 ++ b2 ++ b1 ++ b0 : BitVec 32)) ∧
    ∀ w : Word, m.readWord a = some w → m.readHalf a = some (w.setWidth 16)

/-- The frame of every instruction: the word presented, both buffers byte for byte, the other iterator, the loader's results and the queue
stay; the cursor moves by the instruction's length (R195) and one item is added. That what is yielded is recorded is log 18. An
instruction's length is R191, the spec's own decision D17 (log 13). -/
def Obligations.ExecFrame : Prop :=
  ∀ (i : Instr) (s t : State), exec i s = .next t →
    t.instrI = s.instrI ∧
    (∀ a, t.ins.buffer.read a = s.ins.buffer.read a) ∧ t.ins.buffer.size = s.ins.buffer.size ∧
    (∀ a, t.loc.buffer.read a = s.loc.buffer.read a) ∧
    t.loc = s.loc ∧ t.locItems = s.locItems ∧ t.locEnded = s.locEnded ∧ t.insEnded = s.insEnded ∧
    t.program = s.program ∧ t.decodedProgram = s.decodedProgram ∧ t.requests = s.requests ∧
    t.ins.cursor = s.ins.cursor + i.byteLength ∧
    ∃ it, t.insItems = s.insItems ++ [it] ∧ it.byteLength = i.byteLength

/-- R199: while the iterator is not made anew, no step moves the cursor back or takes an item away; the cursor advances by exactly the
lengths of the items added, so instructions do not overlap. That instructions do not overlap is the spec's own inference in R199; that
what is yielded is recorded, so that it can be stated, is log 18, and the queue is log 5. An instruction's length is R191, the spec's own
decision D17 (log 13). -/
def Obligations.WalkMovesForward : Prop :=
  ∀ s t : State, step s = .next t →
    (∀ bytes rest, s.requests ≠ .call (.newInstructionIter bytes) :: rest) →
    t.ins.buffer = s.ins.buffer ∧
    ∃ new : List Item, t.insItems = s.insItems ++ new ∧ t.ins.cursor = s.ins.cursor + (new.map Item.byteLength).sum

/-- R264: what a step yields depends on the fetched bytes only, on nothing else in the state. That it also says what the ports carry after
a 4-byte instruction is the model's choice, log 3. The queue is log 5, the recorded item log 18. Which words are 2 and which 4 bytes long
is R191, the spec's own decision D17 (log 13). -/
def Obligations.AnswerDependsOnFetchedBytesOnly : Prop :=
  ∀ (s s' t t' : State) (rest rest' : List Request) (h : Half), s.AsksNext rest → s'.AsksNext rest' →
    s.ins.buffer.readHalf s.ins.cursor = some h → s'.ins.buffer.readHalf s'.ins.cursor = some h →
    (h.extractLsb' 0 2 = 0b11#2 → s.ins.buffer.readWord s.ins.cursor = s'.ins.buffer.readWord s'.ins.cursor) →
    step s = .next t → step s' = .next t' →
    t.instrI = t'.instrI ∧ t.statusO = t'.statusO ∧ t.wordO = t'.wordO ∧
    ∃ it, t.insItems = s.insItems ++ [it] ∧ t'.insItems = s'.insItems ++ [it]

/-- Every step keeps the invariant: outputs follow the input (R21), canonical buffers, cursors even and accounted for (R45, R199), items
of the shapes the spec allows (R182, R184, R60), ends only at the end (R196). The zero word is the spec's own decision D4, the end check
its D18, the even cursor and the shapes its inferences in R45 and R184; the canonical buffer is log 6, the records log 18, and that a
4-byte instruction's first half is on `instr_i` is log 3. -/
def Obligations.StepKeepsInvariant : Prop :=
  ∀ s t : State, s.Inv → step s = .next t → t.Inv

/-- The state before anything is asked meets the invariant. Its input word and its empty buffers are the model's choices, logs 2 and 4. -/
def Obligations.ResetMeetsInvariant : Prop :=
  State.reset.Inv

/-- The model's `withFetchWord` (log 4): the next step runs exactly the instruction that was placed, with its first 16 bits on `instr_i`,
for a 4-byte instruction too (log 3). The byte order of a 4-byte word is the spec's own decision D16. An instruction's length is R191, the
spec's own decision D17 (log 13). -/
def Obligations.PlacedWordRunsNext : Prop :=
  ∀ (s : State) (i : Instr), s.ins.buffer.wf → i.wellFormed = true →
    step (s.withFetchWord (8 * i.byteLength) (encodeWord i).toNat) =
      exec i { s.withFetchWord (8 * i.byteLength) (encodeWord i).toNat with instrI := i.firstHalf }

/-! ## The caller's calls -/

/-- R21, R180, R239: a presented word gives that word's result on the outputs, with no memory of what stood there before. The ports are
the spec's own decision D1, the dispatch on them D2; that nothing of the word before is kept is D14 and D15. The queue is log 5. -/
def Obligations.PresentedWordGivesItsResult : Prop :=
  ∀ (s : State) (h : Half) (rest : List Request), s.requests = .call (.present h) :: rest →
    step s = .next { s with requests := rest, instrI := h, statusO := (decompress h).status, wordO := (decompress h).word }

/-- R193: one `LocationIter.next()`: the end, the cut fetch, or the start address modulo 2^64 and the cursor moved by the length; it
neither decodes nor calls the block. The end check (R196) and `TRUNCATED` (R197) are the spec's own decision D18, the wrap modulo 2^64 its
decision D19. The queue is log 5, the fault that stops the machine log 16, the recorded address and end log 18. That the length is 4 where
`h[1:0] = 11` and 2 elsewhere is R191, the spec's own decision D17, OPEN and fixed by log 13. -/
def Obligations.LocationNextYieldsStartAddress : Prop :=
  ∀ (s : State) (rest : List Request), s.requests = .call .nextLocation :: rest →
    (s.loc.buffer.size ≤ s.loc.cursor → step s = .next { s with requests := rest, locEnded := true }) ∧
    (s.loc.cursor + 1 = s.loc.buffer.size → step s = .fault .truncated) ∧
    ∀ h, s.loc.buffer.readHalf s.loc.cursor = some h →
      step s = .next { s with
        requests := rest
        loc := { s.loc with cursor := s.loc.cursor + (if h.extractLsb' 0 2 = 0b11#2 then 4 else 2) }
        locItems := s.locItems ++ [s.loc.base + BitVec.ofNat 64 s.loc.cursor] }

/-- R193 and R195 side by side: over the same bytes at the same cursor, wherever `InstructionIter` goes on, `LocationIter` goes on to the
same cursor, and one ends where the other ends. The end checks are the spec's own decision D18, the sum modulo 2^64 its decision D19; the
queue is log 5, the records log 18. Which words are 2 and which 4 bytes long is R191, the spec's own decision D17 (log 13). -/
def Obligations.IteratorsAgree : Prop :=
  ∀ s t : State, s.requests = [] → s.loc.buffer = s.ins.buffer → s.loc.cursor = s.ins.cursor → step s = .next t →
    ∃ u, step { s with requests := [.call .nextLocation] } = .next u ∧ u.loc.cursor = t.ins.cursor ∧
      ((t.insItems = s.insItems ∧ u.locItems = s.locItems ∧ u.locEnded = true) ∨
        ∃ it, t.insItems = s.insItems ++ [it] ∧ u.locItems = s.locItems ++ [s.loc.base + BitVec.ofNat 64 s.loc.cursor])

/-- R192: a new `InstructionIter` over bytes: exactly those bytes, cursor 0; its record starts empty (log 5) and the rest stays. The queue
is log 5, the canonical form of a buffer log 6. -/
def Obligations.NewInstructionIterHoldsBytes : Prop :=
  ∀ (s : State) (bytes : List Byte) (rest : List Request), s.requests = .call (.newInstructionIter bytes) :: rest →
    ∃ m : Memory, m.wf ∧ m.size = bytes.length ∧ (∀ a, m.read a = bytes[a]?) ∧
      step s = .next { s with requests := rest, ins := ⟨m, 0⟩, insItems := [], insEnded := false }

/-- R192: a new `LocationIter` over bytes and a base address, as above. The queue is log 5, the canonical form of a buffer log 6, the 64
bits of the base the spec's own decision D19. -/
def Obligations.NewLocationIterHoldsBytes : Prop :=
  ∀ (s : State) (bytes : List Byte) (base : Addr) (rest : List Request),
    s.requests = .call (.newLocationIter bytes base) :: rest →
    ∃ m : Memory, m.wf ∧ m.size = bytes.length ∧ (∀ a, m.read a = bytes[a]?) ∧
      step s = .next { s with requests := rest, loc := ⟨m, base, 0⟩, locItems := [], locEnded := false }

/-! ## The loader -/

/-- R202: an image loads exactly when it meets the four constraints; R204: the program is the two segments' bytes and the entry field.
That an image is a file in parsed form is the model's choice, log 9. -/
def Obligations.LoaderAcceptsExactly : Prop :=
  ∀ (img : ElfImage) (p : RiscuProgram),
    loadObjectFile (.image img) = .ok p ↔
      img.is64 = true ∧ img.littleEndian = true ∧ img.library = false ∧
      (img.headers.filter (fun x => x.ptLoad)).length = 2 ∧
      ∃ c d,
        (img.headers.filter (fun x => x.ptLoad)).filter (fun x => !x.readable && !x.writable && x.executable) = [c] ∧
        (img.headers.filter (fun x => x.ptLoad)).filter (fun x => x.readable && x.writable && !x.executable) = [d] ∧
        p = ⟨c.bytes, d.bytes, img.entry⟩

/-- R203: the first failing constraint, in the order of R202, is the one reported (the order is the spec's own decision D23); R209:
unreadable and unparsable files. The result goes to the caller and nothing else changes. That a call is a queued request and a file
is given in parsed form are the model's choices, logs 5 and 9. -/
def Obligations.LoaderReportsFirstFailure : Prop :=
  (∀ (s : State) (f : ElfFile) (rest : List Request), s.requests = .call (.loadObjectFile f) :: rest →
    step s = .next { s with requests := rest, program := some (loadObjectFile f) }) ∧
  loadObjectFile .unreadable = .error .fileIo ∧ loadObjectFile .unparsable = .error .elfParse ∧
  ∀ img : ElfImage,
    (¬ (img.is64 = true ∧ img.littleEndian = true ∧ img.library = false) →
      loadObjectFile (.image img) = .error (.shape .imageKind)) ∧
    (img.is64 = true → img.littleEndian = true → img.library = false →
      ((img.headers.filter (fun x => x.ptLoad)).length ≠ 2 →
        loadObjectFile (.image img) = .error (.shape .twoSegments)) ∧
      ((img.headers.filter (fun x => x.ptLoad)).length = 2 →
        (((img.headers.filter (fun x => x.ptLoad)).filter
            (fun x => !x.readable && !x.writable && x.executable)).length ≠ 1 →
          loadObjectFile (.image img) = .error (.shape .codeSegment)) ∧
        (((img.headers.filter (fun x => x.ptLoad)).filter
            (fun x => !x.readable && !x.writable && x.executable)).length = 1 →
          ((img.headers.filter (fun x => x.ptLoad)).filter
            (fun x => x.readable && x.writable && !x.executable)).length ≠ 1 →
          loadObjectFile (.image img) = .error (.shape .dataSegment))))

/-- R206, R207: the two length checks of the decoding loader. That a data segment of bad length is refused is the spec's own decision D23.
Which check comes first is the model's choice, log 10; that the loader defect is a fault is log 16, DEDUCED; the queue is log 5. That a
file is given in parsed form is log 9. -/
def Obligations.DecodingLoaderChecksLengths : Prop :=
  ∀ (s : State) (f : ElfFile) (rest : List Request) (p : RiscuProgram),
    s.requests = .call (.loadAndDecodeObjectFile f) :: rest → loadObjectFile f = .ok p →
    (p.codeSegment.length % 4 ≠ 0 → step s = .fault .codeSegmentLength) ∧
    (p.codeSegment.length % 4 = 0 → p.dataSegment.length % 8 ≠ 0 → step s = .refused .dataSegmentLength)

/-- R208, R209: the first code word that fails to decode aborts the load with its error; a loader error is passed on. That the lengths are
checked first is log 10; that the block's ports keep their values and that a code chunk is read little-endian are the model's choices,
logs 20 and 22. The queue is log 5. That a file is given in parsed form is log 9. -/
def Obligations.DecodingLoaderAborts : Prop :=
  ∀ (s : State) (f : ElfFile) (rest : List Request), s.requests = .call (.loadAndDecodeObjectFile f) :: rest →
    (∀ e, loadObjectFile f = .error e → step s = .next { s with requests := rest, decodedProgram := some (.error e) }) ∧
    ∀ (p : RiscuProgram) (ws : List Word) (w : Word) (after : List Byte) (e : DecodingError),
      loadObjectFile f = .ok p → p.codeSegment.length % 4 = 0 → p.dataSegment.length % 8 = 0 →
      p.codeSegment = (ws.map (bytesOfWord 4)).flatten ++ bytesOfWord 4 w ++ after →
      (∀ v ∈ ws, ∃ i, decode v = .ok i) → decode w = .error e →
      step s = .next { s with requests := rest, decodedProgram := some (.error (.decoding e)) }

/-- R205, R44: when every 4-byte chunk decodes, the result holds the instructions in order, the data as 64-bit little-endian words, and
the entry address. That an instruction is named by its word is log 7; that the block's ports keep their values and that a code chunk is
read little-endian are the model's choices, logs 20 and 22. The queue is log 5. That a file is given in parsed form is log 9. -/
def Obligations.DecodingLoaderDecodesAll : Prop :=
  ∀ (s : State) (f : ElfFile) (rest : List Request) (p : RiscuProgram) (ws : List Word) (is : List Instruction)
    (ds : List (BitVec 64)),
    s.requests = .call (.loadAndDecodeObjectFile f) :: rest → loadObjectFile f = .ok p →
    p.codeSegment = (ws.map (bytesOfWord 4)).flatten → ws.map decode = is.map .ok →
    p.dataSegment = (ds.map (fun d => (List.range 8).map (fun k => d.extractLsb' (8 * k) 8))).flatten →
    step s = .next { s with requests := rest, decodedProgram := some (.ok ⟨is, ds, p.entryAddress⟩) }

/-- R185, R195: `decode` of a zero-extended 2-byte word is `decode(word_o)`, which decodes, if the status is OK, else the error of the
status; the item of a walk is decoded to the same. How `decode` tells such a word is log 8, and that an emitted word decodes is log 7. The
zero extension is the spec's own decision D16. -/
def Obligations.DecodeRoutesHalfWords : Prop :=
  ∀ h : Half, h.extractLsb' 0 2 ≠ 0b11#2 →
    (Item.block (decompress h)).decoded = decode (h.setWidth 32) ∧
    ((decompress h).status = .ok → decode (h.setWidth 32) = decode (decompress h).word ∧
      decode (h.setWidth 32) = .ok ⟨(decompress h).word⟩) ∧
    ((decompress h).status = .illegal → decode (h.setWidth 32) = .error .illegal) ∧
    ((decompress h).status = .reserved → decode (h.setWidth 32) = .error .reserved) ∧
    ((decompress h).status = .unimplemented → decode (h.setWidth 32) = .error .unimplemented)

/-! ## The parts of the block -/

/-- R92: dense bit `k` goes to `L[n-1-k]`; positions not in the list are 0, which is the spec's own decision D8. -/
def Obligations.ScatterPlacesBits : Prop :=
  ∀ (W : Nat) (L : List Nat) (x : BitVec W), validPerm W L →
    (∀ k, k < L.length → (scatter x L).getLsbD (L.getD (L.length - 1 - k) 0) = x.getLsbD k) ∧
    ∀ p, p ∉ L → (scatter x L).getLsbD p = false

/-- R93: position `L[n-1-k]` is read into dense bit `k`; bits from `n` up are 0, which is the spec's own decision D8. -/
def Obligations.GatherReadsBits : Prop :=
  ∀ (W : Nat) (L : List Nat) (x : BitVec W), validPerm W L →
    (∀ k, k < L.length → (gather x L).getLsbD k = x.getLsbD (L.getD (L.length - 1 - k) 0)) ∧
    ∀ k, L.length ≤ k → (gather x L).getLsbD k = false

/-- R95: the two directions are inverses as far as the list goes. The law is the spec's own inference in R95; which direction is called
`permute` is its decision D7, that entries are distinct and other bits 0 its decision D8. -/
def Obligations.PermutationsInvert : Prop :=
  ∀ (W : Nat) (L : List Nat), validPerm W L →
    (∀ x : BitVec W, gather (scatter x L) L = x &&& BitVec.ofNat W (2 ^ L.length - 1)) ∧
    (∀ y : BitVec W, scatter (gather y L) L = y &&& permMask W L) ∧
    (∀ x : BitVec W, x.toNat < 2 ^ L.length → permute (invPermute x L) L = x) ∧
    (L.length = W → ∀ x : BitVec W, gather (scatter x L) L = x ∧ scatter (gather x L) L = x)

/-- R96: the 16-bit and the 32-bit unit agree on inputs of 16 bits. This is the spec's own inference in R96; distinct entries and zero
fill are its decision D8. -/
def Obligations.PermutationWidthsAgree : Prop :=
  ∀ (L : List Nat) (x : BitVec 16), validPerm 16 L →
    scatter (x.setWidth 32) L = (scatter x L).setWidth 32 ∧ gather (x.setWidth 32) L = (gather x L).setWidth 32

/-- R91: a unit is built exactly when its list meets the preconditions, and the block's own list does (R97). The refusal at build time
and the distinctness of the entries are the spec's own decision D8. -/
def Obligations.BadPermutationListsRefused : Prop :=
  (∀ (W : Nat) (L : List Nat),
    (scatterUnit W L = none ↔ ¬ ((W = 16 ∨ W = 32) ∧ L.length ≤ W ∧ (∀ e ∈ L, e < W) ∧ L.Nodup)) ∧
    (gatherUnit W L = none ↔ ¬ ((W = 16 ∨ W = 32) ∧ L.length ≤ W ∧ (∀ e ∈ L, e < W) ∧ L.Nodup)) ∧
    (∀ u, scatterUnit W L = some u → ∀ x, u x = scatter x L) ∧ ∀ u, gatherUnit W L = some u → ∀ x, u x = gather x L) ∧
  (scatterUnit 16 [5, 4, 3, 2, 7, 6]).isSome = true

/-- R100: the extractor's six bits, and that no other bit of the word matters. -/
def Obligations.ExtractorReadsSixBits : Prop :=
  (∀ h : Half, (ciRaw h).getLsbD 5 = h.getLsbD 12 ∧ ∀ k, k < 5 → (ciRaw h).getLsbD k = h.getLsbD (k + 2)) ∧
  ∀ h h' : Half, h &&& 0x107C#16 = h' &&& 0x107C#16 → ciRaw h = ciRaw h'

/-- R23: a compressed field names register `8 + field`. -/
def Obligations.CompressedRegisterIsEightPlusField : Prop :=
  ∀ f : CReg, (expandCReg f).toNat = 8 + f.toNat ∧ expandCReg f = (0b01#2 ++ f : BitVec 5)

/-- R106, R108: the builders are the document's shift-and-OR formulas; R111, the spec's own inference from them: the fields are read back
at their positions. The operand widths are the spec's own decision D21. -/
def Obligations.BuildersPackFields : Prop :=
  (∀ (f7 : BitVec 7) (rs2 rs1 : RegId) (f3 : BitVec 3) (rd : RegId) (op : BitVec 7),
    buildR f7 rs2 rs1 f3 rd op =
      (f7.setWidth 32 <<< 25 ||| rs2.setWidth 32 <<< 20 ||| rs1.setWidth 32 <<< 15 ||| f3.setWidth 32 <<< 12
        ||| rd.setWidth 32 <<< 7 ||| op.setWidth 32) ∧
    opcodeOf (buildR f7 rs2 rs1 f3 rd op) = op ∧ rdOf (buildR f7 rs2 rs1 f3 rd op) = rd ∧
    funct3Of (buildR f7 rs2 rs1 f3 rd op) = f3 ∧ rs1Of (buildR f7 rs2 rs1 f3 rd op) = rs1 ∧
    rs2Of (buildR f7 rs2 rs1 f3 rd op) = rs2 ∧ funct7Of (buildR f7 rs2 rs1 f3 rd op) = f7) ∧
  ∀ (imm : BitVec 12) (rs1 : RegId) (f3 : BitVec 3) (rd : RegId) (op : BitVec 7),
    buildI imm rs1 f3 rd op =
      (imm.setWidth 32 <<< 20 ||| rs1.setWidth 32 <<< 15 ||| f3.setWidth 32 <<< 12 ||| rd.setWidth 32 <<< 7
        ||| op.setWidth 32) ∧
    opcodeOf (buildI imm rs1 f3 rd op) = op ∧ rdOf (buildI imm rs1 f3 rd op) = rd ∧
    funct3Of (buildI imm rs1 f3 rd op) = f3 ∧ rs1Of (buildI imm rs1 f3 rd op) = rs1 ∧ immOf (buildI imm rs1 f3 rd op) = imm

/-- R107, R109, R110: the three builders' equivalent forms. The constants of `SUB` and the number of the stack pointer are general
knowledge in the spec itself, its decisions D13 and D12 (logs 12, 11). -/
def Obligations.BuilderConstants : Prop :=
  (∀ rd rs1 rs2 : RegId, buildSub rd rs1 rs2 =
    (0x40000033#32 ||| rs2.setWidth 32 <<< 20 ||| rs1.setWidth 32 <<< 15 ||| rd.setWidth 32 <<< 7)) ∧
  (∀ (rd rs1 : RegId) (imm : BitVec 12), buildAddi rd rs1 imm =
    (0x00000013#32 ||| imm.setWidth 32 <<< 20 ||| rs1.setWidth 32 <<< 15 ||| rd.setWidth 32 <<< 7)) ∧
  ∀ (rd : RegId) (imm : BitVec 12), buildLw rd imm =
    (0x00012003#32 ||| imm.setWidth 32 <<< 20 ||| rd.setWidth 32 <<< 7)

/-- R10, R115, R130, R160, D11: the quadrant decoders do not read `h[1:0]`, quadrant 0's reads `h[15:13]` only, and none of them
answers `NOT_COMPRESSED`. -/
def Obligations.QuadrantDecodersReadTheirFields : Prop :=
  (∀ h h' : Half, h.extractLsb' 13 3 = h'.extractLsb' 13 3 → decompressQ0 h = decompressQ0 h') ∧
  (∀ h h' : Half, h.extractLsb' 2 14 = h'.extractLsb' 2 14 →
    decompressQ1 h = decompressQ1 h' ∧ decompressQ2 h = decompressQ2 h') ∧
  ∀ h : Half, (decompressQ0 h).status ≠ .notCompressed ∧ (decompressQ1 h).status ≠ .notCompressed ∧
    (decompressQ2 h).status ≠ .notCompressed

/-! ## The OPEN parameters -/

/-- R6: the block as a function of the parameters the decisions call OPEN. For every value of them: `RD0_CLASS` and `MISC_OTHER_CLASS` are
the classes of their words and of no others (D5, D6), a word that is not OK is `ERR_WORD` (D4), the register numbers and the `SUB`
constants stand in the expanded words (D12, D13), and codes that differ tell their statuses (D3). That the parameters are an argument is
log 13; the extensions of the immediates are the spec's own decisions D9 and D10. -/
def Obligations.BlockTakesParameters : Prop :=
  ∀ P : Config.Params,
    (∀ h : Half,
      (h &&& 0xEF83#16 = 0x4001#16 ∨ h &&& 0xEF83#16 = 0x4002#16 → decompress h P = ⟨P.rd0Class.status, P.errWord⟩) ∧
      (h &&& 0xFC63#16 ∈ [0x8C21#16, 0x8C41#16, 0x8C61#16, 0x9C01#16, 0x9C21#16] →
        decompress h P = ⟨P.miscOtherClass.status, P.errWord⟩) ∧
      (h &&& 0xEF83#16 ≠ 0x4001#16 → h &&& 0xEF83#16 ≠ 0x4002#16 →
        h &&& 0xFC63#16 ∉ [0x8C21#16, 0x8C41#16, 0x8C61#16, 0x9C01#16, 0x9C21#16] →
        (decompress h P).status = (decompress h).status) ∧
      ((decompress h P).status ≠ .ok → (decompress h P).word = P.errWord) ∧
      (h &&& 0xE003#16 = 0x4001#16 → h.extractLsb' 7 5 ≠ 0#5 →
        decompress h P = ⟨.ok, ((h.extractLsb' 12 1 ++ h.extractLsb' 2 5 : BitVec 6).signExtend 12
          ++ P.zeroReg ++ 0b000#3 ++ h.extractLsb' 7 5 ++ 0b0010011#7 : BitVec 32)⟩) ∧
      (h &&& 0xFC63#16 = 0x8C01#16 →
        decompress h P = ⟨.ok, (P.subFunct7 ++ (0b01#2 ++ h.extractLsb' 2 3 : BitVec 5)
          ++ (0b01#2 ++ h.extractLsb' 7 3 : BitVec 5) ++ P.subFunct3 ++ (0b01#2 ++ h.extractLsb' 7 3 : BitVec 5)
          ++ P.subOpcode : BitVec 32)⟩) ∧
      (h &&& 0xE003#16 = 0x4002#16 → h.extractLsb' 7 5 ≠ 0#5 →
        decompress h P = ⟨.ok, (0b0000#4 ++ h.extractLsb' 3 1 ++ h.extractLsb' 2 1 ++ h.extractLsb' 12 1 ++ h.extractLsb' 6 1
          ++ h.extractLsb' 5 1 ++ h.extractLsb' 4 1 ++ 0b00#2 ++ P.spReg ++ 0b010#3 ++ h.extractLsb' 7 5 ++ 0b0000011#7
          : BitVec 32)⟩)) ∧
    ((∀ st st' : Status, st.code P = st'.code P → st = st') →
      ∀ (c : BitVec 3) (st : Status), Status.ofCode c P = some st ↔ st.code P = c)

/-- R6, R195: the walk as a function of the OPEN parameters and of the length classifier (D17), and that the machine's step is the build
with the values of R6 and the classifier of R191 (log 13). The ports follow the presented word whatever the length (R21); that the first
half of a 4-byte instruction is presented is the model's choice, log 3. The end check (R196) and `TRUNCATED` (R197) are the spec's own
decision D18; the fault that stops the machine is log 16, the queue log 5, the recorded item and end log 18. -/
def Obligations.StepIsTheBuildOfR6 : Prop :=
  (∀ (s : State) (rest : List Request), s.AsksNext rest →
    step s = instructionNextOf Config.r6 instructionLength { s with requests := rest }) ∧
  ∀ (P : Config.Params) (classifier : Half → Nat) (s : State),
    (s.ins.buffer.size ≤ s.ins.cursor → instructionNextOf P classifier s = .next { s with insEnded := true }) ∧
    (s.ins.cursor + 1 = s.ins.buffer.size → instructionNextOf P classifier s = .fault .truncated) ∧
    ∀ h : Half, s.ins.buffer.readHalf s.ins.cursor = some h →
      (classifier h = 2 → instructionNextOf P classifier s =
        .next (({ s with instrI := h } : State).afterBlock (decompress h P).status (decompress h P).word)) ∧
      (∀ w, classifier h = 4 → s.ins.buffer.readWord s.ins.cursor = some w → instructionNextOf P classifier s =
        .next { s with
          instrI := h
          statusO := (decompress h P).status
          wordO := (decompress h P).word
          ins := { s.ins with cursor := s.ins.cursor + 4 }
          insItems := s.insItems ++ [.full w] }) ∧
      (classifier h = 4 → s.ins.buffer.size < s.ins.cursor + 4 → instructionNextOf P classifier s = .fault .truncated) ∧
      (classifier h ≠ 2 → classifier h ≠ 4 → instructionNextOf P classifier s = .fault .badLength)

/-- R193, R198: the walk of `LocationIter` as a function of the length classifier (D17), and that the machine's is the one with the
classifier of R191 (log 13; the queue is log 5, the recorded end log 18). The end check (R196) and `TRUNCATED` (R197) are the spec's own
decision D18, the sum modulo 2^64 its decision D19; the fault that stops the machine is log 16. -/
def Obligations.LocationWalkTakesClassifier : Prop :=
  (∀ (s : State) (rest : List Request), s.requests = .call .nextLocation :: rest →
    step s = locationNextOf instructionLength { s with requests := rest }) ∧
  ∀ (classifier : Half → Nat) (s : State),
    (s.loc.buffer.size ≤ s.loc.cursor → locationNextOf classifier s = .next { s with locEnded := true }) ∧
    (s.loc.cursor + 1 = s.loc.buffer.size → locationNextOf classifier s = .fault .truncated) ∧
    ∀ h : Half, s.loc.buffer.readHalf s.loc.cursor = some h →
      (classifier h = 2 ∨ classifier h = 4 → locationNextOf classifier s =
        .next { s with
          loc := { s.loc with cursor := s.loc.cursor + classifier h }
          locItems := s.locItems ++ [s.loc.base + BitVec.ofNat 64 s.loc.cursor] }) ∧
      (classifier h ≠ 2 → classifier h ≠ 4 → locationNextOf classifier s = .fault .badLength)
end

