-- ==== Sys2Proof/Laws/Decode.lean ====
section
/-! SUPPORT. The decoder's and encoder's parts bit by bit: which bit of which field stands at each position of a word, and
what each field reader takes out. -/

namespace Sys2Proof

open Machine

/-- A concatenation read from position `a` on: below `a + m` it is the low part. Peeling a word field by field goes by this. -/
theorem getLsbD_append_from {n m : Nat} (x : BitVec n) (y : BitVec m) {a k : Nat} (h : ¬ k < a) :
    (x ++ y).getLsbD (k - a) = if k < a + m then y.getLsbD (k - a) else x.getLsbD (k - (a + m)) := by
  have hk : k - a < m ↔ k < a + m := by omega
  simp only [BitVec.getLsbD_append, hk, Nat.sub_sub]

/-! ## Where the encoders put each bit (R62 to R66) -/

theorem encodeClass_getLsbD (f : BitVec 3) (x : BitVec 11) (op : BitVec 2) (k : Nat) :
    (encodeClass f x op).getLsbD k =
      if k < 2 then op.getLsbD k else if k < 13 then x.getLsbD (k - 2) else f.getLsbD (k - 13) := by
  rw [encodeClass, BitVec.getLsbD_append]
  repeat (refine ite_congr rfl (fun _ => rfl) fun h => ?_; rw [getLsbD_append_from _ _ h])

theorem encodeCi_getLsbD (f : BitVec 3) (raw : BitVec 6) (rd : RegId) (op : BitVec 2) (k : Nat) :
    (encodeCi f raw rd op).getLsbD k =
      if k < 2 then op.getLsbD k else if k < 7 then raw.getLsbD (k - 2) else if k < 12 then rd.getLsbD (k - 7)
      else if k < 13 then raw.getLsbD 5 else f.getLsbD (k - 13) := by
  simp only [encodeCi, BitVec.getLsbD_append, BitVec.getLsbD_extractLsb']
  by_cases h1 : k < 2
  · simp [h1]
  by_cases h2 : k < 7
  · have : k - 2 < 5 := by omega
    simp [h1, h2, this]
  by_cases h3 : k < 12
  · have a : ¬ k - 2 < 5 := by omega
    have b : k - 2 - 5 < 5 := by omega
    have c : k - 2 - 5 = k - 7 := by omega
    rw [if_neg h1, if_neg a, if_pos b, if_neg h1, if_neg h2, if_pos h3, c]
  by_cases h4 : k < 13
  · obtain rfl : k = 12 := by omega
    simp
  · have a : ¬ k - 2 < 5 := by omega
    have b : ¬ k - 2 - 5 < 5 := by omega
    have c : ¬ k - 2 - 5 - 5 < 1 := by omega
    have d : k - 2 - 5 - 5 - 1 = k - 13 := by omega
    simp only [h1, h2, h3, h4, a, b, c, d, if_false]

theorem encodeMisc_getLsbD (hi : BitVec 1) (sub : BitVec 2) (lo : BitVec 8) (k : Nat) :
    (encodeMisc hi sub lo).getLsbD k =
      if k < 2 then (0b01#2).getLsbD k else if k < 10 then lo.getLsbD (k - 2) else if k < 12 then sub.getLsbD (k - 10)
      else if k < 13 then hi.getLsbD (k - 12) else (0b100#3).getLsbD (k - 13) := by
  rw [encodeMisc, BitVec.getLsbD_append]
  repeat (refine ite_congr rfl (fun _ => rfl) fun h => ?_; rw [getLsbD_append_from _ _ h])

theorem encodeMisc11_getLsbD (selHi : BitVec 1) (selLo : BitVec 2) (rdP rs2P : BitVec 3) (k : Nat) :
    (encodeMisc11 selHi selLo rdP rs2P).getLsbD k =
      if k < 2 then (0b01#2).getLsbD k else if k < 5 then rs2P.getLsbD (k - 2) else if k < 7 then selLo.getLsbD (k - 5)
      else if k < 10 then rdP.getLsbD (k - 7) else if k < 12 then (0b11#2).getLsbD (k - 10)
      else if k < 13 then selHi.getLsbD (k - 12) else (0b100#3).getLsbD (k - 13) := by
  rw [encodeMisc11, BitVec.getLsbD_append]
  repeat (refine ite_congr rfl (fun _ => rfl) fun h => ?_; rw [getLsbD_append_from _ _ h])

/-! ## Taking fields back out of an encoded word -/

/-- A field reader of the encoded word is a bit vector compared bit by bit. -/
theorem extractLsb'_eq_of_bits {n w : Nat} {h : BitVec n} {x : BitVec w} (at_ : Nat)
    (e : ∀ k, k < w → h.getLsbD (at_ + k) = x.getLsbD k) : h.extractLsb' at_ w = x := by
  refine BitVec.eq_of_getLsbD_eq fun k hk => ?_
  rw [BitVec.getLsbD_extractLsb', e k hk]
  simp [hk]

theorem unreadField_encodeClass (f : BitVec 3) (x : BitVec 11) (op : BitVec 2) :
    unreadField (encodeClass f x op) = x := by
  refine extractLsb'_eq_of_bits 2 fun k hk => ?_
  rw [encodeClass_getLsbD, if_neg (by omega), if_pos (by omega)]
  congr 1; omega

theorem rdField_encodeCi (f : BitVec 3) (raw : BitVec 6) (rd : RegId) (op : BitVec 2) :
    rdField (encodeCi f raw rd op) = rd := by
  refine extractLsb'_eq_of_bits 7 fun k hk => ?_
  rw [encodeCi_getLsbD, if_neg (by omega), if_neg (by omega), if_pos (by omega)]
  congr 1; omega

theorem ciRaw_getLsbD (h : Half) (k : Nat) :
    (ciRaw h).getLsbD k = if k < 5 then h.getLsbD (k + 2) else if k = 5 then h.getLsbD 12 else false := by
  simp only [ciRaw, BitVec.getLsbD_append, BitVec.getLsbD_extractLsb']
  by_cases h1 : k < 5
  · simp [h1, Nat.add_comm]
  · by_cases h2 : k = 5
    · subst h2; simp
    · have : ¬ k - 5 < 1 := by omega
      simp [h1, h2, this]

theorem ciRaw_encodeCi (f : BitVec 3) (raw : BitVec 6) (rd : RegId) (op : BitVec 2) :
    ciRaw (encodeCi f raw rd op) = raw := by
  refine BitVec.eq_of_getLsbD_eq fun k hk => ?_
  rw [ciRaw_getLsbD]
  by_cases h1 : k < 5
  · rw [if_pos h1, encodeCi_getLsbD, if_neg (by omega), if_pos (by omega)]
    congr 1
  · obtain rfl : k = 5 := by omega
    rw [if_neg h1, if_pos rfl, encodeCi_getLsbD]
    rfl

theorem rdPField_encodeMisc11 (a : BitVec 1) (b : BitVec 2) (hi lo : BitVec 3) :
    rdPField (encodeMisc11 a b hi lo) = hi := by
  refine extractLsb'_eq_of_bits 7 fun k hk => ?_
  rw [encodeMisc11_getLsbD, if_neg (by omega), if_neg (by omega), if_neg (by omega), if_pos (by omega)]
  congr 1; omega

theorem rs2PField_encodeMisc11 (a : BitVec 1) (b : BitVec 2) (hi lo : BitVec 3) :
    rs2PField (encodeMisc11 a b hi lo) = lo := by
  refine extractLsb'_eq_of_bits 2 fun k hk => ?_
  rw [encodeMisc11_getLsbD, if_neg (by omega), if_pos (by omega)]
  congr 1; omega

theorem hiField_encodeMisc (hi : BitVec 1) (sub : BitVec 2) (lo : BitVec 8) :
    (encodeMisc hi sub lo).extractLsb' 12 1 = hi := by
  refine extractLsb'_eq_of_bits 12 fun k hk => ?_
  rw [encodeMisc_getLsbD, if_neg (by omega), if_neg (by omega), if_neg (by omega), if_pos (by omega)]
  congr 1; omega

theorem loField_encodeMisc (hi : BitVec 1) (sub : BitVec 2) (lo : BitVec 8) :
    (encodeMisc hi sub lo).extractLsb' 2 8 = lo := by
  refine extractLsb'_eq_of_bits 2 fun k hk => ?_
  rw [encodeMisc_getLsbD, if_neg (by omega), if_pos (by omega)]
  congr 1; omega

/-! ## Built words (R106, R108, R111) -/

theorem buildI_getLsbD (imm : BitVec 12) (rs1 : RegId) (f3 : BitVec 3) (rd : RegId) (op : BitVec 7) (k : Nat) :
    (buildI imm rs1 f3 rd op).getLsbD k =
      if k < 7 then op.getLsbD k else if k < 12 then rd.getLsbD (k - 7) else if k < 15 then f3.getLsbD (k - 12)
      else if k < 20 then rs1.getLsbD (k - 15) else imm.getLsbD (k - 20) := by
  rw [buildI, BitVec.getLsbD_append]
  repeat (refine ite_congr rfl (fun _ => rfl) fun h => ?_; rw [getLsbD_append_from _ _ h])

theorem buildR_getLsbD (f7 : BitVec 7) (rs2 rs1 : RegId) (f3 : BitVec 3) (rd : RegId) (op : BitVec 7) (k : Nat) :
    (buildR f7 rs2 rs1 f3 rd op).getLsbD k =
      if k < 7 then op.getLsbD k else if k < 12 then rd.getLsbD (k - 7) else if k < 15 then f3.getLsbD (k - 12)
      else if k < 20 then rs1.getLsbD (k - 15) else if k < 25 then rs2.getLsbD (k - 20) else f7.getLsbD (k - 25) := by
  rw [buildR, BitVec.getLsbD_append]
  repeat (refine ite_congr rfl (fun _ => rfl) fun h => ?_; rw [getLsbD_append_from _ _ h])

/-! ## Bytes (R42, R43) -/

theorem halfOfBytes_getLsbD (b0 b1 : Byte) (k : Nat) :
    (halfOfBytes b0 b1).getLsbD k = if k < 8 then b0.getLsbD k else b1.getLsbD (k - 8) := by
  rw [halfOfBytes, BitVec.getLsbD_append]

theorem wordOfBytes_getLsbD (b0 b1 b2 b3 : Byte) (k : Nat) :
    (wordOfBytes b0 b1 b2 b3).getLsbD k =
      if k < 8 then b0.getLsbD k else if k < 16 then b1.getLsbD (k - 8) else if k < 24 then b2.getLsbD (k - 16)
      else b3.getLsbD (k - 24) := by
  rw [wordOfBytes, BitVec.getLsbD_append]
  repeat (refine ite_congr rfl (fun _ => rfl) fun h => ?_; rw [getLsbD_append_from _ _ h])

/-- The first two bytes of a word are its low half. -/
theorem halfOfBytes_of_word (w : Word) : halfOfBytes (w.extractLsb' 0 8) (w.extractLsb' 8 8) = w.setWidth 16 := by
  refine BitVec.eq_of_getLsbD_eq fun k hk => ?_
  rw [halfOfBytes_getLsbD, BitVec.getLsbD_extractLsb', BitVec.getLsbD_extractLsb', BitVec.getLsbD_setWidth]
  by_cases h : k < 8
  · simp [h, hk]
  · have a : k - 8 < 8 := by omega
    have b : 8 + (k - 8) = k := by omega
    simp [h, hk, a, b]

/-- The four bytes of a word make the word. -/
theorem wordOfBytes_of_word (w : Word) :
    wordOfBytes (w.extractLsb' 0 8) (w.extractLsb' 8 8) (w.extractLsb' 16 8) (w.extractLsb' 24 8) = w := by
  refine BitVec.eq_of_getLsbD_eq fun k hk => ?_
  rw [wordOfBytes_getLsbD]
  have hk' : k < 8 ∨ (8 ≤ k ∧ k < 16) ∨ (16 ≤ k ∧ k < 24) ∨ 24 ≤ k := by omega
  rcases hk' with h | h | h | h
  · simp [h]
  · have a : k - 8 < 8 := by omega
    have b : 8 + (k - 8) = k := by omega
    rw [if_neg (by omega), if_pos (by omega), BitVec.getLsbD_extractLsb', b]
    simp [a]
  · have a : k - 16 < 8 := by omega
    have b : 16 + (k - 16) = k := by omega
    rw [if_neg (by omega), if_neg (by omega), if_pos (by omega), BitVec.getLsbD_extractLsb', b]
    simp [a]
  · have a : k - 24 < 8 := by omega
    have b : 24 + (k - 24) = k := by omega
    rw [if_neg (by omega), if_neg (by omega), if_neg (by omega), BitVec.getLsbD_extractLsb', b]
    simp [a]

/-- Decoding the little-endian bytes of a word of quadrant 0, 1 or 2 reads its low half. -/
theorem decodeBytes_half (b0 b1 : Byte) (rest : List Byte) :
    decodeBytes (b0 :: b1 :: rest) =
      match quadrantOf (halfOfBytes b0 b1) with
      | .q0 => .ok (decodeQ0 (halfOfBytes b0 b1), rest)
      | .q1 => .ok (decodeQ1 (halfOfBytes b0 b1), rest)
      | .q2 => .ok (decodeQ2 (halfOfBytes b0 b1), rest)
      | .q3 => decodeLong b0 b1 rest := rfl

end Sys2Proof
end

