-- ==== Sys2Proof/Laws/Memory.lean ====
section
/-! SUPPORT. The code buffer: reading after writing, and the canonical form kept by every operation. -/

namespace Sys2Proof.Machine

/-! ## Cells -/

theorem cellAt_setCell_same (a : Nat) (b : Byte) :
    ∀ cs : List Host.Cell, cs.Pairwise (fun c d => c.1 < d.1) → cellAt a (setCell a b cs) = b
  | [], _ => by
    unfold setCell
    split
    · simp_all [cellAt]
    · simp [cellAt]
  | c :: cs, h => by
    obtain ⟨hc, hcs⟩ := List.pairwise_cons.mp h
    have absent : ∀ l : List Host.Cell, (∀ d ∈ l, a < d.1) → cellAt a l = Memory.unlisted := by
      intro l
      induction l with
      | nil => simp [cellAt]
      | cons d ds ih =>
        intro hd
        have h1 := hd d (by simp)
        have h2 := ih (fun e he => hd e (by simp [he]))
        simp [cellAt, h2]
        omega
    unfold setCell
    split
    · next hlt =>
      split
      · next hb =>
        rw [hb]
        exact absent _ (by
          intro d hd
          rcases List.mem_cons.mp hd with rfl | hd
          · exact hlt
          · exact lt_trans hlt (hc d hd))
      · simp [cellAt]
    · split
      · next heq =>
        split
        · next hb => rw [hb]; exact absent _ (fun d hd => heq ▸ hc d hd)
        · simp [cellAt]
      · next hne =>
        have := cellAt_setCell_same a b cs hcs
        simp [cellAt, Ne.symm hne, this]

theorem cellAt_setCell_other {a a' : Nat} (b : Byte) (hne : a' ≠ a) :
    ∀ cs : List Host.Cell, cellAt a' (setCell a b cs) = cellAt a' cs
  | [] => by
    unfold setCell
    split <;> simp [cellAt, Ne.symm hne]
  | c :: cs => by
    have ih := cellAt_setCell_other b hne cs
    unfold setCell
    split
    · split <;> simp [cellAt, Ne.symm hne]
    · split
      · next heq =>
        subst heq
        split <;> simp [cellAt, Ne.symm hne]
      · simp [cellAt, ih]

theorem mem_setCell {a : Nat} {b : Byte} {c : Host.Cell} :
    ∀ {cs : List Host.Cell}, c ∈ setCell a b cs → c ∈ cs ∨ (c = (a, b) ∧ b ≠ Memory.unlisted)
  | [], h => by
    unfold setCell at h
    split at h <;> simp_all
  | d :: cs, h => by
    unfold setCell at h
    split at h
    · split at h <;> simp_all
      tauto
    · split at h
      · split at h <;> simp_all
        tauto
      · rcases List.mem_cons.mp h with rfl | h
        · simp
        · rcases mem_setCell h with h | h
          · simp [h]
          · simp [h]

theorem setCell_pairwise (a : Nat) (b : Byte) :
    ∀ cs : List Host.Cell, cs.Pairwise (fun c d => c.1 < d.1) → (setCell a b cs).Pairwise (fun c d => c.1 < d.1)
  | [], _ => by unfold setCell; split <;> simp
  | c :: cs, h => by
    obtain ⟨hc, hcs⟩ := List.pairwise_cons.mp h
    unfold setCell
    split
    · next hlt =>
      split
      · exact h
      · refine List.pairwise_cons.mpr ⟨?_, h⟩
        intro d hd
        rcases List.mem_cons.mp hd with rfl | hd
        · exact hlt
        · exact lt_trans hlt (hc d hd)
    · next hge =>
      split
      · next heq =>
        split
        · exact hcs
        · exact List.pairwise_cons.mpr ⟨fun d hd => heq ▸ hc d hd, hcs⟩
      · next hne =>
        refine List.pairwise_cons.mpr ⟨?_, setCell_pairwise a b cs hcs⟩
        intro d hd
        rcases mem_setCell hd with hd | ⟨rfl, -⟩
        · exact hc d hd
        · show c.1 < a
          omega

/-! ## The canonical form -/

@[simp] theorem Memory.empty_wf : Memory.empty.wf := by decide

theorem Memory.write_wf {m : Memory} (h : m.wf) (a : Nat) (b : Byte) : (m.write a b).wf := by
  refine ⟨setCell_pairwise a b _ h.1, ?_⟩
  intro c hc
  rcases mem_setCell hc with hc | ⟨rfl, hb⟩
  · have := h.2 c hc
    exact ⟨this.1, by simp only [Memory.write]; omega⟩
  · exact ⟨hb, by simp only [Memory.write]; omega⟩

theorem Memory.writeBytes_wf : ∀ (bs : List Byte) {m : Memory} (a : Nat), m.wf → (m.writeBytes a bs).wf
  | [], _, _, h => h
  | b :: bs, _, a, h => Memory.writeBytes_wf bs (a + 1) (Memory.write_wf h a b)

theorem cellsFrom_ge : ∀ (bs : List Byte) (a : Nat), ∀ c ∈ cellsFrom a bs, a ≤ c.1 ∧ c.1 < a + bs.length ∧ c.2 ≠ Memory.unlisted
  | [], _, _, h => by simp [cellsFrom] at h
  | b :: bs, a, c, h => by
    unfold cellsFrom at h
    split at h
    · have := cellsFrom_ge bs (a + 1) c h
      simp only [List.length_cons]
      exact ⟨by omega, by omega, this.2.2⟩
    · next hb =>
      rcases List.mem_cons.mp h with rfl | h
      · exact ⟨le_refl _, by simp, hb⟩
      · have := cellsFrom_ge bs (a + 1) c h
        simp only [List.length_cons]
        exact ⟨by omega, by omega, this.2.2⟩

theorem cellsFrom_pairwise : ∀ (bs : List Byte) (a : Nat), (cellsFrom a bs).Pairwise (fun c d => c.1 < d.1)
  | [], _ => by simp [cellsFrom]
  | b :: bs, a => by
    unfold cellsFrom
    split
    · exact cellsFrom_pairwise bs (a + 1)
    · refine List.pairwise_cons.mpr ⟨?_, cellsFrom_pairwise bs (a + 1)⟩
      intro d hd
      have := (cellsFrom_ge bs (a + 1) d hd).1
      show a < d.1
      omega

theorem Memory.ofBytes_wf (bs : List Byte) : (Memory.ofBytes bs).wf := by
  refine ⟨cellsFrom_pairwise bs 0, ?_⟩
  intro c hc
  have := cellsFrom_ge bs 0 c hc
  exact ⟨this.2.2, by simpa [Memory.ofBytes] using this.2.1⟩

/-! ## Reading -/

theorem Memory.read_write_same {m : Memory} (h : m.wf) (a : Nat) (b : Byte) : (m.write a b).read a = some b := by
  have : a < max m.size (a + 1) := by omega
  simp [Memory.read, Memory.write, this, cellAt_setCell_same a b m.cells h.1]

theorem Memory.read_write_other (m : Memory) {a a' : Nat} (b : Byte) (hne : a' ≠ a) (hlt : a' < m.size) :
    (m.write a b).read a' = m.read a' := by
  have : a' < max m.size (a + 1) := by omega
  simp [Memory.read, Memory.write, this, hlt, cellAt_setCell_other b hne]

theorem cellAt_cellsFrom : ∀ (bs : List Byte) (a k : Nat), cellAt (a + k) (cellsFrom a bs) = bs.getD k Memory.unlisted
  | [], _, _ => by simp [cellsFrom, cellAt]
  | b :: bs, a, 0 => by
    unfold cellsFrom
    split
    · next hb =>
      have absent : ∀ l : List Host.Cell, (∀ d ∈ l, a < d.1) → cellAt a l = Memory.unlisted := by
        intro l
        induction l with
        | nil => simp [cellAt]
        | cons d ds ih =>
          intro hd
          have h1 := hd d (by simp)
          have h2 := ih (fun e he => hd e (by simp [he]))
          simp [cellAt, h2]
          omega
      have := absent (cellsFrom (a + 1) bs) (fun d hd => (cellsFrom_ge bs (a + 1) d hd).1)
      simpa [hb] using this
    · simp [cellAt]
  | b :: bs, a, k + 1 => by
    have ih := cellAt_cellsFrom bs (a + 1) k
    have e : a + (k + 1) = a + 1 + k := by omega
    unfold cellsFrom
    split
    · rw [e, ih]; simp
    · have : a ≠ a + 1 + k := by omega
      rw [e]
      simp [cellAt, this, ih]

/-- A buffer made of bytes holds exactly those bytes. -/
theorem Memory.read_ofBytes (bs : List Byte) (a : Nat) : (Memory.ofBytes bs).read a = bs[a]? := by
  have h := cellAt_cellsFrom bs 0 a
  simp only [Nat.zero_add] at h
  unfold Memory.read Memory.ofBytes
  split
  · next hlt =>
    have hlt' : a < bs.length := hlt
    simp [h, List.getD, hlt']
  · next hge =>
    have hge' : bs.length ≤ a := by simpa using hge
    simp [hge']

theorem Memory.writeBytes_size : ∀ (bs : List Byte) (m : Memory) (a : Nat), a ≤ m.size →
    (m.writeBytes a bs).size = max m.size (a + bs.length)
  | [], m, a, h => by simp [Memory.writeBytes]; omega
  | b :: bs, m, a, h => by
    rw [Memory.writeBytes, Memory.writeBytes_size bs (m.write a b) (a + 1) (by simp only [Memory.write]; omega)]
    simp only [Memory.write, List.length_cons]
    omega

theorem cellAt_writeBytes_below : ∀ (bs : List Byte) (m : Memory) (a p : Nat), p < a →
    cellAt p (m.writeBytes a bs).cells = cellAt p m.cells
  | [], _, _, _, _ => rfl
  | b :: bs, m, a, p, h => by
    rw [Memory.writeBytes, cellAt_writeBytes_below bs (m.write a b) (a + 1) p (by omega)]
    exact cellAt_setCell_other b (by omega) m.cells

/-- Bytes put into a canonical buffer are there. -/
theorem cellAt_writeBytes : ∀ (bs : List Byte) (m : Memory) (a k : Nat), m.wf → k < bs.length →
    cellAt (a + k) (m.writeBytes a bs).cells = bs.getD k Memory.unlisted
  | [], _, _, _, _, h => by simp at h
  | b :: bs, m, a, 0, hm, _ => by
    rw [Memory.writeBytes, Nat.add_zero, cellAt_writeBytes_below bs (m.write a b) (a + 1) a (by omega)]
    exact cellAt_setCell_same a b m.cells hm.1
  | b :: bs, m, a, k + 1, hm, h => by
    have e : a + (k + 1) = a + 1 + k := by omega
    rw [Memory.writeBytes, e, cellAt_writeBytes bs (m.write a b) (a + 1) k (Memory.write_wf hm a b) (by simpa using h)]
    simp

end Sys2Proof.Machine
end

