-- ==== Sys2Proof/Laws/State.lean ====
section
/-! SUPPORT. One lemma per field and per update of State: what the update leaves in that field. -/

namespace Sys2Proof.Machine.State

variable (s : State)

@[simp] theorem setInstrI_instrI (h : Half) : (s.setInstrI h).instrI = h := rfl
@[simp] theorem setInstrI_wordO (h : Half) : (s.setInstrI h).wordO = s.wordO := rfl
@[simp] theorem setInstrI_statusO (h : Half) : (s.setInstrI h).statusO = s.statusO := rfl
@[simp] theorem setInstrI_ins (h : Half) : (s.setInstrI h).ins = s.ins := rfl
@[simp] theorem setInstrI_insItems (h : Half) : (s.setInstrI h).insItems = s.insItems := rfl
@[simp] theorem setInstrI_insEnded (h : Half) : (s.setInstrI h).insEnded = s.insEnded := rfl
@[simp] theorem setInstrI_loc (h : Half) : (s.setInstrI h).loc = s.loc := rfl
@[simp] theorem setInstrI_locItems (h : Half) : (s.setInstrI h).locItems = s.locItems := rfl
@[simp] theorem setInstrI_locEnded (h : Half) : (s.setInstrI h).locEnded = s.locEnded := rfl
@[simp] theorem setInstrI_program (h : Half) : (s.setInstrI h).program = s.program := rfl
@[simp] theorem setInstrI_decodedProgram (h : Half) : (s.setInstrI h).decodedProgram = s.decodedProgram := rfl
@[simp] theorem setInstrI_requests (h : Half) : (s.setInstrI h).requests = s.requests := rfl

@[simp] theorem setOutputs_instrI (r : BlockResult) : (s.setOutputs r).instrI = s.instrI := rfl
@[simp] theorem setOutputs_wordO (r : BlockResult) : (s.setOutputs r).wordO = r.word := rfl
@[simp] theorem setOutputs_statusO (r : BlockResult) : (s.setOutputs r).statusO = r.status := rfl
@[simp] theorem setOutputs_ins (r : BlockResult) : (s.setOutputs r).ins = s.ins := rfl
@[simp] theorem setOutputs_insItems (r : BlockResult) : (s.setOutputs r).insItems = s.insItems := rfl
@[simp] theorem setOutputs_insEnded (r : BlockResult) : (s.setOutputs r).insEnded = s.insEnded := rfl
@[simp] theorem setOutputs_loc (r : BlockResult) : (s.setOutputs r).loc = s.loc := rfl
@[simp] theorem setOutputs_locItems (r : BlockResult) : (s.setOutputs r).locItems = s.locItems := rfl
@[simp] theorem setOutputs_locEnded (r : BlockResult) : (s.setOutputs r).locEnded = s.locEnded := rfl
@[simp] theorem setOutputs_program (r : BlockResult) : (s.setOutputs r).program = s.program := rfl
@[simp] theorem setOutputs_decodedProgram (r : BlockResult) : (s.setOutputs r).decodedProgram = s.decodedProgram := rfl
@[simp] theorem setOutputs_requests (r : BlockResult) : (s.setOutputs r).requests = s.requests := rfl

@[simp] theorem yieldItem_instrI (it : Item) (n : Nat) : (s.yieldItem it n).instrI = s.instrI := rfl
@[simp] theorem yieldItem_wordO (it : Item) (n : Nat) : (s.yieldItem it n).wordO = s.wordO := rfl
@[simp] theorem yieldItem_statusO (it : Item) (n : Nat) : (s.yieldItem it n).statusO = s.statusO := rfl
@[simp] theorem yieldItem_ins (it : Item) (n : Nat) : (s.yieldItem it n).ins = ⟨s.ins.buffer, s.ins.cursor + n⟩ := rfl
@[simp] theorem yieldItem_insItems (it : Item) (n : Nat) : (s.yieldItem it n).insItems = s.insItems ++ [it] := rfl
@[simp] theorem yieldItem_insEnded (it : Item) (n : Nat) : (s.yieldItem it n).insEnded = s.insEnded := rfl
@[simp] theorem yieldItem_loc (it : Item) (n : Nat) : (s.yieldItem it n).loc = s.loc := rfl
@[simp] theorem yieldItem_locItems (it : Item) (n : Nat) : (s.yieldItem it n).locItems = s.locItems := rfl
@[simp] theorem yieldItem_locEnded (it : Item) (n : Nat) : (s.yieldItem it n).locEnded = s.locEnded := rfl
@[simp] theorem yieldItem_program (it : Item) (n : Nat) : (s.yieldItem it n).program = s.program := rfl
@[simp] theorem yieldItem_decodedProgram (it : Item) (n : Nat) : (s.yieldItem it n).decodedProgram = s.decodedProgram := rfl
@[simp] theorem yieldItem_requests (it : Item) (n : Nat) : (s.yieldItem it n).requests = s.requests := rfl

@[simp] theorem endInstructions_instrI : (s.endInstructions).instrI = s.instrI := rfl
@[simp] theorem endInstructions_wordO : (s.endInstructions).wordO = s.wordO := rfl
@[simp] theorem endInstructions_statusO : (s.endInstructions).statusO = s.statusO := rfl
@[simp] theorem endInstructions_ins : (s.endInstructions).ins = s.ins := rfl
@[simp] theorem endInstructions_insItems : (s.endInstructions).insItems = s.insItems := rfl
@[simp] theorem endInstructions_insEnded : (s.endInstructions).insEnded = true := rfl
@[simp] theorem endInstructions_loc : (s.endInstructions).loc = s.loc := rfl
@[simp] theorem endInstructions_locItems : (s.endInstructions).locItems = s.locItems := rfl
@[simp] theorem endInstructions_locEnded : (s.endInstructions).locEnded = s.locEnded := rfl
@[simp] theorem endInstructions_program : (s.endInstructions).program = s.program := rfl
@[simp] theorem endInstructions_decodedProgram : (s.endInstructions).decodedProgram = s.decodedProgram := rfl
@[simp] theorem endInstructions_requests : (s.endInstructions).requests = s.requests := rfl

@[simp] theorem yieldLocation_instrI (n : Nat) : (s.yieldLocation n).instrI = s.instrI := rfl
@[simp] theorem yieldLocation_wordO (n : Nat) : (s.yieldLocation n).wordO = s.wordO := rfl
@[simp] theorem yieldLocation_statusO (n : Nat) : (s.yieldLocation n).statusO = s.statusO := rfl
@[simp] theorem yieldLocation_ins (n : Nat) : (s.yieldLocation n).ins = s.ins := rfl
@[simp] theorem yieldLocation_insItems (n : Nat) : (s.yieldLocation n).insItems = s.insItems := rfl
@[simp] theorem yieldLocation_insEnded (n : Nat) : (s.yieldLocation n).insEnded = s.insEnded := rfl
@[simp] theorem yieldLocation_loc (n : Nat) : (s.yieldLocation n).loc = ⟨s.loc.buffer, s.loc.base, s.loc.cursor + n⟩ := rfl
@[simp] theorem yieldLocation_locItems (n : Nat) : (s.yieldLocation n).locItems = s.locItems ++ [s.loc.base + BitVec.ofNat 64 s.loc.cursor] := rfl
@[simp] theorem yieldLocation_locEnded (n : Nat) : (s.yieldLocation n).locEnded = s.locEnded := rfl
@[simp] theorem yieldLocation_program (n : Nat) : (s.yieldLocation n).program = s.program := rfl
@[simp] theorem yieldLocation_decodedProgram (n : Nat) : (s.yieldLocation n).decodedProgram = s.decodedProgram := rfl
@[simp] theorem yieldLocation_requests (n : Nat) : (s.yieldLocation n).requests = s.requests := rfl

@[simp] theorem endLocations_instrI : (s.endLocations).instrI = s.instrI := rfl
@[simp] theorem endLocations_wordO : (s.endLocations).wordO = s.wordO := rfl
@[simp] theorem endLocations_statusO : (s.endLocations).statusO = s.statusO := rfl
@[simp] theorem endLocations_ins : (s.endLocations).ins = s.ins := rfl
@[simp] theorem endLocations_insItems : (s.endLocations).insItems = s.insItems := rfl
@[simp] theorem endLocations_insEnded : (s.endLocations).insEnded = s.insEnded := rfl
@[simp] theorem endLocations_loc : (s.endLocations).loc = s.loc := rfl
@[simp] theorem endLocations_locItems : (s.endLocations).locItems = s.locItems := rfl
@[simp] theorem endLocations_locEnded : (s.endLocations).locEnded = true := rfl
@[simp] theorem endLocations_program : (s.endLocations).program = s.program := rfl
@[simp] theorem endLocations_decodedProgram : (s.endLocations).decodedProgram = s.decodedProgram := rfl
@[simp] theorem endLocations_requests : (s.endLocations).requests = s.requests := rfl

end Sys2Proof.Machine.State
end

