-- ==== Sys2Proof/Laws/Ops.lean ====
section
/-! SUPPORT. What each shared operation can do, once: the classifier, the fetch of both iterators, the three answers, and the
step by its queue. -/

namespace Sys2Proof.Machine

/-! ## The classifier (R191) -/

theorem instructionLength_eq_four {h : Half} : instructionLength h = 4 ↔ quadrantOf h = .q3 := by
  unfold instructionLength
  cases quadrantOf h <;> simp

theorem instructionLength_eq_two {h : Half} : instructionLength h = 2 ↔ quadrantOf h ≠ .q3 := by
  unfold instructionLength
  cases quadrantOf h <;> simp

theorem instructionLength_two_or_four (h : Half) : instructionLength h = 2 ∨ instructionLength h = 4 := by
  unfold instructionLength
  cases quadrantOf h <;> simp

/-! ## Reads -/

theorem Memory.readHalf_eq_some {m : Memory} {a : Nat} {h : Half} :
    m.readHalf a = some h ↔ a + 2 ≤ m.size ∧ halfOfBytes (cellAt a m.cells) (cellAt (a + 1) m.cells) = h := by
  unfold Memory.readHalf
  split <;> simp_all

theorem Memory.readHalf_eq_none {m : Memory} {a : Nat} : m.readHalf a = none ↔ m.size < a + 2 := by
  unfold Memory.readHalf
  split <;> simp_all

theorem Memory.readWord_eq_some {m : Memory} {a : Nat} {w : Word} :
    m.readWord a = some w ↔ a + 4 ≤ m.size ∧
      wordOfBytes (cellAt a m.cells) (cellAt (a + 1) m.cells) (cellAt (a + 2) m.cells) (cellAt (a + 3) m.cells) = w := by
  unfold Memory.readWord
  split <;> simp_all

theorem Memory.readBytes_two {m : Memory} {a : Nat} (h : a + 2 ≤ m.size) :
    m.readBytes a 2 = some [cellAt a m.cells, cellAt (a + 1) m.cells] := by
  simp [Memory.readBytes, h, List.range_succ]

theorem Memory.readBytes_four {m : Memory} {a : Nat} (h : a + 4 ≤ m.size) :
    m.readBytes a 4 =
      some [cellAt a m.cells, cellAt (a + 1) m.cells, cellAt (a + 2) m.cells, cellAt (a + 3) m.cells] := by
  simp [Memory.readBytes, h, List.range_succ]

/-! ## Fetch (R193, R195 to R198) -/

theorem classifyAt_end {classifier : Half → Nat} {m : Memory} {c : Nat} (h : m.size ≤ c) :
    classifyAt classifier m c = .ok none := by
  simp [classifyAt, h]

theorem classifyAt_cut {classifier : Half → Nat} {m : Memory} {c : Nat} (h : c + 1 = m.size) :
    classifyAt classifier m c = .error .truncated := by
  have h1 : ¬ m.size ≤ c := by omega
  have h2 : m.readHalf c = none := Memory.readHalf_eq_none.mpr (by omega)
  simp [classifyAt, h1, h2]

/-- A word at the cursor whose length the classifier, any classifier, gives as 2 or 4 (R191, D17). -/
theorem classifyAt_word_of {classifier : Half → Nat} {m : Memory} {c : Nat} {h : Half} (hr : m.readHalf c = some h)
    (hl : classifier h = 2 ∨ classifier h = 4) : classifyAt classifier m c = .ok (some (h, classifier h)) := by
  have h1 : ¬ m.size ≤ c := by
    have := (Memory.readHalf_eq_some.mp hr).1
    omega
  have h2 : ¬ (classifier h ≠ 2 ∧ classifier h ≠ 4) := by omega
  simp only [classifyAt, h1, hr, h2, if_false]

theorem classifyAt_word {m : Memory} {c : Nat} {h : Half} (hr : m.readHalf c = some h) :
    classifyAt instructionLength m c = .ok (some (h, instructionLength h)) :=
  classifyAt_word_of hr (instructionLength_two_or_four h)

/-- The three things the shared part of a fetch can do with the classifier of R191. -/
theorem classifyAt_cases (m : Memory) (c : Nat) :
    (m.size ≤ c ∧ classifyAt instructionLength m c = .ok none) ∨
    (c + 1 = m.size ∧ classifyAt instructionLength m c = .error .truncated) ∨
    ∃ h, m.readHalf c = some h ∧ classifyAt instructionLength m c = .ok (some (h, instructionLength h)) := by
  by_cases h1 : m.size ≤ c
  · exact .inl ⟨h1, classifyAt_end h1⟩
  · by_cases h2 : c + 1 = m.size
    · exact .inr (.inl ⟨h2, classifyAt_cut h2⟩)
    · have : c + 2 ≤ m.size := by omega
      obtain ⟨h, hr⟩ : ∃ h, m.readHalf c = some h := ⟨_, Memory.readHalf_eq_some.mpr ⟨this, rfl⟩⟩
      exact .inr (.inr ⟨h, hr, classifyAt_word hr⟩)

theorem fetchAt_end {m : Memory} {c : Nat} (h : m.size ≤ c) : fetchAt instructionLength m c = .ok none := by
  simp [fetchAt, classifyAt_end h]

theorem fetchAt_oneByte {m : Memory} {c : Nat} (h : c + 1 = m.size) :
    fetchAt instructionLength m c = .error .truncated := by
  simp [fetchAt, classifyAt_cut h]

theorem fetchAt_two {classifier : Half → Nat} {m : Memory} {c : Nat} {h : Half} (hr : m.readHalf c = some h)
    (hl : classifier h = 2) :
    fetchAt classifier m c = .ok (some (h, [cellAt c m.cells, cellAt (c + 1) m.cells])) := by
  have hs := (Memory.readHalf_eq_some.mp hr).1
  simp [fetchAt, classifyAt_word_of hr (.inl hl), hl, Memory.readBytes_two hs]

theorem fetchAt_four {classifier : Half → Nat} {m : Memory} {c : Nat} {h : Half} (hr : m.readHalf c = some h)
    (hl : classifier h = 4) (hs : c + 4 ≤ m.size) :
    fetchAt classifier m c =
      .ok (some (h, [cellAt c m.cells, cellAt (c + 1) m.cells, cellAt (c + 2) m.cells, cellAt (c + 3) m.cells])) := by
  simp [fetchAt, classifyAt_word_of hr (.inr hl), hl, Memory.readBytes_four hs]

theorem fetchAt_half {m : Memory} {c : Nat} {h : Half} (hr : m.readHalf c = some h) (hq : quadrantOf h ≠ .q3) :
    fetchAt instructionLength m c = .ok (some (h, [cellAt c m.cells, cellAt (c + 1) m.cells])) :=
  fetchAt_two hr (instructionLength_eq_two.mpr hq)

theorem fetchAt_full {m : Memory} {c : Nat} {h : Half} (hr : m.readHalf c = some h) (hq : quadrantOf h = .q3)
    (hs : c + 4 ≤ m.size) :
    fetchAt instructionLength m c =
      .ok (some (h, [cellAt c m.cells, cellAt (c + 1) m.cells, cellAt (c + 2) m.cells, cellAt (c + 3) m.cells])) :=
  fetchAt_four hr (instructionLength_eq_four.mpr hq) hs

theorem fetchAt_cutShort {m : Memory} {c : Nat} {h : Half} (hr : m.readHalf c = some h) (hq : quadrantOf h = .q3)
    (hs : m.size < c + 4) : fetchAt instructionLength m c = .error .truncated := by
  have : ¬ c + 4 ≤ m.size := by omega
  simp [fetchAt, classifyAt_word hr, instructionLength_eq_four.mpr hq, Memory.readBytes, this]

/-! ## Answers -/

@[simp] theorem answerOk_eq (w : Word) (s : State) : answerOk w s = .next (s.answer (.ok w)) := rfl

@[simp] theorem answerErr_eq (e : DecodingError) (s : State) : answerErr e s = .next (s.answer (.err e)) := rfl

@[simp] theorem answerFull_eq (w : Word) (s : State) :
    answerFull w s = .next ((s.setOutputs .notCompressed).yieldItem (.full w) 4) := rfl

/-- Everything an instruction can do: answer with a block result, or hand a full word on. -/
theorem exec_cases (i : Instr) (s : State) :
    (∃ r, i.byteLength = 2 ∧ exec i s = .next (s.answer r)) ∨
    i.byteLength = 4 ∧ exec i s = .next ((s.setOutputs .notCompressed).yieldItem (.full (encodeWord i)) 4) := by
  cases i <;> first | exact .inr ⟨rfl, rfl⟩ | exact .inl ⟨_, rfl, rfl⟩

/-! ## The step, by its queue (log 5) -/

theorem step_nil {s : State} (h : s.requests = []) : step s = instructionNext s := by simp [step, h]

theorem step_next {s : State} {rest : List Request} (h : s.requests = .nextInstruction :: rest) :
    step s = instructionNext { s with requests := rest } := by simp [step, h]

/-- A step that asks for the next instruction, queued or not. -/
theorem step_asksNext {s : State} {rest : List Request} (h : s.AsksNext rest) :
    step s = instructionNext { s with requests := rest } := by
  rcases h with ⟨h, rfl⟩ | h
  · rw [step_nil h]
    cases s
    cases h
    rfl
  · exact step_next h

theorem step_call {s : State} {c : HostCall} {rest : List Request} (h : s.requests = .call c :: rest) :
    step s = serve c { s with requests := rest } := by simp [step, h]

/-! ## The loader's choice of a segment -/

theorem onlyOne_eq_some {l : List ProgramHeader} {p : ProgramHeader} : onlyOne l = some p ↔ l = [p] := by
  rcases l with _ | ⟨q, _ | ⟨r, l⟩⟩ <;> simp [onlyOne]

theorem onlyOne_eq_none {l : List ProgramHeader} : onlyOne l = none ↔ l.length ≠ 1 := by
  rcases l with _ | ⟨q, _ | ⟨r, l⟩⟩ <;> simp [onlyOne]

/-- Everything `load` can answer on success. -/
theorem load_eq_ok {img : ElfImage} {p : RiscuProgram} :
    img.load = .ok p ↔
      (img.is64 && img.littleEndian && !img.library) = true ∧ img.loadable.length = 2 ∧
      ∃ c d, onlyOne (img.loadable.filter (·.isCode)) = some c ∧ onlyOne (img.loadable.filter (·.isData)) = some d ∧
        p = ⟨c.bytes, d.bytes, img.entry⟩ := by
  unfold ElfImage.load
  cases hk : img.is64 && img.littleEndian && !img.library
  · simp
  · by_cases hl : img.loadable.length = 2
    · cases hc : onlyOne (img.loadable.filter (·.isCode)) <;> cases hd : onlyOne (img.loadable.filter (·.isData)) <;>
        simp [hl, eq_comm]
    · simp [hl]

/-! ## The meanings and the block's case tables agree, quadrant by quadrant -/

/-- Quadrant 3 by the field `h[1:0]` (R62). -/
theorem quadrantOf_eq_q3 (h : Half) : quadrantOf h = .q3 ↔ h.extractLsb' 0 2 = 0b11#2 := by
  constructor
  · intro e
    refine BitVec.eq_of_getLsbD_eq fun k hk => ?_
    unfold quadrantOf at e
    split at e <;> simp at e
    rename_i h1 h0
    rw [BitVec.getLsbD_extractLsb']
    have : k = 0 ∨ k = 1 := by omega
    rcases this with rfl | rfl <;> simp_all
  · intro e
    have h1 := congrArg (fun v => v.getLsbD 1) e
    have h0 := congrArg (fun v => v.getLsbD 0) e
    simp only [BitVec.getLsbD_extractLsb'] at h1 h0
    unfold quadrantOf
    simp at h1 h0
    simp [h1, h0]

/-- In quadrant 3 the block's function is `NotCompressed`, at every value of the parameters (R180, R181). -/
theorem decompress_of_q3 {h : Half} (hq : quadrantOf h = .q3) (P : Config.Params) : decompress h P = .notCompressed P := by
  simp only [decompress, hq]

theorem exec_decodeQ0 (h : Half) (s : State) : exec (decodeQ0 h) s = .next (s.answer (decompressQ0 h)) := by
  unfold decodeQ0 decompressQ0
  cases h.getLsbD 15 <;> cases h.getLsbD 14 <;> cases h.getLsbD 13 <;> rfl

theorem exec_decodeMisc11 (h : Half) (s : State) : exec (decodeMisc11 h) s = .next (s.answer (miscAlu11 h)) := by
  unfold decodeMisc11 miscAlu11
  cases h.getLsbD 12 <;> cases h.getLsbD 6 <;> cases h.getLsbD 5 <;> rfl

theorem exec_decodeMiscAlu (h : Half) (s : State) : exec (decodeMiscAlu h) s = .next (s.answer (miscAlu h)) := by
  unfold decodeMiscAlu miscAlu
  cases h.getLsbD 11 <;> cases h.getLsbD 10 <;> first | rfl | exact exec_decodeMisc11 h s

theorem exec_decodeQ1 (h : Half) (s : State) : exec (decodeQ1 h) s = .next (s.answer (decompressQ1 h)) := by
  unfold decodeQ1 decompressQ1
  cases h.getLsbD 15 <;> cases h.getLsbD 14 <;> cases h.getLsbD 13 <;>
    first | rfl | exact exec_decodeMiscAlu h s | (by_cases hrd : rdField h = 0#5 <;> simp only [hrd, if_true, if_false] <;> rfl)

theorem exec_decodeQ2 (h : Half) (s : State) : exec (decodeQ2 h) s = .next (s.answer (decompressQ2 h)) := by
  unfold decodeQ2 decompressQ2
  cases h.getLsbD 15 <;> cases h.getLsbD 14 <;> cases h.getLsbD 13 <;>
    first | rfl | (by_cases hrd : rdField h = 0#5 <;> simp only [hrd, if_true, if_false] <;> rfl)

end Sys2Proof.Machine
end

