-- ==== Sys2Proof/Laws/PerInstr.lean ====
section
/-! SUPPORT. A statement about every instruction as syntax, one lemma per constructor. -/

namespace Sys2Proof.Laws.EncodedForm

/-- The encoder writes as many bytes as the instruction occupies, and the length classifier (R191) tells that length from
the first 16 bits of a well-formed instruction. -/
def Statement (i : Instr) : Prop :=
  (encode i).length = i.byteLength ∧ (i.wellFormed = true → Machine.instructionLength i.firstHalf = i.byteLength)

/-- The length of a word by its bits 1 and 0 (R60). -/
theorem length_of_bits {h : Half} {a b : Bool} (h1 : h.getLsbD 1 = a) (h0 : h.getLsbD 0 = b) :
    Machine.instructionLength h = if a && b then 4 else 2 := by
  unfold Machine.instructionLength Machine.quadrantOf
  rw [h1, h0]
  cases a <;> cases b <;> rfl

/-- A 2-byte instruction's first half is its 16-bit word. -/
theorem firstHalf_setWidth (h : Half) : (h.setWidth 32).setWidth 16 = h := by simp

/-- A class word's length is told by its `op` field. -/
theorem length_class (f : BitVec 3) (x : BitVec 11) (op : BitVec 2) :
    Machine.instructionLength (encodeClass f x op) = if op.getLsbD 1 && op.getLsbD 0 then 4 else 2 :=
  length_of_bits (by rw [encodeClass_getLsbD]; rfl) (by rw [encodeClass_getLsbD]; rfl)

theorem length_ci (f : BitVec 3) (raw : BitVec 6) (rd : RegId) (op : BitVec 2) :
    Machine.instructionLength (encodeCi f raw rd op) = if op.getLsbD 1 && op.getLsbD 0 then 4 else 2 :=
  length_of_bits (by rw [encodeCi_getLsbD]; rfl) (by rw [encodeCi_getLsbD]; rfl)

theorem length_misc (hi : BitVec 1) (sub : BitVec 2) (lo : BitVec 8) :
    Machine.instructionLength (encodeMisc hi sub lo) = 2 :=
  length_of_bits (a := false) (b := true) (by rw [encodeMisc_getLsbD]; rfl) (by rw [encodeMisc_getLsbD]; rfl)

theorem length_misc11 (a : BitVec 1) (b : BitVec 2) (hi lo : BitVec 3) :
    Machine.instructionLength (encodeMisc11 a b hi lo) = 2 :=
  length_of_bits (a := false) (b := true) (by rw [encodeMisc11_getLsbD]; rfl) (by rw [encodeMisc11_getLsbD]; rfl)

theorem length_full {w : Word} (h1 : w.getLsbD 1 = true) (h0 : w.getLsbD 0 = true) :
    Machine.instructionLength (w.setWidth 16) = 4 :=
  length_of_bits (a := true) (b := true) (by rw [BitVec.getLsbD_setWidth, h1]; rfl)
    (by rw [BitVec.getLsbD_setWidth, h0]; rfl)

/-- From the length of the 16-bit word to the statement about a 2-byte instruction. -/
theorem ofHalf {i : Instr} {h : Half} (len : (encode i).length = i.byteLength) (e : encodeWord i = h.setWidth 32)
    (l : Machine.instructionLength h = i.byteLength) : Statement i :=
  ⟨len, fun _ => by rw [Instr.firstHalf, e, firstHalf_setWidth, l]⟩

theorem q0c000 (unread : BitVec 11) : Statement (.q0c000 unread) := ofHalf rfl rfl (length_class _ _ _)

theorem q0c001Fld (unread : BitVec 11) : Statement (.q0c001Fld unread) := ofHalf rfl rfl (length_class _ _ _)

theorem q0c010Lw (unread : BitVec 11) : Statement (.q0c010Lw unread) := ofHalf rfl rfl (length_class _ _ _)

theorem q0c011Ld (unread : BitVec 11) : Statement (.q0c011Ld unread) := ofHalf rfl rfl (length_class _ _ _)

theorem q0c100 (unread : BitVec 11) : Statement (.q0c100 unread) := ofHalf rfl rfl (length_class _ _ _)

theorem q0c101Fsd (unread : BitVec 11) : Statement (.q0c101Fsd unread) := ofHalf rfl rfl (length_class _ _ _)

theorem q0c110Sw (unread : BitVec 11) : Statement (.q0c110Sw unread) := ofHalf rfl rfl (length_class _ _ _)

theorem q0c111Sd (unread : BitVec 11) : Statement (.q0c111Sd unread) := ofHalf rfl rfl (length_class _ _ _)

theorem q1c000 (unread : BitVec 11) : Statement (.q1c000 unread) := ofHalf rfl rfl (length_class _ _ _)

theorem q1c001 (unread : BitVec 11) : Statement (.q1c001 unread) := ofHalf rfl rfl (length_class _ _ _)

theorem cLi (rd : RegId) (raw : BitVec 6) : Statement (.cLi rd raw) := ofHalf rfl rfl (length_ci _ _ _ _)

theorem cLiRd0 (raw : BitVec 6) : Statement (.cLiRd0 raw) := ofHalf rfl rfl (length_ci _ _ _ _)

theorem q1c011 (unread : BitVec 11) : Statement (.q1c011 unread) := ofHalf rfl rfl (length_class _ _ _)

theorem miscAlu00 (hi : BitVec 1) (lo : BitVec 8) : Statement (.miscAlu00 hi lo) := ofHalf rfl rfl (length_misc _ _ _)

theorem miscAlu01 (hi : BitVec 1) (lo : BitVec 8) : Statement (.miscAlu01 hi lo) := ofHalf rfl rfl (length_misc _ _ _)

theorem miscAlu10 (hi : BitVec 1) (lo : BitVec 8) : Statement (.miscAlu10 hi lo) := ofHalf rfl rfl (length_misc _ _ _)

theorem cSub (rdP rs2P : CReg) : Statement (.cSub rdP rs2P) := ofHalf rfl rfl (length_misc11 _ _ _ _)

theorem misc11s001 (hi lo : BitVec 3) : Statement (.misc11s001 hi lo) := ofHalf rfl rfl (length_misc11 _ _ _ _)

theorem misc11s010 (hi lo : BitVec 3) : Statement (.misc11s010 hi lo) := ofHalf rfl rfl (length_misc11 _ _ _ _)

theorem misc11s011 (hi lo : BitVec 3) : Statement (.misc11s011 hi lo) := ofHalf rfl rfl (length_misc11 _ _ _ _)

theorem misc11s100 (hi lo : BitVec 3) : Statement (.misc11s100 hi lo) := ofHalf rfl rfl (length_misc11 _ _ _ _)

theorem misc11s101 (hi lo : BitVec 3) : Statement (.misc11s101 hi lo) := ofHalf rfl rfl (length_misc11 _ _ _ _)

theorem misc11s110 (hi lo : BitVec 3) : Statement (.misc11s110 hi lo) := ofHalf rfl rfl (length_misc11 _ _ _ _)

theorem misc11s111 (hi lo : BitVec 3) : Statement (.misc11s111 hi lo) := ofHalf rfl rfl (length_misc11 _ _ _ _)

theorem q1c101 (unread : BitVec 11) : Statement (.q1c101 unread) := ofHalf rfl rfl (length_class _ _ _)

theorem q1c110 (unread : BitVec 11) : Statement (.q1c110 unread) := ofHalf rfl rfl (length_class _ _ _)

theorem q1c111 (unread : BitVec 11) : Statement (.q1c111 unread) := ofHalf rfl rfl (length_class _ _ _)

theorem q2c000 (unread : BitVec 11) : Statement (.q2c000 unread) := ofHalf rfl rfl (length_class _ _ _)

theorem q2c001 (unread : BitVec 11) : Statement (.q2c001 unread) := ofHalf rfl rfl (length_class _ _ _)

theorem cLwsp (rd : RegId) (raw : BitVec 6) : Statement (.cLwsp rd raw) := ofHalf rfl rfl (length_ci _ _ _ _)

theorem cLwspRd0 (raw : BitVec 6) : Statement (.cLwspRd0 raw) := ofHalf rfl rfl (length_ci _ _ _ _)

theorem q2c011 (unread : BitVec 11) : Statement (.q2c011 unread) := ofHalf rfl rfl (length_class _ _ _)

theorem q2c100 (unread : BitVec 11) : Statement (.q2c100 unread) := ofHalf rfl rfl (length_class _ _ _)

theorem q2c101 (unread : BitVec 11) : Statement (.q2c101 unread) := ofHalf rfl rfl (length_class _ _ _)

theorem q2c110 (unread : BitVec 11) : Statement (.q2c110 unread) := ofHalf rfl rfl (length_class _ _ _)

theorem q2c111 (unread : BitVec 11) : Statement (.q2c111 unread) := ofHalf rfl rfl (length_class _ _ _)

theorem notCompressed (full : Word) : Statement (.notCompressed full) := by
  refine ⟨rfl, fun h => ?_⟩
  simp only [Instr.wellFormed, Bool.and_eq_true] at h
  exact length_full h.1.1.1.1 h.1.1.1.2

theorem addi (rd rs1 : RegId) (imm : BitVec 12) : Statement (.addi rd rs1 imm) :=
  ⟨rfl, fun _ => length_full (by rw [encodeWord, Machine.buildAddi, buildI_getLsbD]; rfl) (by rw [encodeWord, Machine.buildAddi, buildI_getLsbD]; rfl)⟩

theorem lw (rd : RegId) (imm : BitVec 12) : Statement (.lw rd imm) :=
  ⟨rfl, fun _ => length_full (by rw [encodeWord, Machine.buildLw, buildI_getLsbD]; rfl) (by rw [encodeWord, Machine.buildLw, buildI_getLsbD]; rfl)⟩

theorem sub (rd rs1 rs2 : RegId) : Statement (.sub rd rs1 rs2) :=
  ⟨rfl, fun _ => length_full (by rw [encodeWord, Machine.buildSub, buildR_getLsbD]; rfl)
    (by rw [encodeWord, Machine.buildSub, buildR_getLsbD]; rfl)⟩

end Sys2Proof.Laws.EncodedForm
end

