-- ==== Sys2Proof/Laws/Permutation.lean ====
section
/-! SUPPORT. What the two loops of the Bit Permutation Utility leave at each position (R92, R93). -/

namespace Sys2Proof.Machine

variable {W : Nat}

theorem scatterFrom_of_notMem (x : BitVec W) {p : Nat} :
    ∀ (k : Nat) (es : List Nat), p ∉ es → (scatterFrom x k es).getLsbD p = false
  | _, [], _ => by simp [scatterFrom]
  | k, e :: es, h => by
    rw [List.mem_cons, not_or] at h
    have he : decide (e = p) = false := by simpa using fun h' => h.1 h'.symm
    simp only [scatterFrom, BitVec.getLsbD_or, scatterFrom_of_notMem x (k + 1) es h.2, Bool.or_false]
    split <;> simp [BitVec.getLsbD_twoPow, he]

theorem scatterFrom_at (x : BitVec W) {i p : Nat} (hp : p < W) :
    ∀ (k : Nat) (es : List Nat), es.Nodup → es[i]? = some p → (scatterFrom x k es).getLsbD p = x.getLsbD (k + i) := by
  induction i with
  | zero =>
    intro k es hn he
    cases es with
    | nil => simp at he
    | cons e es =>
      obtain rfl : e = p := by simpa using he
      rw [List.nodup_cons] at hn
      simp only [scatterFrom, BitVec.getLsbD_or, scatterFrom_of_notMem x (k + 1) es hn.1, Bool.or_false, Nat.add_zero]
      split <;> simp_all
  | succ i ih =>
    intro k es hn he
    cases es with
    | nil => simp at he
    | cons e es =>
      rw [List.nodup_cons] at hn
      rw [List.getElem?_cons_succ] at he
      have hne : decide (e = p) = false := by
        simpa using fun h' : e = p => hn.1 (h' ▸ List.mem_of_getElem? he)
      simp only [scatterFrom, BitVec.getLsbD_or, ih (k + 1) es hn.2 he, Nat.add_right_comm k 1 i, Nat.add_assoc]
      split <;> simp [BitVec.getLsbD_twoPow, hne]

theorem gatherFrom_outside (x : BitVec W) {j : Nat} :
    ∀ (k : Nat) (es : List Nat), j < k ∨ k + es.length ≤ j → (gatherFrom x k es).getLsbD j = false
  | _, [], _ => by simp [gatherFrom]
  | k, e :: es, h => by
    rw [List.length_cons] at h
    have hk : decide (k = j) = false := by simp; omega
    have ht : (gatherFrom x (k + 1) es).getLsbD j = false := gatherFrom_outside x (k + 1) es (by omega)
    simp only [gatherFrom, BitVec.getLsbD_or, ht, Bool.or_false]
    split <;> simp [BitVec.getLsbD_twoPow, hk]

theorem gatherFrom_at (x : BitVec W) {i p : Nat} :
    ∀ (k : Nat) (es : List Nat), es[i]? = some p → k + i < W → (gatherFrom x k es).getLsbD (k + i) = x.getLsbD p := by
  induction i with
  | zero =>
    intro k es he hk
    cases es with
    | nil => simp at he
    | cons e es =>
      obtain rfl : e = p := by simpa using he
      rw [Nat.add_zero] at hk
      simp only [gatherFrom, BitVec.getLsbD_or, Nat.add_zero, gatherFrom_outside x (k + 1) es (.inl (Nat.lt_succ_self k)),
        Bool.or_false]
      split <;> simp_all
  | succ i ih =>
    intro k es he hk
    cases es with
    | nil => simp at he
    | cons e es =>
      rw [List.getElem?_cons_succ] at he
      have h1 : k + (i + 1) = k + 1 + i := by omega
      have hne : decide (k = k + 1 + i) = false := by simp; omega
      rw [h1]
      simp only [gatherFrom, BitVec.getLsbD_or, ih (k + 1) es he (by omega)]
      split <;> simp [BitVec.getLsbD_twoPow, hne]

/-- Dense bit `k` of a list counted from its end. -/
theorem reverse_at {L : List Nat} {k : Nat} (hk : k < L.length) :
    L.reverse[k]? = some (L.getD (L.length - 1 - k) 0) := by
  rw [List.getElem?_reverse hk, List.getD_eq_getElem?_getD, List.getElem?_eq_getElem (by omega)]
  rfl

/-- Where dense bit `k` goes (R92). -/
theorem scatter_at (x : BitVec W) {L : List Nat} (hL : validPerm W L) {k : Nat} (hk : k < L.length) :
    (scatter x L).getLsbD (L.getD (L.length - 1 - k) 0) = x.getLsbD k := by
  have hm : L.getD (L.length - 1 - k) 0 ∈ L := by
    rw [← List.mem_reverse]; exact List.mem_of_getElem? (reverse_at hk)
  have := scatterFrom_at x (hL.2.2.1 _ hm) 0 L.reverse (List.nodup_reverse.2 hL.2.2.2) (reverse_at hk)
  rwa [Nat.zero_add] at this

theorem scatter_of_notMem (x : BitVec W) {L : List Nat} {p : Nat} (hp : p ∉ L) : (scatter x L).getLsbD p = false :=
  scatterFrom_of_notMem x 0 L.reverse (by rwa [List.mem_reverse])

/-- Where dense bit `k` comes from (R93). -/
theorem gather_at (x : BitVec W) {L : List Nat} (hL : validPerm W L) {k : Nat} (hk : k < L.length) :
    (gather x L).getLsbD k = x.getLsbD (L.getD (L.length - 1 - k) 0) := by
  have := gatherFrom_at x 0 L.reverse (reverse_at hk) (by have := hL.2.1; omega)
  rwa [Nat.zero_add] at this

theorem gather_above (x : BitVec W) {L : List Nat} {k : Nat} (hk : L.length ≤ k) : (gather x L).getLsbD k = false :=
  gatherFrom_outside x 0 L.reverse (.inr (by rwa [Nat.zero_add, List.length_reverse]))

theorem permMask_getLsbD {p : Nat} (hp : p < W) :
    ∀ L : List Nat, (permMask W L).getLsbD p = decide (p ∈ L)
  | [] => by simp [permMask]
  | e :: es => by
    rw [permMask, BitVec.getLsbD_or, permMask_getLsbD hp es, BitVec.getLsbD_twoPow]
    by_cases h1 : p = e <;> by_cases h2 : p ∈ es <;> simp_all [eq_comm]

end Sys2Proof.Machine
end

