-- ==== Sys2Proof/Tests/Slice0.lean ====
section
/-! SUPPORT. The model's own tests. Expected results come from `95_test_vectors.md` (the vector or program is named) or are worked out
by hand from the rule named; the model's own answers are nowhere pasted in. -/

namespace Sys2Proof.Tests

open Machine

/-! ## Helpers -/

/-- The two bytes of a 16-bit word in the buffer (R42). -/
def bytesOf (h : Half) : List Byte := [h.extractLsb' 0 8, h.extractLsb' 8 8]

/-- A machine whose two iterators stand at a cursor over the same bytes. -/
def walkAt (bs : List Byte) (cursor : Nat := 0) (base : Addr := 0#64) : State :=
  { State.reset with ins := ⟨Memory.ofBytes bs, cursor⟩, loc := ⟨Memory.ofBytes bs, base, cursor⟩ }

/-- The same with one call queued. -/
def calling (c : HostCall) (s : State) : State := { s with requests := [.call c] }

/-- What a test looks at after an instruction: the outputs, the cursor, the last item. -/
def walked : Result → Option (Status × Word × Nat × Option Item)
  | .next s => some (s.statusO, s.wordO, s.ins.cursor, s.insItems.getLast?)
  | .fault _ => none
  | .refused _ => none

/-- What a test looks at after `LocationIter.next()`: the addresses, the cursor, the end. -/
def located : Result → Option (List Addr × Nat × Bool)
  | .next s => some (s.locItems, s.loc.cursor, s.locEnded)
  | .fault _ => none
  | .refused _ => none

def faultOf : Result → Option Fault
  | .next _ => none
  | .fault f => some f
  | .refused _ => none

def refusalOf : Result → Option Refusal
  | .next _ => none
  | .fault _ => none
  | .refused r => some r

/-- A step over one 2-byte instruction leaves the outputs `(st, w)`, the cursor at 2 and that result as the item. -/
abbrev Steps (h : Half) (st : Status) (w : Word) : Prop :=
  walked (step (walkAt (bytesOf h))) = some (st, w, 2, some (.block ⟨st, w⟩))

/-! ## Every constructor: the word written out from the spec's encoding, what it decodes to, and what one step leaves -/

/-- V-Q0. -/
theorem test_q0c000 :
    decodeBytes (bytesOf 0b0000000000000100#16) = .ok (.q0c000 0x001#11, []) ∧ Steps 0x0004#16 .illegal 0x00000000#32 := by
  decide

/-- V-Q0. -/
theorem test_q0c001Fld :
    decodeBytes (bytesOf 0b0011111111111100#16) = .ok (.q0c001Fld 0x7FF#11, []) ∧ Steps 0x3FFC#16 .unimplemented 0x00000000#32 := by
  decide

/-- V-Q0. -/
theorem test_q0c010Lw :
    decodeBytes (bytesOf 0b0100000000000000#16) = .ok (.q0c010Lw 0x000#11, []) ∧ Steps 0x4000#16 .unimplemented 0x00000000#32 := by
  decide

/-- V-Q0. -/
theorem test_q0c011Ld :
    decodeBytes (bytesOf 0b0110000000000000#16) = .ok (.q0c011Ld 0x000#11, []) ∧ Steps 0x6000#16 .unimplemented 0x00000000#32 := by
  decide

/-- V-Q0. -/
theorem test_q0c100 :
    decodeBytes (bytesOf 0b1001111111111100#16) = .ok (.q0c100 0x7FF#11, []) ∧ Steps 0x9FFC#16 .reserved 0x00000000#32 := by
  decide

/-- V-Q0. -/
theorem test_q0c101Fsd :
    decodeBytes (bytesOf 0b1010000000000000#16) = .ok (.q0c101Fsd 0x000#11, []) ∧ Steps 0xA000#16 .unimplemented 0x00000000#32 := by
  decide

/-- V-Q0. -/
theorem test_q0c110Sw :
    decodeBytes (bytesOf 0b1100000000000000#16) = .ok (.q0c110Sw 0x000#11, []) ∧ Steps 0xC000#16 .unimplemented 0x00000000#32 := by
  decide

/-- V-Q0. -/
theorem test_q0c111Sd :
    decodeBytes (bytesOf 0b1111111111111100#16) = .ok (.q0c111Sd 0x7FF#11, []) ∧ Steps 0xFFFC#16 .unimplemented 0x00000000#32 := by
  decide

/-- V-Q1. -/
theorem test_q1c000 :
    decodeBytes (bytesOf 0b0000000000000001#16) = .ok (.q1c000 0x000#11, []) ∧ Steps 0x0001#16 .unimplemented 0x00000000#32 := by
  decide

/-- V-Q1. -/
theorem test_q1c001 :
    decodeBytes (bytesOf 0b0010000000000001#16) = .ok (.q1c001 0x000#11, []) ∧ Steps 0x2001#16 .unimplemented 0x00000000#32 := by
  decide

/-- V-Q1, `c.li x2, -16`. -/
theorem test_cLi :
    decodeBytes (bytesOf 0b0101000101000001#16) = .ok (.cLi 2#5 0b110000#6, []) ∧ Steps 0x5141#16 .ok 0xFF000113#32 := by
  decide

/-- V-Q1, `c.li x31, -1`. -/
theorem test_cLi_allOnes :
    decodeBytes (bytesOf 0b0101111111111101#16) = .ok (.cLi 31#5 0b111111#6, []) ∧ Steps 0x5FFD#16 .ok 0xFFF00F93#32 := by
  decide

/-- V-Q1, `c.li x0, -1`. -/
theorem test_cLiRd0 :
    decodeBytes (bytesOf 0b0101000001111101#16) = .ok (.cLiRd0 0b111111#6, []) ∧ Steps 0x507D#16 .reserved 0x00000000#32 := by
  decide

/-- V-Q1. -/
theorem test_q1c011 :
    decodeBytes (bytesOf 0b0110000000000001#16) = .ok (.q1c011 0x000#11, []) ∧ Steps 0x6001#16 .unimplemented 0x00000000#32 := by
  decide

/-- V-Q1. -/
theorem test_miscAlu00 :
    decodeBytes (bytesOf 0b1001001111111101#16) = .ok (.miscAlu00 1#1 0xFF#8, []) ∧ Steps 0x93FD#16 .unimplemented 0x00000000#32 := by
  decide

/-- V-Q1. -/
theorem test_miscAlu01 :
    decodeBytes (bytesOf 0b1000011111111101#16) = .ok (.miscAlu01 0#1 0xFF#8, []) ∧ Steps 0x87FD#16 .unimplemented 0x00000000#32 := by
  decide

/-- V-Q1. -/
theorem test_miscAlu10 :
    decodeBytes (bytesOf 0b1000100000000001#16) = .ok (.miscAlu10 0#1 0x00#8, []) ∧ Steps 0x8801#16 .unimplemented 0x00000000#32 := by
  decide

/-- V-Q1, `c.sub x11, x10`. -/
theorem test_cSub :
    decodeBytes (bytesOf 0b1000110110001001#16) = .ok (.cSub 3#3 2#3, []) ∧ Steps 0x8D89#16 .ok 0x40A585B3#32 := by
  decide

/-- V-Q1, `c.sub x15, x15`. -/
theorem test_cSub_largest :
    decodeBytes (bytesOf 0b1000111110011101#16) = .ok (.cSub 7#3 7#3, []) ∧ Steps 0x8F9D#16 .ok 0x40F787B3#32 := by
  decide

/-- V-Q1. -/
theorem test_misc11s001 :
    decodeBytes (bytesOf 0b1000111110111101#16) = .ok (.misc11s001 7#3 7#3, []) ∧ Steps 0x8FBD#16 .unimplemented 0x00000000#32 := by
  decide

/-- V-Q1. -/
theorem test_misc11s010 :
    decodeBytes (bytesOf 0b1000110001000001#16) = .ok (.misc11s010 0#3 0#3, []) ∧ Steps 0x8C41#16 .unimplemented 0x00000000#32 := by
  decide

/-- V-Q1. -/
theorem test_misc11s011 :
    decodeBytes (bytesOf 0b1000111111111101#16) = .ok (.misc11s011 7#3 7#3, []) ∧ Steps 0x8FFD#16 .unimplemented 0x00000000#32 := by
  decide

/-- V-Q1. -/
theorem test_misc11s100 :
    decodeBytes (bytesOf 0b1001110000000001#16) = .ok (.misc11s100 0#3 0#3, []) ∧ Steps 0x9C01#16 .unimplemented 0x00000000#32 := by
  decide

/-- V-Q1. -/
theorem test_misc11s101 :
    decodeBytes (bytesOf 0b1001111110111101#16) = .ok (.misc11s101 7#3 7#3, []) ∧ Steps 0x9FBD#16 .unimplemented 0x00000000#32 := by
  decide

/-- V-Q1. -/
theorem test_misc11s110 :
    decodeBytes (bytesOf 0b1001110001000001#16) = .ok (.misc11s110 0#3 0#3, []) ∧ Steps 0x9C41#16 .reserved 0x00000000#32 := by
  decide

/-- V-Q1. -/
theorem test_misc11s111 :
    decodeBytes (bytesOf 0b1001111111111101#16) = .ok (.misc11s111 7#3 7#3, []) ∧ Steps 0x9FFD#16 .reserved 0x00000000#32 := by
  decide

/-- V-Q1. -/
theorem test_q1c101 :
    decodeBytes (bytesOf 0b1010000000000001#16) = .ok (.q1c101 0x000#11, []) ∧ Steps 0xA001#16 .unimplemented 0x00000000#32 := by
  decide

/-- V-Q1. -/
theorem test_q1c110 :
    decodeBytes (bytesOf 0b1100000000000001#16) = .ok (.q1c110 0x000#11, []) ∧ Steps 0xC001#16 .unimplemented 0x00000000#32 := by
  decide

/-- V-Q1. -/
theorem test_q1c111 :
    decodeBytes (bytesOf 0b1110000000000001#16) = .ok (.q1c111 0x000#11, []) ∧ Steps 0xE001#16 .unimplemented 0x00000000#32 := by
  decide

/-- V-Q2. -/
theorem test_q2c000 :
    decodeBytes (bytesOf 0b0000000000000010#16) = .ok (.q2c000 0x000#11, []) ∧ Steps 0x0002#16 .unimplemented 0x00000000#32 := by
  decide

/-- V-Q2. -/
theorem test_q2c001 :
    decodeBytes (bytesOf 0b0010000000000010#16) = .ok (.q2c001 0x000#11, []) ∧ Steps 0x2002#16 .unimplemented 0x00000000#32 := by
  decide

/-- V-Q2, `c.lwsp x2, 100(sp)`. -/
theorem test_cLwsp :
    decodeBytes (bytesOf 0b0101000100010110#16) = .ok (.cLwsp 2#5 0b100101#6, []) ∧ Steps 0x5116#16 .ok 0x06412103#32 := by
  decide

/-- V-Q2, `c.lwsp x1, 64(sp)`: not 0 and not 1, the two wrong readings. -/
theorem test_cLwsp_bit6 :
    decodeBytes (bytesOf 0b0100000010000110#16) = .ok (.cLwsp 1#5 0b000001#6, []) ∧ Steps 0x4086#16 .ok 0x04012083#32 := by
  decide

/-- V-Q2, `c.lwsp x0, 252(sp)`. -/
theorem test_cLwspRd0 :
    decodeBytes (bytesOf 0b0101000001111110#16) = .ok (.cLwspRd0 0b111111#6, []) ∧ Steps 0x507E#16 .reserved 0x00000000#32 := by
  decide

/-- V-Q2. -/
theorem test_q2c011 :
    decodeBytes (bytesOf 0b0110000000000010#16) = .ok (.q2c011 0x000#11, []) ∧ Steps 0x6002#16 .unimplemented 0x00000000#32 := by
  decide

/-- V-Q2. -/
theorem test_q2c100 :
    decodeBytes (bytesOf 0b1001000000000010#16) = .ok (.q2c100 0x400#11, []) ∧ Steps 0x9002#16 .unimplemented 0x00000000#32 := by
  decide

/-- V-Q2. -/
theorem test_q2c101 :
    decodeBytes (bytesOf 0b1010000000000010#16) = .ok (.q2c101 0x000#11, []) ∧ Steps 0xA002#16 .unimplemented 0x00000000#32 := by
  decide

/-- V-Q2. -/
theorem test_q2c110 :
    decodeBytes (bytesOf 0b1100000000000010#16) = .ok (.q2c110 0x000#11, []) ∧ Steps 0xC002#16 .unimplemented 0x00000000#32 := by
  decide

/-- V-Q2. -/
theorem test_q2c111 :
    decodeBytes (bytesOf 0b1110000000000010#16) = .ok (.q2c111 0x000#11, []) ∧ Steps 0xE002#16 .unimplemented 0x00000000#32 := by
  decide

/-- V-TOP (`0x8C07` on the outputs), R43 (the item). -/
theorem test_notCompressed :
    decodeBytes [0x07#8, 0x8C#8, 0x34#8, 0x12#8] = .ok (.notCompressed 0x12348C07#32, []) ∧
    walked (step (walkAt [0x07#8, 0x8C#8, 0x34#8, 0x12#8])) =
      some (.notCompressed, 0#32, 4, some (.full 0x12348C07#32)) := by
  decide

/-- P6, V-BLD. -/
theorem test_addi :
    decodeBytes [0x13#8, 0x05#8, 0x50#8, 0x00#8] = .ok (.addi 10#5 0#5 5#12, []) ∧
    walked (step (walkAt [0x13#8, 0x05#8, 0x50#8, 0x00#8])) =
      some (.notCompressed, 0#32, 4, some (.full 0x00500513#32)) := by
  decide

/-- V-BLD. -/
theorem test_lw :
    decodeBytes [0x03#8, 0x25#8, 0xC1#8, 0x00#8] = .ok (.lw 10#5 12#12, []) ∧
    walked (step (walkAt [0x03#8, 0x25#8, 0xC1#8, 0x00#8])) =
      some (.notCompressed, 0#32, 4, some (.full 0x00C12503#32)) := by
  decide

/-- P2. -/
theorem test_sub :
    decodeBytes [0x33#8, 0x05#8, 0xB5#8, 0x40#8] = .ok (.sub 10#5 10#5 11#5, []) ∧
    walked (step (walkAt [0x33#8, 0x05#8, 0xB5#8, 0x40#8])) =
      some (.notCompressed, 0#32, 4, some (.full 0x40B50533#32)) := by
  decide

/-! ## Ill-formed terms -/

theorem test_wellFormed_refuses_cLi_rd0 : (Instr.cLi 0#5 5#6).wellFormed = false := by decide
theorem test_wellFormed_refuses_cLwsp_rd0 : (Instr.cLwsp 0#5 5#6).wellFormed = false := by decide
/-- Bit 1, then bit 0, of the word is not set. -/
theorem test_wellFormed_refuses_compressed_full :
    (Instr.notCompressed 0xFFFF0001#32).wellFormed = false ∧ (Instr.notCompressed 0xFFFF0002#32).wellFormed = false := by decide
theorem test_wellFormed_refuses_addi_word : (Instr.notCompressed 0x00500513#32).wellFormed = false := by decide
theorem test_wellFormed_refuses_lw_word : (Instr.notCompressed 0x00C12503#32).wellFormed = false := by decide
theorem test_wellFormed_refuses_sub_word : (Instr.notCompressed 0x40B50533#32).wellFormed = false := by decide
/-- A load from another base is no `LW rd, imm(sp)` (R110). -/
theorem test_wellFormed_keeps_other_load : (Instr.notCompressed 0x00C1A503#32).wellFormed = true := by decide

theorem test_decode_rejects :
    decodeBytes [] = .error .empty ∧ decodeBytes [0x13#8] = .error .oneByte ∧
    decodeBytes [0x13#8, 0x05#8] = .error .cutShort ∧ decodeBytes [0x13#8, 0x05#8, 0x50#8] = .error .cutShort := by decide

/-! ## The parts of the block -/

/-- V-PERM, the list of the block: one bit at a time, the extremes, ignored bits. -/
theorem test_scatter_lwsp :
    ([0x01, 0x02, 0x04, 0x08, 0x10, 0x20, 0x3F, 0x25, 0xFFFF, 0xFFC0].map
      fun n => (scatter (BitVec.ofNat 16 n) Config.lwspPerm).toNat) = [64, 128, 4, 8, 16, 32, 252, 100, 252, 0] := by decide

/-- V-PERM. -/
theorem test_gather_lwsp :
    ([0x40, 0x80, 0x04, 0x08, 0x10, 0x20, 0xFFFF, 0xFF03, 0x64].map
      fun n => (gather (BitVec.ofNat 16 n) Config.lwspPerm).toNat) = [1, 2, 4, 8, 16, 32, 0x3F, 0, 0x25] := by decide

/-- V-PERM, `L = [0,2,1]`: swapped directions fail this table. -/
theorem test_scatter_and_gather_differ :
    ((List.range 8).map fun n => (scatter (BitVec.ofNat 16 n) [0, 2, 1]).toNat) = [0, 2, 4, 6, 1, 3, 5, 7] ∧
    ((List.range 8).map fun n => (gather (BitVec.ofNat 16 n) [0, 2, 1]).toNat) = [0, 4, 1, 5, 2, 6, 3, 7] := by decide

/-- V-PERM, the 32-bit unit and the refused lists. -/
theorem test_permutation_units :
    scatter 0b11#32 [31, 0] = 0x80000001#32 ∧ gather 0x80000000#32 [31, 0] = 0b10#32 ∧
    (scatterUnit 16 [16]).isSome = false ∧ (scatterUnit 16 [3, 3]).isSome = false ∧
    (gatherUnit 16 (List.range 17)).isSome = false ∧ (scatterUnit 16 [15]).isSome = true ∧
    (gatherUnit 16 [3, 2]).isSome = true ∧ (gatherUnit 8 [3, 2]).isSome = false := by decide

/-- V-IMM. -/
theorem test_ciRaw :
    ([0x0000, 0x1000, 0x007C, 0x107C, 0xEF83, 0xFFFF, 0x4515, 0x50FD, 0x4532].map
      fun n => (ciRaw (BitVec.ofNat 16 n)).toNat) = [0, 32, 31, 63, 0, 63, 5, 63, 12] := by decide

/-- V-BLD. -/
theorem test_builders :
    buildSub 8#5 8#5 9#5 = 0x40940433#32 ∧ buildSub 31#5 31#5 31#5 = 0x41FF8FB3#32 ∧
    buildR 0x7F#7 31#5 31#5 7#3 31#5 0x7F#7 = 0xFFFFFFFF#32 ∧ buildAddi 31#5 31#5 0x800#12 = 0x800F8F93#32 ∧
    buildLw 31#5 0xFFF#12 = 0xFFF12F83#32 ∧ buildI 0xABC#12 0x15#5 0x5#3 0x0A#5 0x55#7 = 0xABCAD555#32 := by decide

/-- V-TOP: a quadrant decoder called with a word of another quadrant (D11). -/
theorem test_quadrant_decoders_ignore_op :
    decompressQ0 0x4515#16 = ⟨.unimplemented, 0#32⟩ ∧ decompressQ1 0x4532#16 = ⟨.ok, 0x00C00513#32⟩ ∧
    decompressQ2 0x4515#16 = ⟨.ok, 0x04412503#32⟩ := by decide

/-- R232: code 5 stands for no status. -/
theorem test_status_codes : Status.ofCode 4#3 = some .notCompressed ∧ Status.ofCode 5#3 = none := by decide

/-- R6, D5, D6: another build classifies those words otherwise, and only those. -/
theorem test_other_parameters :
    decompress 0x4001#16 { Config.r6 with rd0Class := .illegal, errWord := 1#32 } = ⟨.illegal, 1#32⟩ ∧
    decompress 0x8C21#16 { Config.r6 with miscOtherClass := .reserved } = ⟨.reserved, 0#32⟩ ∧
    decompress 0x4515#16 { Config.r6 with rd0Class := .illegal, spReg := 9#5 } = ⟨.ok, 0x00500513#32⟩ := by decide

/-! ## The walk -/

/-- P2, at an offset that is 2 modulo 4. -/
theorem test_walk_full_at_two_mod_four :
    walked (step (walkAt [0x13#8, 0x05#8, 0x50#8, 0x00#8, 0xF5#8, 0x55#8, 0x33#8, 0x05#8, 0xB5#8, 0x40#8, 0xFE#8, 0x50#8] 6)) =
      some (.notCompressed, 0#32, 10, some (.full 0x40B50533#32)) := by decide

/-- P4: cut short in `InstructionIter`, one address and cursor 4 in `LocationIter`. -/
theorem test_walk_cut_short :
    faultOf (step (walkAt [0x13#8, 0x05#8])) = some .truncated ∧
    located (step (calling .nextLocation (walkAt [0x13#8, 0x05#8] 0 0x2000#64))) = some ([0x2000#64], 4, false) := by decide

/-- P5, second step: an odd byte left over, in both iterators. -/
theorem test_walk_odd_byte :
    faultOf (step (walkAt [0x81#8, 0x40#8, 0x13#8] 2)) = some .truncated ∧
    faultOf (step (calling .nextLocation (walkAt [0x81#8, 0x40#8, 0x13#8] 2))) = some .truncated := by decide

/-- P6: over an empty buffer both iterators yield nothing; also the second step over one 4-byte instruction. -/
theorem test_walk_ends :
    walked (step State.reset) = some (.illegal, 0#32, 0, none) ∧
    located (step (calling .nextLocation State.reset)) = some ([], 0, true) ∧
    walked (step (walkAt [0x13#8, 0x05#8, 0x50#8, 0x00#8] 4)) = some (.illegal, 0#32, 4, none) := by decide

/-- P2, the third address; R193, an address past 2^64 wraps. -/
theorem test_location_addresses :
    located (step (calling .nextLocation
      (walkAt [0x13#8, 0x05#8, 0x50#8, 0x00#8, 0xF5#8, 0x55#8, 0x33#8, 0x05#8, 0xB5#8, 0x40#8] 6 0x80000000#64))) =
      some ([0x80000006#64], 10, false) ∧
    located (step (calling .nextLocation (walkAt [0x81#8, 0x40#8, 0x81#8, 0x40#8] 2 0xFFFFFFFFFFFFFFFE#64))) =
      some ([0x0#64], 4, false) := by decide

/-- R198, with a classifier that answers 6, in both iterators. -/
theorem test_bad_length :
    faultOf (instructionNextOf Config.r6 (fun _ => 6) (walkAt [0x81#8, 0x40#8])) = some .badLength ∧
    faultOf (locationNextOf (fun _ => 6) (walkAt [0x81#8, 0x40#8])) = some .badLength := by decide

/-- R21, R116: with a classifier that answers 4 the outputs are still the block's function of the word presented. -/
theorem test_outputs_follow_any_length :
    walked (instructionNextOf Config.r6 (fun _ => 4) (walkAt [0x00#8, 0x00#8, 0x13#8, 0x05#8])) =
      some (.illegal, 0#32, 4, some (.full 0x05130000#32)) := by decide

/-! ## Calls -/

/-- V-Q1, `c.li x10, 5`, held on `instr_i`; the iterators stay (R21). -/
theorem test_present :
    walked (step (calling (.present 0x4515#16) (walkAt [0x13#8]))) = some (.ok, 0x00500513#32, 0, none) := by decide

/-- R192. -/
theorem test_new_iterators :
    (match step (calling (.newInstructionIter [0x00#8, 0x81#8]) (walkAt [0x13#8] 1)) with
      | .next s => some (s.ins, s.insItems, s.insEnded) | .fault _ => none | .refused _ => none) =
      some (⟨⟨2, [(1, 0x81#8)]⟩, 0⟩, [], false) ∧
    (match step (calling (.newLocationIter [0x00#8, 0x81#8] 7#64) (walkAt [0x13#8] 1)) with
      | .next s => some (s.loc, s.locItems, s.locEnded) | .fault _ => none | .refused _ => none) =
      some (⟨⟨2, [(1, 0x81#8)]⟩, 7#64, 0⟩, [], false) := by decide

/-! ## The loader -/

/-- An execute-only and a read-write segment. -/
def codeHeader (bs : List Byte) : ProgramHeader := ⟨true, false, false, true, bs⟩

def dataHeader (bs : List Byte) : ProgramHeader := ⟨true, true, true, false, bs⟩

def image (headers : List ProgramHeader) : ElfImage := ⟨true, true, false, headers, 0x10000#64⟩

/-- The result of the last decoding load, if a call left one. -/
def decodedOf : Result → Option (Except LoaderError DecodedRiscuProgram)
  | .next s => s.decodedProgram
  | .fault _ => none
  | .refused _ => none

/-- S11: well formed, in either order and beside a header that is not `PT_LOAD`. -/
theorem test_load :
    loadObjectFile (.image (image [dataHeader [1#8], ⟨false, true, false, false, [9#8]⟩, codeHeader [2#8]])) =
      .ok ⟨[2#8], [1#8], 0x10000#64⟩ := by decide

/-- S11: three segments, no execute-only segment, the wrong kind of image; R202, no read-write segment; R203, the first failing
one of two; R209. -/
theorem test_load_errors :
    loadObjectFile (.image (image [codeHeader [], dataHeader [], dataHeader []])) = .error (.shape .twoSegments) ∧
    loadObjectFile (.image (image [⟨true, true, false, true, []⟩, dataHeader []])) = .error (.shape .codeSegment) ∧
    loadObjectFile (.image (image [codeHeader [], ⟨true, true, false, false, []⟩])) = .error (.shape .dataSegment) ∧
    loadObjectFile (.image ⟨false, true, false, [], 0#64⟩) = .error (.shape .imageKind) ∧
    loadObjectFile (.image ⟨true, true, true, [codeHeader [], dataHeader []], 0#64⟩) = .error (.shape .imageKind) ∧
    loadObjectFile .unreadable = .error .fileIo ∧ loadObjectFile .unparsable = .error .elfParse := by decide

/-- R44, R205: the code word and a data word, little-endian. -/
theorem test_load_and_decode :
    decodedOf (step (calling (.loadAndDecodeObjectFile (.image (image
      [codeHeader [0x13#8, 0x05#8, 0x50#8, 0x00#8], dataHeader [1#8, 2#8, 3#8, 4#8, 5#8, 6#8, 7#8, 8#8]]))) State.reset)) =
      some (.ok ⟨[⟨0x00500513#32⟩], [0x0807060504030201#64], 0x10000#64⟩) := by decide

/-- R208: the second code word is the 16-bit-origin word `0x0000`. -/
theorem test_load_and_decode_aborts :
    decodedOf (step (calling (.loadAndDecodeObjectFile (.image (image
      [codeHeader [0x13#8, 0x05#8, 0x50#8, 0x00#8, 0#8, 0#8, 0#8, 0#8], dataHeader []]))) State.reset)) =
      some (.error (.decoding .illegal)) := by decide

/-- R206, R207. -/
theorem test_load_and_decode_lengths :
    faultOf (step (calling (.loadAndDecodeObjectFile (.image (image [codeHeader [1#8], dataHeader [1#8]]))) State.reset)) =
      some .codeSegmentLength ∧
    refusalOf (step (calling (.loadAndDecodeObjectFile (.image (image [codeHeader [], dataHeader [1#8]]))) State.reset)) =
      some .dataSegmentLength := by decide

/-- R185, R195: `decode` of zero-extended 2-byte words. -/
theorem test_decode_half_origin :
    decode 0x00004515#32 = .ok ⟨0x00500513#32⟩ ∧ decode 0x00000000#32 = .error .illegal ∧
    decode 0x00004001#32 = .error .reserved ∧ decode 0x0000A001#32 = .error .unimplemented := by decide

/-! ## The host's two ways in -/

/-- V-Q1 and P2 words as the opcode table numbers their bits; bits above `nbits` are dropped. -/
theorem test_decodeTableWord :
    decodeTableWord 16 0x4515 = some (.cLi 10#5 5#6) ∧ decodeTableWord 32 0x40B50533 = some (.sub 10#5 10#5 11#5) ∧
    decodeTableWord 16 0xFFFF4515 = some (.cLi 10#5 5#6) ∧ decodeTableWord 16 0x0003 = some (.notCompressed 0x00000003#32) := by
  decide

/-- The placed word is what the first step after reset runs. -/
theorem test_withFetchWord :
    walked (step (State.reset.withFetchWord 16 0x8C05)) = some (.ok, 0x40940433#32, 2, some (.block ⟨.ok, 0x40940433#32⟩)) ∧
    walked (step (State.reset.withFetchWord 32 0x00500513)) = some (.notCompressed, 0#32, 4, some (.full 0x00500513#32)) := by
  decide

/-! ## Witnesses: every statement of `Obligations.lean` that has hypotheses, with concrete states and operands that meet them -/

theorem witness_CLiExpandsToAddi :
    (31#5 : RegId) ≠ 0#5 ∧ (1#5 : RegId) ≠ 0#5 ∧
    (0x4081#16 : Half) &&& 0xE003#16 = 0x4001#16 ∧ (0x4081#16 : Half).extractLsb' 7 5 ≠ 0#5 ∧
    (0x5FFD#16 : Half) &&& 0xE003#16 = 0x4001#16 ∧ (0x5FFD#16 : Half).extractLsb' 7 5 ≠ 0#5 := by decide

theorem witness_CSubExpandsToSub :
    (0x8C01#16 : Half) &&& 0xFC63#16 = 0x8C01#16 ∧ (0x8F9D#16 : Half) &&& 0xFC63#16 = 0x8C01#16 := by decide

theorem witness_CLwspExpandsToLw :
    (31#5 : RegId) ≠ 0#5 ∧ (1#5 : RegId) ≠ 0#5 ∧
    (0x4082#16 : Half) &&& 0xE003#16 = 0x4002#16 ∧ (0x4082#16 : Half).extractLsb' 7 5 ≠ 0#5 ∧
    (0x5FFE#16 : Half) &&& 0xE003#16 = 0x4002#16 ∧ (0x5FFE#16 : Half).extractLsb' 7 5 ≠ 0#5 := by decide

theorem witness_Quadrant0IllegalAndReserved :
    (0x0000#16 : Half) &&& 0xE003#16 = 0x0000#16 ∧ (0x1FFC#16 : Half) &&& 0xE003#16 = 0x0000#16 ∧
    (0x8000#16 : Half) &&& 0xE003#16 = 0x8000#16 ∧ (0x9FFC#16 : Half) &&& 0xE003#16 = 0x8000#16 := by decide

theorem witness_Quadrant0Unimplemented :
    (0x2000#16 : Half) &&& 0xE003#16 = 0x2000#16 ∧ (0x3FFC#16 : Half) &&& 0xE003#16 = 0x2000#16 ∧
    (0x4000#16 : Half) &&& 0xE003#16 = 0x4000#16 ∧ (0x5FFC#16 : Half) &&& 0xE003#16 = 0x4000#16 ∧
    (0x6000#16 : Half) &&& 0xE003#16 = 0x6000#16 ∧ (0x7FFC#16 : Half) &&& 0xE003#16 = 0x6000#16 ∧
    (0xA000#16 : Half) &&& 0xE003#16 = 0xA000#16 ∧ (0xBFFC#16 : Half) &&& 0xE003#16 = 0xA000#16 ∧
    (0xC000#16 : Half) &&& 0xE003#16 = 0xC000#16 ∧ (0xDFFC#16 : Half) &&& 0xE003#16 = 0xC000#16 ∧
    (0xE000#16 : Half) &&& 0xE003#16 = 0xE000#16 ∧ (0xFFFC#16 : Half) &&& 0xE003#16 = 0xE000#16 := by decide

theorem witness_Quadrant1TopLevelUnimplemented :
    (0x0001#16 : Half) &&& 0xE003#16 = 0x0001#16 ∧ (0x1FFD#16 : Half) &&& 0xE003#16 = 0x0001#16 ∧
    (0x2001#16 : Half) &&& 0xE003#16 = 0x2001#16 ∧ (0x3FFD#16 : Half) &&& 0xE003#16 = 0x2001#16 ∧
    (0x6001#16 : Half) &&& 0xE003#16 = 0x6001#16 ∧ (0x7FFD#16 : Half) &&& 0xE003#16 = 0x6001#16 ∧
    (0xA001#16 : Half) &&& 0xE003#16 = 0xA001#16 ∧ (0xBFFD#16 : Half) &&& 0xE003#16 = 0xA001#16 ∧
    (0xC001#16 : Half) &&& 0xE003#16 = 0xC001#16 ∧ (0xDFFD#16 : Half) &&& 0xE003#16 = 0xC001#16 ∧
    (0xE001#16 : Half) &&& 0xE003#16 = 0xE001#16 ∧ (0xFFFD#16 : Half) &&& 0xE003#16 = 0xE001#16 := by decide

theorem witness_MiscAluUnimplemented :
    (0x8001#16 : Half) &&& 0xEC03#16 = 0x8001#16 ∧ (0x93FD#16 : Half) &&& 0xEC03#16 = 0x8001#16 ∧
    (0x8401#16 : Half) &&& 0xEC03#16 = 0x8401#16 ∧ (0x97FD#16 : Half) &&& 0xEC03#16 = 0x8401#16 ∧
    (0x8801#16 : Half) &&& 0xEC03#16 = 0x8801#16 ∧ (0x9BFD#16 : Half) &&& 0xEC03#16 = 0x8801#16 ∧
    (0x8C21#16 : Half) &&& 0xFC63#16 = 0x8C21#16 ∧ (0x8FBD#16 : Half) &&& 0xFC63#16 = 0x8C21#16 ∧
    (0x8C41#16 : Half) &&& 0xFC63#16 = 0x8C41#16 ∧ (0x8FDD#16 : Half) &&& 0xFC63#16 = 0x8C41#16 ∧
    (0x8C61#16 : Half) &&& 0xFC63#16 = 0x8C61#16 ∧ (0x8FFD#16 : Half) &&& 0xFC63#16 = 0x8C61#16 ∧
    (0x9C01#16 : Half) &&& 0xFC63#16 = 0x9C01#16 ∧ (0x9F9D#16 : Half) &&& 0xFC63#16 = 0x9C01#16 ∧
    (0x9C21#16 : Half) &&& 0xFC63#16 = 0x9C21#16 ∧ (0x9FBD#16 : Half) &&& 0xFC63#16 = 0x9C21#16 := by decide

theorem witness_MiscAluReserved :
    (0x9C41#16 : Half) &&& 0xFC63#16 = 0x9C41#16 ∧ (0x9FDD#16 : Half) &&& 0xFC63#16 = 0x9C41#16 ∧
    (0x9C61#16 : Half) &&& 0xFC63#16 = 0x9C61#16 ∧ (0x9FFD#16 : Half) &&& 0xFC63#16 = 0x9C61#16 := by decide

theorem witness_RdZeroReserved :
    (0x4001#16 : Half) &&& 0xEF83#16 = 0x4001#16 ∧ (0x507D#16 : Half) &&& 0xEF83#16 = 0x4001#16 ∧
    (0x4002#16 : Half) &&& 0xEF83#16 = 0x4002#16 ∧ (0x507E#16 : Half) &&& 0xEF83#16 = 0x4002#16 := by decide

theorem witness_Quadrant2Unimplemented :
    (0x0002#16 : Half) &&& 0xE003#16 = 0x0002#16 ∧ (0x1FFE#16 : Half) &&& 0xE003#16 = 0x0002#16 ∧
    (0x2002#16 : Half) &&& 0xE003#16 = 0x2002#16 ∧ (0x3FFE#16 : Half) &&& 0xE003#16 = 0x2002#16 ∧
    (0x6002#16 : Half) &&& 0xE003#16 = 0x6002#16 ∧ (0x7FFE#16 : Half) &&& 0xE003#16 = 0x6002#16 ∧
    (0x8002#16 : Half) &&& 0xE003#16 = 0x8002#16 ∧ (0x9FFE#16 : Half) &&& 0xE003#16 = 0x8002#16 ∧
    (0xA002#16 : Half) &&& 0xE003#16 = 0xA002#16 ∧ (0xBFFE#16 : Half) &&& 0xE003#16 = 0xA002#16 ∧
    (0xC002#16 : Half) &&& 0xE003#16 = 0xC002#16 ∧ (0xDFFE#16 : Half) &&& 0xE003#16 = 0xC002#16 ∧
    (0xE002#16 : Half) &&& 0xE003#16 = 0xE002#16 ∧ (0xFFFE#16 : Half) &&& 0xE003#16 = 0xE002#16 := by decide

theorem witness_QuadrantThreeNotCompressed :
    (Instr.notCompressed 0x00000003#32).wellFormed = true ∧ (Instr.notCompressed 0xFFFFFFFF#32).wellFormed = true ∧
    (0x0003#16 : Half) &&& 0x0003#16 = 0x0003#16 ∧ (0xFFFF#16 : Half) &&& 0x0003#16 = 0x0003#16 := by decide

theorem witness_TopLevelDispatch :
    (0x0000#16 : Half).extractLsb' 0 2 = 0b00#2 ∧ (0xFFFC#16 : Half).extractLsb' 0 2 = 0b00#2 ∧
    (0x0001#16 : Half).extractLsb' 0 2 = 0b01#2 ∧ (0xFFFD#16 : Half).extractLsb' 0 2 = 0b01#2 ∧
    (0x0002#16 : Half).extractLsb' 0 2 = 0b10#2 ∧ (0xFFFE#16 : Half).extractLsb' 0 2 = 0b10#2 ∧
    (0x0003#16 : Half).extractLsb' 0 2 = 0b11#2 ∧ (0xFFFF#16 : Half).extractLsb' 0 2 = 0b11#2 := by decide

theorem witness_ErrorCarriesZeroWord :
    (∃ t, exec (.cLi 1#5 0#6) State.reset = .next t ∧ t.statusO = .ok) ∧
    ∃ t, exec (.cLiRd0 0#6) State.reset = .next t ∧ t.statusO ≠ .ok := ⟨⟨_, rfl, by decide⟩, ⟨_, rfl, by decide⟩⟩

/-- V-Q1, V-Q2: one word of each OK class. -/
theorem witness_OkExpansionInjective :
    decompress 0x4515#16 = ⟨.ok, 0x00500513#32⟩ ∧ decompress 0x8C01#16 = ⟨.ok, 0x40840433#32⟩ ∧
    decompress 0x4082#16 = ⟨.ok, 0x00012083#32⟩ := by decide

/-- A word of each shape, a load from an offset no multiple of 4, and `ADDI x0, x0, 0`. -/
theorem witness_OkWordsHaveEmittedShape :
    emittedShape 0x00500513#32 = true ∧ emittedShape 0x40840433#32 = true ∧ emittedShape 0x00012083#32 = true ∧
    emittedShape 0x00512083#32 = false ∧ emittedShape 0x00000013#32 = false := by decide

theorem witness_StatusCodes :
    5 ≤ (5#3 : BitVec 3).toNat ∧ 5 ≤ (7#3 : BitVec 3).toNat := by decide

theorem witness_EveryWordOneRow :
    (Instr.cLi 1#5 0#6).wellFormed = true ∧ (Instr.notCompressed 0x00000003#32).wellFormed = true ∧
    (Instr.sub 31#5 0#5 31#5).wellFormed = true := by decide

theorem witness_DecodeEncodeRoundTrip :
    (Instr.cLwsp 31#5 63#6).wellFormed = true ∧ (Instr.notCompressed 0xFFFFFFFF#32).wellFormed = true := by decide

theorem witness_EncodeDecodeRoundTrip :
    decodeBytes [0x15#8, 0x45#8, 0x13#8] = .ok (.cLi 10#5 5#6, [0x13#8]) ∧
    decodeBytes [0x13#8, 0x05#8, 0x50#8, 0x00#8] = .ok (.addi 10#5 0#5 5#12, []) := by decide

/-- For both clauses: an empty queue and a queued `next()`. -/
theorem witness_StepRunsDecodedInstruction :
    (walkAt [0x15#8, 0x45#8]).ins.buffer.readHalf 0 = some 0x4515#16 ∧
    (walkAt [0x15#8, 0x45#8]).ins.buffer.readBytes 0 2 = some [0x15#8, 0x45#8] ∧
    decodeBytes [0x15#8, 0x45#8] = .ok (.cLi 10#5 5#6, []) ∧ (walkAt [0x15#8, 0x45#8]).requests = [] ∧
    ({ walkAt [0x15#8, 0x45#8] with requests := [.nextInstruction] } : State).requests = .nextInstruction :: [] := by decide

theorem witness_StepRefinesBlock :
    (walkAt [0x15#8, 0x45#8]).requests = [] ∧ (walkAt [0x15#8, 0x45#8]).ins.buffer.readHalf 0 = some 0x4515#16 ∧
    (0x4515#16 : Half).extractLsb' 0 2 ≠ 0b11#2 := by decide

theorem witness_StepHandsOnFullWord :
    (walkAt [0x13#8, 0x05#8, 0x50#8, 0x00#8]).requests = [] ∧
    (walkAt [0x13#8, 0x05#8, 0x50#8, 0x00#8]).ins.buffer.readHalf 0 = some 0x0513#16 ∧
    (0x0513#16 : Half).extractLsb' 0 2 = 0b11#2 ∧
    (walkAt [0x13#8, 0x05#8, 0x50#8, 0x00#8]).ins.buffer.readWord 0 = some 0x00500513#32 := by decide

/-- For an empty queue and for two queued requests. -/
theorem witness_WalkEnds :
    (walkAt [0x15#8, 0x45#8] 2).AsksNext [] ∧
    ({ walkAt [0x15#8, 0x45#8] 2 with requests := [.nextInstruction, .nextInstruction] } : State).AsksNext [.nextInstruction] ∧
    (walkAt [0x15#8, 0x45#8] 2).ins.buffer.size ≤ (walkAt [0x15#8, 0x45#8] 2).ins.cursor ∧
    ({ walkAt [0x15#8, 0x45#8] 2 with requests := [.nextInstruction], insEnded := true } : State).AsksNext [] := ⟨.inl ⟨rfl, rfl⟩, .inr rfl, by decide, .inr rfl⟩

/-- One byte left, and three bytes of a 4-byte instruction; nothing queued, and a queued request. -/
theorem witness_StepFaultsExactlyWhenTruncated :
    (walkAt [0x13#8]).AsksNext [] ∧ ({ walkAt [0x13#8] with requests := [.nextInstruction] } : State).AsksNext [] ∧
    (walkAt [0x13#8]).ins.cursor + 1 = (walkAt [0x13#8]).ins.buffer.size ∧
    (walkAt [0x13#8, 0x05#8, 0x50#8]).ins.buffer.readHalf 0 = some 0x0513#16 ∧ (0x0513#16 : Half).extractLsb' 0 2 = 0b11#2 ∧
    (walkAt [0x13#8, 0x05#8, 0x50#8]).ins.buffer.size < 0 + 4 := ⟨.inl ⟨rfl, rfl⟩, .inr rfl, by decide⟩

theorem witness_BadLengthIsDefect :
    (Memory.ofBytes [0x15#8, 0x45#8]).readHalf 0 = some 0x4515#16 ∧ (fun _ : Half => 3) 0x4515#16 ≠ 2 ∧
    (fun _ : Half => 3) 0x4515#16 ≠ 4 := by decide

theorem witness_FetchIsLittleEndian :
    (Memory.ofBytes [0x13#8, 0x05#8, 0x50#8, 0x00#8]).readWord 0 = some 0x00500513#32 := by decide

theorem witness_ExecFrame :
    (∃ t, exec (.cSub 0#3 1#3) State.reset = .next t) ∧ ∃ t, exec (.addi 1#5 0#5 0#12) State.reset = .next t := ⟨⟨_, rfl⟩, ⟨_, rfl⟩⟩

theorem witness_WalkMovesForward :
    (∃ t, step (walkAt [0x15#8, 0x45#8]) = .next t) ∧
    ∀ bytes rest, (walkAt [0x15#8, 0x45#8]).requests ≠ .call (.newInstructionIter bytes) :: rest := ⟨⟨_, rfl⟩, fun _ _ h => nomatch h⟩

/-- Two states with different buffers, cursors and queues, before a 2-byte instruction. -/
theorem witness_AnswerDependsOnFetchedBytesOnly :
    (walkAt [0x15#8, 0x45#8]).AsksNext [] ∧
    ({ walkAt [0x01#8, 0x40#8, 0x15#8, 0x45#8] 2 with requests := [.nextInstruction] } : State).AsksNext [] ∧
    (walkAt [0x15#8, 0x45#8]).ins.buffer.readHalf 0 = some 0x4515#16 ∧
    (walkAt [0x01#8, 0x40#8, 0x15#8, 0x45#8] 2).ins.buffer.readHalf 2 = some 0x4515#16 ∧
    (0x4515#16 : Half).extractLsb' 0 2 ≠ 0b11#2 ∧
    (∃ t, step (walkAt [0x15#8, 0x45#8]) = .next t) ∧
    ∃ t, step { walkAt [0x01#8, 0x40#8, 0x15#8, 0x45#8] 2 with requests := [.nextInstruction] } = .next t := ⟨.inl ⟨rfl, rfl⟩, .inr rfl, by decide, by decide, by decide, ⟨_, rfl⟩, ⟨_, rfl⟩⟩

/-- The same before a 4-byte instruction. -/
theorem witness_AnswerDependsOnFetchedBytesOnly_full :
    (walkAt [0x13#8, 0x05#8, 0x50#8, 0x00#8]).AsksNext [] ∧
    (walkAt [0x01#8, 0x40#8, 0x13#8, 0x05#8, 0x50#8, 0x00#8] 2).AsksNext [] ∧
    (walkAt [0x13#8, 0x05#8, 0x50#8, 0x00#8]).ins.buffer.readHalf 0 = some 0x0513#16 ∧
    (walkAt [0x01#8, 0x40#8, 0x13#8, 0x05#8, 0x50#8, 0x00#8] 2).ins.buffer.readHalf 2 = some 0x0513#16 ∧
    (0x0513#16 : Half).extractLsb' 0 2 = 0b11#2 ∧
    (walkAt [0x13#8, 0x05#8, 0x50#8, 0x00#8]).ins.buffer.readWord 0 =
      (walkAt [0x01#8, 0x40#8, 0x13#8, 0x05#8, 0x50#8, 0x00#8] 2).ins.buffer.readWord 2 ∧
    (∃ t, step (walkAt [0x13#8, 0x05#8, 0x50#8, 0x00#8]) = .next t) ∧
    ∃ t, step (walkAt [0x01#8, 0x40#8, 0x13#8, 0x05#8, 0x50#8, 0x00#8] 2) = .next t := ⟨.inl ⟨rfl, rfl⟩, .inl ⟨rfl, rfl⟩, by decide, by decide, by decide, by decide, ⟨_, rfl⟩, ⟨_, rfl⟩⟩

/-- A state that meets the invariant and has an instruction before it. -/
theorem walkAt_inv : (walkAt [0x15#8, 0x45#8]).Inv where
  outputs := by
    show (⟨.illegal, 0#32⟩ : BlockResult) = decompress 0x0000#16
    decide
  instructions := ⟨by decide, by decide, by decide, by decide, by simp [walkAt, State.reset], by decide⟩
  locations := by refine ⟨?_, ?_, ?_, ?_, ?_, ?_⟩ <;> decide

theorem witness_StepKeepsInvariant : (walkAt [0x15#8, 0x45#8]).Inv ∧ ∃ t, step (walkAt [0x15#8, 0x45#8]) = .next t :=
  ⟨walkAt_inv, _, rfl⟩

theorem witness_PlacedWordRunsNext :
    State.reset.ins.buffer.wf ∧ (Instr.cSub 0#3 1#3).wellFormed = true ∧ (Instr.addi 31#5 31#5 0xFFF#12).wellFormed = true := by decide

theorem witness_PresentedWordGivesItsResult :
    (calling (.present 0x4515#16) State.reset).requests = .call (.present 0x4515#16) :: [] := by decide

/-- The end, one byte left, exactly two bytes left. -/
theorem witness_LocationNextYieldsStartAddress :
    (calling .nextLocation State.reset).requests = .call .nextLocation :: [] ∧
    (calling .nextLocation State.reset).loc.buffer.size ≤ (calling .nextLocation State.reset).loc.cursor ∧
    (calling .nextLocation (walkAt [0x13#8])).loc.cursor + 1 = (calling .nextLocation (walkAt [0x13#8])).loc.buffer.size ∧
    (calling .nextLocation (walkAt [0x13#8, 0x05#8])).loc.buffer.readHalf 0 = some 0x0513#16 := by decide

theorem witness_IteratorsAgree :
    (walkAt [0x15#8, 0x45#8]).requests = [] ∧ (walkAt [0x15#8, 0x45#8]).loc.buffer = (walkAt [0x15#8, 0x45#8]).ins.buffer ∧
    (walkAt [0x15#8, 0x45#8]).loc.cursor = (walkAt [0x15#8, 0x45#8]).ins.cursor ∧ ∃ t, step (walkAt [0x15#8, 0x45#8]) = .next t := ⟨by decide, by decide, by decide, _, rfl⟩

theorem witness_NewInstructionIterHoldsBytes :
    (calling (.newInstructionIter [0x13#8]) State.reset).requests = .call (.newInstructionIter [0x13#8]) :: [] := by decide

theorem witness_NewLocationIterHoldsBytes :
    (calling (.newLocationIter [0x13#8] 4#64) State.reset).requests = .call (.newLocationIter [0x13#8] 4#64) :: [] := by decide

theorem witness_LoaderAcceptsExactly :
    loadObjectFile (.image (image [codeHeader [2#8], dataHeader [1#8]])) = .ok ⟨[2#8], [1#8], 0x10000#64⟩ := by decide

/-- One image for each clause. -/
theorem witness_LoaderReportsFirstFailure :
    (calling (.loadObjectFile .unreadable) State.reset).requests = .call (.loadObjectFile .unreadable) :: [] ∧
    ¬ ((⟨true, false, false, [], 0#64⟩ : ElfImage).is64 = true ∧ (⟨true, false, false, [], 0#64⟩ : ElfImage).littleEndian = true ∧
      (⟨true, false, false, [], 0#64⟩ : ElfImage).library = false) ∧
    ((image [codeHeader []]).headers.filter (fun x => x.ptLoad)).length ≠ 2 ∧
    ((image [dataHeader [], dataHeader []]).headers.filter (fun x => x.ptLoad)).length = 2 ∧
    (((image [dataHeader [], dataHeader []]).headers.filter (fun x => x.ptLoad)).filter
      (fun x => !x.readable && !x.writable && x.executable)).length ≠ 1 ∧
    (((image [codeHeader [], ⟨true, true, false, false, []⟩]).headers.filter (fun x => x.ptLoad)).filter
      (fun x => !x.readable && !x.writable && x.executable)).length = 1 ∧
    (((image [codeHeader [], ⟨true, true, false, false, []⟩]).headers.filter (fun x => x.ptLoad)).filter
      (fun x => x.readable && x.writable && !x.executable)).length ≠ 1 := by decide

/-- A file that loads, with given segments. -/
def goodFile (code data : List Byte) : ElfFile := .image (image [codeHeader code, dataHeader data])

/-- A file for each of the two checks. -/
theorem witness_DecodingLoaderChecksLengths :
    (calling (.loadAndDecodeObjectFile (goodFile [1#8] [])) State.reset).requests =
      .call (.loadAndDecodeObjectFile (goodFile [1#8] [])) :: [] ∧
    loadObjectFile (goodFile [1#8] []) = .ok ⟨[1#8], [], 0x10000#64⟩ ∧ [1#8].length % 4 ≠ 0 ∧
    loadObjectFile (goodFile [] [1#8]) = .ok ⟨[], [1#8], 0x10000#64⟩ ∧ ([] : List Byte).length % 4 = 0 ∧ [1#8].length % 8 ≠ 0 := by decide

/-- For both clauses: a file that does not parse; one good code word, then a bad one. -/
theorem witness_DecodingLoaderAborts :
    loadObjectFile .unparsable = .error .elfParse ∧
    loadObjectFile (goodFile [0x13#8, 0x05#8, 0x50#8, 0x00#8, 0#8, 0#8, 0#8, 0#8] []) =
      .ok ⟨[0x13#8, 0x05#8, 0x50#8, 0x00#8, 0#8, 0#8, 0#8, 0#8], [], 0x10000#64⟩ ∧
    [0x13#8, 0x05#8, 0x50#8, 0x00#8, 0#8, 0#8, 0#8, 0#8] =
      ([0x00500513#32].map (bytesOfWord 4)).flatten ++ bytesOfWord 4 0x00000000#32 ++ [] ∧
    decode 0x00500513#32 = .ok ⟨0x00500513#32⟩ ∧ decode 0x00000000#32 = .error .illegal := by decide

theorem witness_DecodingLoaderDecodesAll :
    loadObjectFile (goodFile [0x13#8, 0x05#8, 0x50#8, 0x00#8] [1#8, 0#8, 0#8, 0#8, 0#8, 0#8, 0#8, 0#8]) =
      .ok ⟨[0x13#8, 0x05#8, 0x50#8, 0x00#8], [1#8, 0#8, 0#8, 0#8, 0#8, 0#8, 0#8, 0#8], 0x10000#64⟩ ∧
    [0x13#8, 0x05#8, 0x50#8, 0x00#8] = ([0x00500513#32].map (bytesOfWord 4)).flatten ∧
    [0x00500513#32].map decode = [(⟨0x00500513#32⟩ : Instruction)].map .ok ∧
    [1#8, 0#8, 0#8, 0#8, 0#8, 0#8, 0#8, 0#8] =
      ([1#64].map (fun d : BitVec 64 => (List.range 8).map (fun k => d.extractLsb' (8 * k) 8))).flatten := by decide

/-- V-Q0, V-Q1: a word for each clause. -/
theorem witness_DecodeRoutesHalfWords :
    (decompress 0x4515#16).status = .ok ∧ (decompress 0x0000#16).status = .illegal ∧ (decompress 0x4001#16).status = .reserved ∧
    (decompress 0xA001#16).status = .unimplemented ∧
    (0x4515#16 : Half).extractLsb' 0 2 ≠ 0b11#2 ∧ (0x0000#16 : Half).extractLsb' 0 2 ≠ 0b11#2 ∧
    (0x4001#16 : Half).extractLsb' 0 2 ≠ 0b11#2 ∧ (0xA001#16 : Half).extractLsb' 0 2 ≠ 0b11#2 := by decide

theorem witness_ScatterPlacesBits :
    validPerm 16 [5, 4, 3, 2, 7, 6] ∧ validPerm 32 [31, 0] ∧ validPerm 16 [] ∧ 5 < [5, 4, 3, 2, 7, 6].length ∧
    8 ∉ [5, 4, 3, 2, 7, 6] ∧ [5, 4, 3, 2, 7, 6].length ≤ 6 := by decide

theorem witness_GatherReadsBits :
    validPerm 16 [5, 4, 3, 2, 7, 6] ∧ validPerm 32 [31, 0] ∧ validPerm 16 [] ∧ 5 < [5, 4, 3, 2, 7, 6].length ∧
    8 ∉ [5, 4, 3, 2, 7, 6] ∧ [5, 4, 3, 2, 7, 6].length ≤ 6 := by decide

theorem witness_PermutationsInvert :
    validPerm 16 (List.range 16) ∧ (List.range 16).length = 16 ∧ validPerm 16 [5, 4, 3, 2, 7, 6] ∧
    (63#16 : BitVec 16).toNat < 2 ^ [5, 4, 3, 2, 7, 6].length := by decide

theorem witness_PermutationWidthsAgree :
    validPerm 16 [15, 0] := by decide

theorem witness_BadPermutationListsRefused :
    (∃ u, scatterUnit 16 [15] = some u) ∧ ∃ u, gatherUnit 16 [15] = some u := ⟨⟨_, if_pos (by decide)⟩, ⟨_, if_pos (by decide)⟩⟩

/-- V-IMM. -/
theorem witness_ExtractorReadsSixBits :
    (0x0000#16 : Half) &&& 0x107C#16 = 0xEF83#16 &&& 0x107C#16 ∧ (0x107C#16 : Half) &&& 0x107C#16 = 0xFFFF#16 &&& 0x107C#16 := by decide

theorem witness_QuadrantDecodersReadTheirFields :
    (0x1FFF#16 : Half).extractLsb' 13 3 = (0x0000#16 : Half).extractLsb' 13 3 ∧
    (0x4515#16 : Half).extractLsb' 2 14 = (0x4516#16 : Half).extractLsb' 2 14 := by decide

/-- A word for each clause, and that the codes of R6 differ. -/
theorem witness_BlockTakesParameters :
    (0x4001#16 : Half) &&& 0xEF83#16 = 0x4001#16 ∧ (0x507E#16 : Half) &&& 0xEF83#16 = 0x4002#16 ∧
    (0x9FBD#16 : Half) &&& 0xFC63#16 ∈ [0x8C21#16, 0x8C41#16, 0x8C61#16, 0x9C01#16, 0x9C21#16] ∧
    (0x0000#16 : Half) &&& 0xEF83#16 ≠ 0x4001#16 ∧ (0x0000#16 : Half) &&& 0xEF83#16 ≠ 0x4002#16 ∧
    (0x0000#16 : Half) &&& 0xFC63#16 ∉ [0x8C21#16, 0x8C41#16, 0x8C61#16, 0x9C01#16, 0x9C21#16] ∧
    (decompress 0x0000#16 Config.r6).status ≠ .ok ∧
    (0x5FFD#16 : Half) &&& 0xE003#16 = 0x4001#16 ∧ (0x5FFD#16 : Half).extractLsb' 7 5 ≠ 0#5 ∧
    (0x8F9D#16 : Half) &&& 0xFC63#16 = 0x8C01#16 ∧
    (0x4082#16 : Half) &&& 0xE003#16 = 0x4002#16 ∧ (0x4082#16 : Half).extractLsb' 7 5 ≠ 0#5 ∧
    ∀ st ∈ [Status.ok, .illegal, .reserved, .unimplemented, .notCompressed],
      ∀ st' ∈ [Status.ok, .illegal, .reserved, .unimplemented, .notCompressed], st.code = st'.code → st = st' := by decide

/-- A state and a classifier for each clause. -/
theorem witness_StepIsTheBuildOfR6 :
    (walkAt [0x13#8, 0x05#8, 0x50#8, 0x00#8]).AsksNext [] ∧
    ({ walkAt [0x13#8] with requests := [.nextInstruction] } : State).AsksNext [] ∧
    (walkAt []).ins.buffer.size ≤ (walkAt []).ins.cursor ∧
    (walkAt [0x13#8]).ins.cursor + 1 = (walkAt [0x13#8]).ins.buffer.size ∧
    (walkAt [0x13#8, 0x05#8, 0x50#8, 0x00#8]).ins.buffer.readHalf 0 = some 0x0513#16 ∧
    (walkAt [0x13#8, 0x05#8, 0x50#8, 0x00#8]).ins.buffer.readWord 0 = some 0x00500513#32 ∧
    (walkAt [0x13#8, 0x05#8, 0x50#8]).ins.buffer.size < 0 + 4 ∧
    (fun _ : Half => 2) 0x0513#16 = 2 ∧ instructionLength 0x0513#16 = 4 ∧ (fun _ : Half => 4) 0x0000#16 = 4 ∧
    (fun _ : Half => 6) 0x0513#16 ≠ 2 ∧ (fun _ : Half => 6) 0x0513#16 ≠ 4 := ⟨.inl ⟨rfl, rfl⟩, .inr rfl, by decide⟩

/-- A state and a classifier for each clause. -/
theorem witness_LocationWalkTakesClassifier :
    (calling .nextLocation State.reset).requests = .call .nextLocation :: [] ∧
    (walkAt []).loc.buffer.size ≤ (walkAt []).loc.cursor ∧
    (walkAt [0x13#8]).loc.cursor + 1 = (walkAt [0x13#8]).loc.buffer.size ∧
    (walkAt [0x13#8, 0x05#8]).loc.buffer.readHalf 0 = some 0x0513#16 ∧ instructionLength 0x0513#16 = 4 ∧
    (fun _ : Half => 2) 0x0513#16 = 2 ∧ (fun _ : Half => 6) 0x0513#16 ≠ 2 ∧ (fun _ : Half => 6) 0x0513#16 ≠ 4 := by decide

end Sys2Proof.Tests
end

namespace Sys2Proof

open Machine

/-! ## Words of a class, by mask (R62, R72) -/

/-- A masked comparison is a comparison of the bits that the mask keeps. -/
theorem and_eq_iff_bits {h mask pattern : Half} :
    h &&& mask = pattern ↔ ∀ k : Fin 16, (h.getLsbD k && mask.getLsbD k) = pattern.getLsbD k := by
  simp only [BitVec.eq_of_getLsbD_eq_iff, BitVec.getLsbD_and, Fin.forall_iff]

theorem getLsbD_of_and_eq {h mask pattern : Half} (e : h &&& mask = pattern) (k : Nat) (hk : mask.getLsbD k = true) :
    h.getLsbD k = pattern.getLsbD k := by
  rw [← e, BitVec.getLsbD_and, hk, Bool.and_true]

theorem and_eq_of_and_eq {h mask pattern : Half} (e : h &&& mask = pattern) (m : Half) :
    h &&& (mask &&& m) = pattern &&& m := by
  rw [← BitVec.and_assoc, e]

theorem quadrantOf_of_and_eq {h mask pattern : Half} (e : h &&& mask = pattern) (h1 : mask.getLsbD 1 = true)
    (h0 : mask.getLsbD 0 = true) : quadrantOf h = quadrantOf pattern := by
  simp only [quadrantOf, getLsbD_of_and_eq e 1 h1, getLsbD_of_and_eq e 0 h0]

theorem rdField_of_and_eq {h mask pattern : Half} (e : h &&& mask = pattern) (hm : ∀ k < 5, mask.getLsbD (7 + k) = true) :
    rdField h = rdField pattern :=
  extractLsb'_eq_of_bits 7 fun k hk => by
    rw [getLsbD_of_and_eq e _ (hm k hk), rdField, BitVec.getLsbD_extractLsb']
    simp [hk]

theorem quadrantOf_eq_q1 {h : Half} : quadrantOf h = .q1 ↔ h.getLsbD 1 = false ∧ h.getLsbD 0 = true := by
  unfold quadrantOf
  cases h.getLsbD 1 <;> cases h.getLsbD 0 <;> simp

theorem quadrantOf_eq_q2 {h : Half} : quadrantOf h = .q2 ↔ h.getLsbD 1 = true ∧ h.getLsbD 0 = false := by
  unfold quadrantOf
  cases h.getLsbD 1 <;> cases h.getLsbD 0 <;> simp

theorem rdField_eq_zero {h : Half} :
    rdField h = 0#5 ↔ h.getLsbD 7 = false ∧ h.getLsbD 8 = false ∧ h.getLsbD 9 = false ∧ h.getLsbD 10 = false ∧
      h.getLsbD 11 = false := by
  simp only [rdField, BitVec.eq_of_getLsbD_eq_iff, BitVec.getLsbD_extractLsb']
  constructor
  · intro e
    exact ⟨by simpa using e 0, by simpa using e 1, by simpa using e 2, by simpa using e 3, by simpa using e 4⟩
  · rintro ⟨h7, h8, h9, h10, h11⟩ k hk
    interval_cases k <;> simp_all

/-! ## The words whose class a parameter gives (R134, R140, R164) -/

/-- A word of the class of `C.LI` (`b` false) or `C.LWSP` (`b` true) whose `rd` is 0. -/
theorem and_eq_of_rd0 {h : Half} {b : Bool} (h15 : h.getLsbD 15 = false) (h14 : h.getLsbD 14 = true)
    (h13 : h.getLsbD 13 = false) (hrd : rdField h = 0#5) (hop : h.getLsbD 1 = b ∧ h.getLsbD 0 = !b) :
    h &&& 0xEF83#16 = bif b then 0x4002#16 else 0x4001#16 := by
  obtain ⟨h1, h0⟩ := hop
  obtain ⟨h7, h8, h9, h10, h11⟩ := rdField_eq_zero.mp hrd
  simp only [and_eq_iff_bits, Fin.forall_fin_succ]
  cases b <;> simp_all

theorem and_eq_of_misc11 {h : Half} (hq : quadrantOf h = .q1) (h15 : h.getLsbD 15 = true) (h14 : h.getLsbD 14 = false)
    (h13 : h.getLsbD 13 = false) (h11 : h.getLsbD 11 = true) (h10 : h.getLsbD 10 = true) :
    h &&& 0xFC63#16 =
      encodeMisc11 (BitVec.ofBool (h.getLsbD 12)) (BitVec.ofBool (h.getLsbD 6) ++ BitVec.ofBool (h.getLsbD 5)) 0#3 0#3 := by
  obtain ⟨h1, h0⟩ := quadrantOf_eq_q1.mp hq
  simp only [and_eq_iff_bits, Fin.forall_fin_succ, encodeMisc11_getLsbD, BitVec.getLsbD_append]
  simp_all

/-! ## What does not depend on the parameters -/

/-- A block result, as a function of the parameters, whose status is the same at all of them, with `ERR_WORD` unless it is OK. -/
def FixedStatus (r : Config.Params → BlockResult) : Prop :=
  ∃ st, ∀ P, (r P).status = st ∧ (st ≠ .ok → (r P).word = P.errWord)

theorem fixedStatus_ok (w : Config.Params → Word) : FixedStatus fun P => .ok (w P) := ⟨.ok, fun _ => ⟨rfl, absurd rfl⟩⟩

theorem fixedStatus_err (e : DecodingError) : FixedStatus fun P => .err e P := ⟨e.status, fun _ => ⟨rfl, fun _ => rfl⟩⟩

theorem fixedStatus_notCompressed : FixedStatus fun P => .notCompressed P :=
  ⟨.notCompressed, fun _ => ⟨rfl, fun _ => rfl⟩⟩

theorem fixedStatus_decompressQ0 (h : Half) : FixedStatus fun P => decompressQ0 h P := by
  unfold decompressQ0
  cases h.getLsbD 15 <;> cases h.getLsbD 14 <;> cases h.getLsbD 13 <;> exact fixedStatus_err _

/-- The five MISC-ALU combinations `MISC_OTHER_CLASS` is for (R140). -/
abbrev miscOtherPatterns : List Half := [0x8C21#16, 0x8C41#16, 0x8C61#16, 0x9C01#16, 0x9C21#16]

theorem misc11_class_of_mem_miscOtherPatterns : ∀ p ∈ miscOtherPatterns, p &&& 0xEC03#16 = 0x8C01#16 := by
  simp [miscOtherPatterns]

theorem fixedStatus_miscAlu11 {h : Half} (hmask : h &&& 0xFC63#16 =
      encodeMisc11 (BitVec.ofBool (h.getLsbD 12)) (BitVec.ofBool (h.getLsbD 6) ++ BitVec.ofBool (h.getLsbD 5)) 0#3 0#3)
    (hother : h &&& 0xFC63#16 ∉ miscOtherPatterns) : FixedStatus fun P => miscAlu11 h P := by
  rw [hmask] at hother
  unfold miscAlu11
  generalize h.getLsbD 12 = b12, h.getLsbD 6 = b6, h.getLsbD 5 = b5 at hother ⊢
  match b12, b6, b5 with
  | false, false, false => exact fixedStatus_ok _
  | false, false, true | false, true, false | false, true, true | true, false, false | true, false, true =>
    exact absurd (by decide) hother
  | true, true, false | true, true, true => exact fixedStatus_err .reserved

theorem fixedStatus_decompressQ1 {h : Half} (hq : quadrantOf h = .q1) (hrd0 : h &&& 0xEF83#16 ≠ 0x4001#16)
    (hother : h &&& 0xFC63#16 ∉ miscOtherPatterns) : FixedStatus fun P => decompressQ1 h P := by
  unfold decompressQ1
  match h15 : h.getLsbD 15, h14 : h.getLsbD 14, h13 : h.getLsbD 13 with
  | false, true, false =>
    have hrd : rdField h ≠ 0#5 := fun hrd => hrd0 (and_eq_of_rd0 h15 h14 h13 hrd (quadrantOf_eq_q1.mp hq))
    simp only [if_neg hrd]
    exact fixedStatus_ok _
  | true, false, false =>
    change FixedStatus fun P => miscAlu h P
    unfold miscAlu
    match h11 : h.getLsbD 11, h10 : h.getLsbD 10 with
    | true, true => exact fixedStatus_miscAlu11 (and_eq_of_misc11 hq h15 h14 h13 h11 h10) hother
    | false, false | false, true | true, false => exact fixedStatus_err .unimplemented
  | false, false, false | false, false, true | false, true, true | true, false, true
  | true, true, false | true, true, true => exact fixedStatus_err .unimplemented

theorem fixedStatus_decompressQ2 {h : Half} (hq : quadrantOf h = .q2) (hrd0 : h &&& 0xEF83#16 ≠ 0x4002#16) :
    FixedStatus fun P => decompressQ2 h P := by
  unfold decompressQ2
  match h15 : h.getLsbD 15, h14 : h.getLsbD 14, h13 : h.getLsbD 13 with
  | false, true, false =>
    have hrd : rdField h ≠ 0#5 := fun hrd => hrd0 (and_eq_of_rd0 h15 h14 h13 hrd (quadrantOf_eq_q2.mp hq))
    simp only [if_neg hrd]
    exact fixedStatus_ok _
  | false, false, false | false, false, true | false, true, true | true, false, false | true, false, true
  | true, true, false | true, true, true => exact fixedStatus_err .unimplemented

/-- But for the words of `RD0_CLASS` and `MISC_OTHER_CLASS`, the status does not depend on the parameters (D5, D6). -/
theorem fixedStatus_decompress {h : Half} (hli : h &&& 0xEF83#16 ≠ 0x4001#16) (hlwsp : h &&& 0xEF83#16 ≠ 0x4002#16)
    (hother : h &&& 0xFC63#16 ∉ miscOtherPatterns) : FixedStatus fun P => decompress h P := by
  unfold decompress
  cases hq : quadrantOf h with
  | q0 => exact fixedStatus_decompressQ0 h
  | q1 => exact fixedStatus_decompressQ1 hq hli hother
  | q2 => exact fixedStatus_decompressQ2 hq hlwsp
  | q3 => exact fixedStatus_notCompressed

/-! ## The block on the classes that read a parameter (R133, R134, R140, R141, R163, R164) -/

section
variable {h : Half} (P : Config.Params)

theorem decompress_of_cLi_class (e : h &&& 0xE003#16 = 0x4001#16) :
    decompress h P =
      if rdField h = 0#5 then .err P.rd0Class P else .ok (buildAddi (rdField h) P.zeroReg (liImm (ciRaw h))) := by
  have hq : quadrantOf h = .q1 := (quadrantOf_of_and_eq e (by decide) (by decide)).trans (by decide)
  simp only [decompress, hq, decompressQ1]
  rw [getLsbD_of_and_eq e 15 (by decide), getLsbD_of_and_eq e 14 (by decide), getLsbD_of_and_eq e 13 (by decide)]
  rfl

theorem decompress_of_cLwsp_class (e : h &&& 0xE003#16 = 0x4002#16) :
    decompress h P =
      if rdField h = 0#5 then .err P.rd0Class P else .ok (buildLw (rdField h) (lwspImm (ciRaw h)) P) := by
  have hq : quadrantOf h = .q2 := (quadrantOf_of_and_eq e (by decide) (by decide)).trans (by decide)
  simp only [decompress, hq, decompressQ2]
  rw [getLsbD_of_and_eq e 15 (by decide), getLsbD_of_and_eq e 14 (by decide), getLsbD_of_and_eq e 13 (by decide)]
  rfl

theorem decompress_of_misc11_class (e : h &&& 0xEC03#16 = 0x8C01#16) : decompress h P = miscAlu11 h P := by
  have hq : quadrantOf h = .q1 := (quadrantOf_of_and_eq e (by decide) (by decide)).trans (by decide)
  simp only [decompress, hq, decompressQ1, miscAlu]
  rw [getLsbD_of_and_eq e 15 (by decide), getLsbD_of_and_eq e 14 (by decide), getLsbD_of_and_eq e 13 (by decide),
    getLsbD_of_and_eq e 11 (by decide), getLsbD_of_and_eq e 10 (by decide)]
  rfl

theorem decompress_of_rd0 (e : h &&& 0xEF83#16 = 0x4001#16 ∨ h &&& 0xEF83#16 = 0x4002#16) :
    decompress h P = .err P.rd0Class P := by
  rcases e with e | e
  · have hrd : rdField h = 0#5 := (rdField_of_and_eq e (by decide)).trans (by decide)
    rw [decompress_of_cLi_class P (and_eq_of_and_eq e 0xE003#16), if_pos hrd]
  · have hrd : rdField h = 0#5 := (rdField_of_and_eq e (by decide)).trans (by decide)
    rw [decompress_of_cLwsp_class P (and_eq_of_and_eq e 0xE003#16), if_pos hrd]

theorem decompress_of_miscOther (e : h &&& 0xFC63#16 ∈ miscOtherPatterns) :
    decompress h P = .err P.miscOtherClass P := by
  generalize hp : h &&& 0xFC63#16 = p at e
  have hclass : p &&& 0xEC03#16 = 0x8C01#16 := misc11_class_of_mem_miscOtherPatterns p e
  rw [decompress_of_misc11_class P ((and_eq_of_and_eq hp 0xEC03#16).trans hclass), miscAlu11,
    getLsbD_of_and_eq hp 12 (by decide), getLsbD_of_and_eq hp 6 (by decide), getLsbD_of_and_eq hp 5 (by decide)]
  simp only [List.mem_cons, List.not_mem_nil, or_false] at e
  rcases e with rfl | rfl | rfl | rfl | rfl <;> rfl

theorem decompress_of_cSub (e : h &&& 0xFC63#16 = 0x8C01#16) :
    decompress h P =
      .ok (buildSub (expandCReg (rdPField h)) (expandCReg (rdPField h)) (expandCReg (rs2PField h)) P) := by
  rw [decompress_of_misc11_class P (and_eq_of_and_eq e 0xEC03#16), miscAlu11,
    getLsbD_of_and_eq e 12 (by decide), getLsbD_of_and_eq e 6 (by decide), getLsbD_of_and_eq e 5 (by decide)]
  rfl

/-- A word that is not OK is `ERR_WORD` (D4). -/
theorem decompress_word_of_status_ne_ok (hst : (decompress h P).status ≠ .ok) : (decompress h P).word = P.errWord := by
  by_cases hrd0 : h &&& 0xEF83#16 = 0x4001#16 ∨ h &&& 0xEF83#16 = 0x4002#16
  · rw [decompress_of_rd0 P hrd0, BlockResult.err]
  by_cases hother : h &&& 0xFC63#16 ∈ miscOtherPatterns
  · rw [decompress_of_miscOther P hother, BlockResult.err]
  rw [not_or] at hrd0
  obtain ⟨st, hfixed⟩ := fixedStatus_decompress hrd0.1 hrd0.2 hother
  obtain ⟨rfl, hword⟩ := hfixed P
  exact hword hst

end

/-! ## The offset of `C.LWSP` (R70, R97) -/

theorem lwspImm_eq_append : ∀ raw : BitVec 6,
    lwspImm raw = (0b0000#4 ++ raw.extractLsb' 0 2 ++ raw.extractLsb' 2 4 ++ 0b00#2 : BitVec 12) := by decide

theorem lwspImm_ciRaw (h : Half) :
    lwspImm (ciRaw h) = (0b0000#4 ++ h.extractLsb' 3 1 ++ h.extractLsb' 2 1 ++ h.extractLsb' 12 1 ++ h.extractLsb' 6 1
      ++ h.extractLsb' 5 1 ++ h.extractLsb' 4 1 ++ 0b00#2 : BitVec 12) := by
  rw [lwspImm_eq_append]
  refine BitVec.eq_of_getLsbD_eq fun k hk => ?_
  simp only [BitVec.getLsbD_append, BitVec.getLsbD_extractLsb', ciRaw_getLsbD]
  interval_cases k <;> simp

/-! ## Status codes (R232, D3) -/

theorem Status.code_of_ofCode {c : BitVec 3} {P : Config.Params} {st : Status} (e : Status.ofCode c P = some st) :
    st.code P = c := by
  unfold Status.ofCode at e
  split_ifs at e <;> cases e <;> exact Eq.symm ‹_›

theorem Status.ofCode_code_isSome (st : Status) (P : Config.Params) : (Status.ofCode (st.code P) P).isSome := by
  unfold Status.ofCode
  split_ifs
  case neg => cases st <;> contradiction
  all_goals rfl

/-- If no two statuses share a code, a code stands for a status exactly when it is that status's (D3). -/
theorem Status.ofCode_eq_some_iff {P : Config.Params} (hinj : ∀ st st' : Status, st.code P = st'.code P → st = st')
    (c : BitVec 3) (st : Status) : Status.ofCode c P = some st ↔ st.code P = c := by
  refine ⟨Status.code_of_ofCode, ?_⟩
  rintro rfl
  obtain ⟨st', hst'⟩ := Option.isSome_iff_exists.mp (Status.ofCode_code_isSome st P)
  rw [hst', hinj _ _ (Status.code_of_ofCode hst')]

/-- Settles O57, from the block on each class that reads a parameter and `fixedStatus_decompress` on the others. -/
theorem blockTakesParameters : Obligations.BlockTakesParameters := by
  unfold Obligations.BlockTakesParameters
  refine fun P => ⟨fun h => ⟨decompress_of_rd0 P, decompress_of_miscOther P, ?fixed, decompress_word_of_status_ne_ok P,
    ?cLi, decompress_of_cSub P, ?cLwsp⟩, Status.ofCode_eq_some_iff⟩
  case fixed =>
    intro hli hlwsp hother
    obtain ⟨st, hfixed⟩ := fixedStatus_decompress hli hlwsp hother
    exact (hfixed P).1.trans (hfixed Config.r6).1.symm
  case cLi =>
    intro e hrd
    exact (decompress_of_cLi_class P e).trans (if_neg hrd)
  case cLwsp =>
    intro e hrd
    rw [decompress_of_cLwsp_class P e, rdField, if_neg hrd, lwspImm_ciRaw]
    rfl

/-! ## Full words and their fields (R66, R106, R108) -/

theorem buildI_fieldsOf (w : Word) : buildI (immOf w) (rs1Of w) (funct3Of w) (rdOf w) (opcodeOf w) = w := by
  refine BitVec.eq_of_getLsbD_eq fun k hk => ?_
  simp only [buildI_getLsbD, immOf, rs1Of, funct3Of, rdOf, opcodeOf, BitVec.getLsbD_extractLsb']
  interval_cases k <;> simp

theorem buildR_fieldsOf (w : Word) :
    buildR (funct7Of w) (rs2Of w) (rs1Of w) (funct3Of w) (rdOf w) (opcodeOf w) = w := by
  refine BitVec.eq_of_getLsbD_eq fun k hk => ?_
  simp only [buildR_getLsbD, funct7Of, rs2Of, rs1Of, funct3Of, rdOf, opcodeOf, BitVec.getLsbD_extractLsb']
  interval_cases k <;> simp

theorem buildAddi_of_fitsAddi {w : Word} (h : fitsAddi w = true) : buildAddi (rdOf w) (rs1Of w) (immOf w) = w := by
  simp only [fitsAddi, Bool.and_eq_true, beq_iff_eq] at h
  obtain ⟨hop, hf3⟩ := h
  rw [buildAddi, ← hop, ← hf3, buildI_fieldsOf]

theorem buildLw_of_fitsLw {w : Word} (h : fitsLw w = true) : buildLw (rdOf w) (immOf w) = w := by
  simp only [fitsLw, Bool.and_eq_true, beq_iff_eq] at h
  obtain ⟨⟨hop, hf3⟩, hrs1⟩ := h
  rw [buildLw, ← hop, ← hf3, ← hrs1, buildI_fieldsOf]

theorem buildSub_of_fitsSub {w : Word} (h : fitsSub w = true) : buildSub (rdOf w) (rs1Of w) (rs2Of w) = w := by
  simp only [fitsSub, Bool.and_eq_true, beq_iff_eq] at h
  obtain ⟨⟨hop, hf3⟩, hf7⟩ := h
  rw [buildSub, ← hop, ← hf3, ← hf7, buildR_fieldsOf]

/-- Whatever row a 4-byte word falls in, its encoding is the word (R66, R195). -/
theorem encodeWord_decodeFullWord (w : Word) : encodeWord (decodeFullWord w) = w := by
  unfold decodeFullWord
  split_ifs with hAddi hLw hSub
  · exact buildAddi_of_fitsAddi hAddi
  · exact buildLw_of_fitsLw hLw
  · exact buildSub_of_fitsSub hSub
  · rfl

theorem decodeFullWord_byteLength (w : Word) : (decodeFullWord w).byteLength = 4 := by
  unfold decodeFullWord
  split_ifs <;> rfl

namespace Machine

/-- A 4-byte word is handed on whole, whatever row it falls in (R195). -/
theorem exec_decodeFullWord (w : Word) (s : State) :
    exec (decodeFullWord w) s = .next ((s.setOutputs .notCompressed).yieldItem (.full w) 4) := by
  rcases exec_cases (decodeFullWord w) s with ⟨r, hlen, -⟩ | ⟨-, hexec⟩
  · rw [decodeFullWord_byteLength] at hlen
    contradiction
  · rw [hexec, encodeWord_decodeFullWord]

/-! ## The fetch with any length classifier (R195 to R198, D17) -/

theorem classifyAt_badLength {classifier : Half → Nat} {m : Memory} {c : Nat} {h : Half} (hr : m.readHalf c = some h)
    (h2 : classifier h ≠ 2) (h4 : classifier h ≠ 4) : classifyAt classifier m c = .error .badLength := by
  have hc : ¬ m.size ≤ c := by
    have := (Memory.readHalf_eq_some.mp hr).1
    omega
  simp [classifyAt, hc, hr, h2, h4]

theorem fetchAt_of_classifyAt_error {classifier : Half → Nat} {m : Memory} {c : Nat} {f : Fault}
    (h : classifyAt classifier m c = .error f) : fetchAt classifier m c = .error f := by
  simp only [fetchAt, h]

theorem fetchAt_of_size_le {classifier : Half → Nat} {m : Memory} {c : Nat} (h : m.size ≤ c) :
    fetchAt classifier m c = .ok none := by
  simp only [fetchAt, classifyAt_end h]

theorem fetchAt_four_cut {classifier : Half → Nat} {m : Memory} {c : Nat} {h : Half} (hr : m.readHalf c = some h)
    (hl : classifier h = 4) (hs : m.size < c + 4) : fetchAt classifier m c = .error .truncated := by
  have hread : m.readBytes c (classifier h) = none := by
    rw [hl, Memory.readBytes, if_neg (by omega)]
  simp only [fetchAt, classifyAt_word_of hr (.inr hl), hread]

/-! ## The walk of a build (R6, R195) -/

section
variable {P : Config.Params} {classifier : Half → Nat} {s : State}

theorem instructionNextOf_of_fetch_error {f : Fault} (h : fetchAt classifier s.ins.buffer s.ins.cursor = .error f) :
    instructionNextOf P classifier s = .fault f := by
  simp only [instructionNextOf, h]

theorem instructionNextOf_end (h : s.ins.buffer.size ≤ s.ins.cursor) :
    instructionNextOf P classifier s = .next s.endInstructions := by
  simp only [instructionNextOf, fetchAt_of_size_le h]

theorem instructionNextOf_cut (h : s.ins.cursor + 1 = s.ins.buffer.size) :
    instructionNextOf P classifier s = .fault .truncated :=
  instructionNextOf_of_fetch_error (fetchAt_of_classifyAt_error (classifyAt_cut h))

variable {h : Half} (hr : s.ins.buffer.readHalf s.ins.cursor = some h)
include hr

theorem instructionNextOf_two (hl : classifier h = 2) :
    instructionNextOf P classifier s = .next ((s.setInstrI h).answer (decompress h P)) := by
  simp only [instructionNextOf, fetchAt_two hr hl]

theorem instructionNextOf_four {w : Word} (hl : classifier h = 4) (hw : s.ins.buffer.readWord s.ins.cursor = some w) :
    instructionNextOf P classifier s =
      .next (((s.setInstrI h).setOutputs (decompress h P)).yieldItem (.full w) 4) := by
  obtain ⟨hs, rfl⟩ := Memory.readWord_eq_some.mp hw
  simp only [instructionNextOf, fetchAt_four hr hl hs]

theorem instructionNextOf_four_cut (hl : classifier h = 4) (hs : s.ins.buffer.size < s.ins.cursor + 4) :
    instructionNextOf P classifier s = .fault .truncated :=
  instructionNextOf_of_fetch_error (fetchAt_four_cut hr hl hs)

theorem instructionNextOf_badLength (h2 : classifier h ≠ 2) (h4 : classifier h ≠ 4) :
    instructionNextOf P classifier s = .fault .badLength :=
  instructionNextOf_of_fetch_error (fetchAt_of_classifyAt_error (classifyAt_badLength hr h2 h4))

end

/-! ## The machine's walk -/

section
variable {s : State}

theorem instructionNext_end (h : s.ins.buffer.size ≤ s.ins.cursor) : instructionNext s = .next s.endInstructions := by
  simp only [instructionNext, fetchAt_end h]

theorem instructionNext_cut (h : s.ins.cursor + 1 = s.ins.buffer.size) : instructionNext s = .fault .truncated := by
  simp only [instructionNext, fetchAt_oneByte h]

variable {h : Half} (hr : s.ins.buffer.readHalf s.ins.cursor = some h)
include hr

/-- A 2-byte word is presented and answered with the block's function of it: the meanings and the case tables agree (R195). -/
theorem instructionNext_half (hq : quadrantOf h ≠ .q3) :
    instructionNext s = .next ((s.setInstrI h).answer (decompress h)) := by
  have hbytes := (Memory.readHalf_eq_some.mp hr).2
  simp only [instructionNext, fetchAt_half hr hq, decodeBytes_half, hbytes, decompress]
  cases hquad : quadrantOf h with
  | q0 => exact exec_decodeQ0 h _
  | q1 => exact exec_decodeQ1 h _
  | q2 => exact exec_decodeQ2 h _
  | q3 => exact absurd hquad hq

theorem instructionNext_full {w : Word} (hq : quadrantOf h = .q3) (hw : s.ins.buffer.readWord s.ins.cursor = some w) :
    instructionNext s = .next (((s.setInstrI h).setOutputs .notCompressed).yieldItem (.full w) 4) := by
  have hbytes := (Memory.readHalf_eq_some.mp hr).2
  obtain ⟨hs, rfl⟩ := Memory.readWord_eq_some.mp hw
  simp only [instructionNext, fetchAt_full hr hq hs, decodeBytes_half, hbytes, hq, decodeLong]
  exact exec_decodeFullWord _ _

theorem instructionNext_full_cut (hq : quadrantOf h = .q3) (hs : s.ins.buffer.size < s.ins.cursor + 4) :
    instructionNext s = .fault .truncated := by
  simp only [instructionNext, fetchAt_cutShort hr hq hs]

end

/-- The machine's walk is the build with the parameters of R6 and the classifier of R191 (log 13). -/
theorem instructionNext_eq_instructionNextOf (s : State) :
    instructionNext s = instructionNextOf Config.r6 instructionLength s := by
  rcases classifyAt_cases s.ins.buffer s.ins.cursor with ⟨hend, -⟩ | ⟨hcut, -⟩ | ⟨h, hr, -⟩
  · rw [instructionNext_end hend, instructionNextOf_end hend]
  · rw [instructionNext_cut hcut, instructionNextOf_cut hcut]
  by_cases hq : quadrantOf h = .q3
  · have hl := instructionLength_eq_four.mpr hq
    by_cases hs : s.ins.cursor + 4 ≤ s.ins.buffer.size
    · have hw := Memory.readWord_eq_some.mpr ⟨hs, rfl⟩
      rw [instructionNext_full hr hq hw, instructionNextOf_four hr hl hw, decompress_of_q3 hq]
    · rw [instructionNext_full_cut hr hq (by omega), instructionNextOf_four_cut hr hl (by omega)]
  · rw [instructionNext_half hr hq, instructionNextOf_two hr (instructionLength_eq_two.mpr hq)]

/-- Settles O58: a step is the machine's walk, which is the build of R6, and the walk of a build is read off its fetch case by case. -/
theorem stepIsTheBuildOfR6 : Obligations.StepIsTheBuildOfR6 := by
  unfold Obligations.StepIsTheBuildOfR6
  refine ⟨fun s rest hask => ?_,
    fun P classifier s => ⟨instructionNextOf_end, instructionNextOf_cut, fun h hr => ⟨?_, ?_, ?_, ?_⟩⟩⟩
  · rw [step_asksNext hask, instructionNext_eq_instructionNextOf]
  · exact instructionNextOf_two hr
  · exact fun w => instructionNextOf_four hr
  · exact instructionNextOf_four_cut hr
  · exact instructionNextOf_badLength hr

end Machine
end Sys2Proof

namespace Sys2Proof

open Machine

/-- Settles O53: the field is the low part of `{01, field}`, and there are eight fields. -/
theorem compressedRegisterIsEightPlusField : Obligations.CompressedRegisterIsEightPlusField := by
  unfold Obligations.CompressedRegisterIsEightPlusField
  have hvalue : ∀ f : CReg, (expandCReg f).toNat = 8 + f.toNat := by decide
  exact fun f => ⟨hvalue f, rfl⟩

/-! ## The fields of a built word read back (R66, R111) -/

section
variable (imm : BitVec 12) (f7 : BitVec 7) (rs2 rs1 : RegId) (f3 : BitVec 3) (rd : RegId) (op : BitVec 7)

@[simp] theorem opcodeOf_buildI : opcodeOf (buildI imm rs1 f3 rd op) = op :=
  extractLsb'_eq_of_bits 0 fun k hk => by
    rw [buildI_getLsbD, if_pos (by omega), Nat.zero_add]

@[simp] theorem rdOf_buildI : rdOf (buildI imm rs1 f3 rd op) = rd :=
  extractLsb'_eq_of_bits 7 fun k hk => by
    rw [buildI_getLsbD, if_neg (by omega), if_pos (by omega), Nat.add_sub_cancel_left]

@[simp] theorem funct3Of_buildI : funct3Of (buildI imm rs1 f3 rd op) = f3 :=
  extractLsb'_eq_of_bits 12 fun k hk => by
    rw [buildI_getLsbD, if_neg (by omega), if_neg (by omega), if_pos (by omega), Nat.add_sub_cancel_left]

@[simp] theorem rs1Of_buildI : rs1Of (buildI imm rs1 f3 rd op) = rs1 :=
  extractLsb'_eq_of_bits 15 fun k hk => by
    rw [buildI_getLsbD, if_neg (by omega), if_neg (by omega), if_neg (by omega), if_pos (by omega),
      Nat.add_sub_cancel_left]

@[simp] theorem immOf_buildI : immOf (buildI imm rs1 f3 rd op) = imm :=
  extractLsb'_eq_of_bits 20 fun k hk => by
    rw [buildI_getLsbD, if_neg (by omega), if_neg (by omega), if_neg (by omega), if_neg (by omega),
      Nat.add_sub_cancel_left]

/-- An R-type word is the I-type word whose immediate is `{funct7, rs2}`. -/
theorem buildR_eq_buildI : buildR f7 rs2 rs1 f3 rd op = buildI (f7 ++ rs2) rs1 f3 rd op := rfl

@[simp] theorem opcodeOf_buildR : opcodeOf (buildR f7 rs2 rs1 f3 rd op) = op := by
  rw [buildR_eq_buildI, opcodeOf_buildI]

@[simp] theorem rdOf_buildR : rdOf (buildR f7 rs2 rs1 f3 rd op) = rd := by
  rw [buildR_eq_buildI, rdOf_buildI]

@[simp] theorem funct3Of_buildR : funct3Of (buildR f7 rs2 rs1 f3 rd op) = f3 := by
  rw [buildR_eq_buildI, funct3Of_buildI]

@[simp] theorem rs1Of_buildR : rs1Of (buildR f7 rs2 rs1 f3 rd op) = rs1 := by
  rw [buildR_eq_buildI, rs1Of_buildI]

@[simp] theorem rs2Of_buildR : rs2Of (buildR f7 rs2 rs1 f3 rd op) = rs2 :=
  extractLsb'_eq_of_bits 20 fun k hk => by
    rw [buildR_getLsbD, if_neg (by omega), if_neg (by omega), if_neg (by omega), if_neg (by omega), if_pos (by omega),
      Nat.add_sub_cancel_left]

@[simp] theorem funct7Of_buildR : funct7Of (buildR f7 rs2 rs1 f3 rd op) = f7 :=
  extractLsb'_eq_of_bits 25 fun k hk => by
    rw [buildR_getLsbD, if_neg (by omega), if_neg (by omega), if_neg (by omega), if_neg (by omega), if_neg (by omega),
      Nat.add_sub_cancel_left]

end

/-! ## The words the block builds have the emitted shapes (R184) -/

/-- Part of a field, read from the word, is that part of what the field holds. -/
theorem extractLsb'_of_field {n m a b c : Nat} {x : BitVec n} {y : BitVec m} (hfield : x.extractLsb' a m = y)
    (h : b + c ≤ m) : x.extractLsb' (a + b) c = y.extractLsb' b c :=
  extractLsb'_eq_of_bits (a + b) fun k hk => by
    have hbk : b + k < m := by omega
    simp [← hfield, hk, hbk, Nat.add_assoc]

/-- The upper bits of a sign-extended immediate repeat its sign bit (R69). -/
theorem liImm_upper_eq_signExtend :
    ∀ raw : BitVec 6, (liImm raw).extractLsb' 5 7 = ((liImm raw).extractLsb' 5 1).signExtend 7 := by decide

/-- An offset of `C.LWSP` is a multiple of 4 below 256 (R70). -/
theorem lwspImm_outer_bits :
    ∀ raw : BitVec 6, (lwspImm raw).extractLsb' 8 4 = 0b0000#4 ∧ (lwspImm raw).extractLsb' 0 2 = 0b00#2 := by decide

@[simp] theorem expandCReg_extractLsb'_upper : ∀ f : CReg, (expandCReg f).extractLsb' 3 2 = 0b01#2 := by decide

theorem shapeLi_buildAddi {rd : RegId} (raw : BitVec 6) (hrd : rd ≠ 0#5) :
    shapeLi (buildAddi rd Config.r6.zeroReg (liImm raw)) = true := by
  have himm : immOf (buildAddi rd Config.r6.zeroReg (liImm raw)) = liImm raw := immOf_buildI ..
  have hupper := extractLsb'_of_field (b := 5) (c := 7) himm (by omega)
  have hsign := extractLsb'_of_field (b := 5) (c := 1) himm (by omega)
  rw [shapeLi, hupper, hsign, ← liImm_upper_eq_signExtend]
  simp [fitsAddi, buildAddi, hrd]

theorem shapeSub_buildSub (f g : CReg) :
    shapeSub (buildSub (expandCReg f) (expandCReg f) (expandCReg g)) = true := by
  have hrs2 : rs2Of (buildSub (expandCReg f) (expandCReg f) (expandCReg g)) = expandCReg g := rs2Of_buildR ..
  have hrs1 : rs1Of (buildSub (expandCReg f) (expandCReg f) (expandCReg g)) = expandCReg f := rs1Of_buildR ..
  have hrd : rdOf (buildSub (expandCReg f) (expandCReg f) (expandCReg g)) = expandCReg f := rdOf_buildR ..
  rw [shapeSub, extractLsb'_of_field (b := 3) (c := 2) hrs2 (by omega),
    extractLsb'_of_field (b := 3) (c := 2) hrs1 (by omega), extractLsb'_of_field (b := 3) (c := 2) hrd (by omega)]
  simp [fitsSub, buildSub]

theorem shapeLwsp_buildLw {rd : RegId} (raw : BitVec 6) (hrd : rd ≠ 0#5) :
    shapeLwsp (buildLw rd (lwspImm raw)) = true := by
  have himm : immOf (buildLw rd (lwspImm raw)) = lwspImm raw := immOf_buildI ..
  have hupper := extractLsb'_of_field (b := 8) (c := 4) himm (by omega)
  have hlower := extractLsb'_of_field (b := 0) (c := 2) himm (by omega)
  obtain ⟨hupper0, hlower0⟩ := lwspImm_outer_bits raw
  rw [shapeLwsp, hupper, hlower, hupper0, hlower0]
  simp [fitsLw, buildLw, hrd]

namespace Machine

/-! ## What the block answers is allowed as an item (R182, R184) -/

theorem allowed_of_err (e : DecodingError) : (Item.block (.err e)).Allowed := by
  cases e <;> exact ⟨⟨nofun, fun _ => rfl⟩, nofun⟩

theorem allowed_of_emittedShape {w : Word} (h : emittedShape w = true) : (Item.block (.ok w)).Allowed :=
  ⟨⟨fun _ => h, absurd rfl⟩, nofun⟩

theorem decompressQ0_allowed (h : Half) : (Item.block (decompressQ0 h)).Allowed := by
  unfold decompressQ0
  split <;> exact allowed_of_err _

theorem miscAlu11_allowed (h : Half) : (Item.block (miscAlu11 h)).Allowed := by
  unfold miscAlu11
  split
  case h_1 => exact allowed_of_emittedShape (by simp [emittedShape, shapeSub_buildSub])
  all_goals exact allowed_of_err _

theorem miscAlu_allowed (h : Half) : (Item.block (miscAlu h)).Allowed := by
  unfold miscAlu
  split
  case h_4 => exact miscAlu11_allowed h
  all_goals exact allowed_of_err _

theorem decompressQ1_allowed (h : Half) : (Item.block (decompressQ1 h)).Allowed := by
  unfold decompressQ1
  split
  case h_3 =>
    split
    · exact allowed_of_err _
    · next hrd => exact allowed_of_emittedShape (by simp [emittedShape, shapeLi_buildAddi _ hrd])
  case h_5 => exact miscAlu_allowed h
  all_goals exact allowed_of_err _

theorem decompressQ2_allowed (h : Half) : (Item.block (decompressQ2 h)).Allowed := by
  unfold decompressQ2
  split
  case h_3 =>
    split
    · exact allowed_of_err _
    · next hrd => exact allowed_of_emittedShape (by simp [emittedShape, shapeLwsp_buildLw _ hrd])
  all_goals exact allowed_of_err _

/-- A word that is 2 bytes long gives an allowed item (R195). -/
theorem decompress_allowed {h : Half} (hq : quadrantOf h ≠ .q3) : (Item.block (decompress h)).Allowed := by
  unfold decompress
  cases hquad : quadrantOf h with
  | q0 => exact decompressQ0_allowed h
  | q1 => exact decompressQ1_allowed h
  | q2 => exact decompressQ2_allowed h
  | q3 => exact absurd hquad hq

/-! ## The first half of a 4-byte word (R42, R43, R60) -/

theorem setWidth_wordOfBytes (b0 b1 b2 b3 : Byte) : (wordOfBytes b0 b1 b2 b3).setWidth 16 = halfOfBytes b0 b1 := by
  refine BitVec.eq_of_getLsbD_eq fun k hk => ?_
  rw [BitVec.getLsbD_setWidth, wordOfBytes_getLsbD, halfOfBytes_getLsbD, if_pos hk]
  simp [hk]

theorem readHalf_of_readWord {m : Memory} {a : Nat} {w : Word} (hw : m.readWord a = some w) :
    m.readHalf a = some (w.setWidth 16) := by
  obtain ⟨hs, rfl⟩ := Memory.readWord_eq_some.mp hw
  exact Memory.readHalf_eq_some.mpr ⟨by omega, (setWidth_wordOfBytes ..).symm⟩

/-! ## Everything a step can do -/

/-- When `InstructionIter` answers a next state, it is at the end, or presents a 2-byte word and yields the block's
result, or presents the first half of a 4-byte word and yields the word (R195, R196). -/
theorem instructionNext_cases {s t : State} (hnext : instructionNext s = .next t) :
    (s.ins.buffer.size ≤ s.ins.cursor ∧ t = s.endInstructions) ∨
    (∃ h, s.ins.buffer.readHalf s.ins.cursor = some h ∧ quadrantOf h ≠ .q3 ∧
      t = (s.setInstrI h).answer (decompress h)) ∨
    ∃ h w, s.ins.buffer.readHalf s.ins.cursor = some h ∧ quadrantOf h = .q3 ∧
      s.ins.buffer.readWord s.ins.cursor = some w ∧
      t = ((s.setInstrI h).setOutputs .notCompressed).yieldItem (.full w) 4 := by
  rcases classifyAt_cases s.ins.buffer s.ins.cursor with ⟨hend, -⟩ | ⟨hcut, -⟩ | ⟨h, hr, -⟩
  · rw [instructionNext_end hend] at hnext
    exact .inl ⟨hend, (Host.Outcome.next.inj hnext).symm⟩
  · rw [instructionNext_cut hcut] at hnext
    contradiction
  by_cases hq : quadrantOf h = .q3
  · by_cases hs : s.ins.cursor + 4 ≤ s.ins.buffer.size
    · have hw := Memory.readWord_eq_some.mpr ⟨hs, rfl⟩
      rw [instructionNext_full hr hq hw] at hnext
      exact .inr (.inr ⟨h, _, hr, hq, hw, (Host.Outcome.next.inj hnext).symm⟩)
    · rw [instructionNext_full_cut hr hq (by omega)] at hnext
      contradiction
  · rw [instructionNext_half hr hq] at hnext
    exact .inr (.inl ⟨h, hr, hq, (Host.Outcome.next.inj hnext).symm⟩)

/-- When `LocationIter` answers a next state, it is at the end, or two bytes are there and it yields (R193, R196). -/
theorem locationNext_cases {s t : State} (hnext : locationNext s = .next t) :
    (s.loc.buffer.size ≤ s.loc.cursor ∧ t = s.endLocations) ∨
    ∃ h, s.loc.buffer.readHalf s.loc.cursor = some h ∧ t = s.yieldLocation (instructionLength h) := by
  unfold locationNext locationNextOf at hnext
  rcases classifyAt_cases s.loc.buffer s.loc.cursor with ⟨hend, hc⟩ | ⟨-, hc⟩ | ⟨h, hr, hc⟩ <;> rw [hc] at hnext
  · exact .inl ⟨hend, (Host.Outcome.next.inj hnext).symm⟩
  · contradiction
  · exact .inr ⟨h, hr, (Host.Outcome.next.inj hnext).symm⟩

theorem callLoadAndDecode_cases {f : ElfFile} {s t : State} (hcall : callLoadAndDecode f s = .next t) :
    ∃ r, loadAndDecodeObjectFile f = .next r ∧ t = { s with decodedProgram := some r } := by
  unfold callLoadAndDecode at hcall
  cases hload : loadAndDecodeObjectFile f <;> rw [hload] at hcall
  case next r => exact ⟨r, rfl, (Host.Outcome.next.inj hcall).symm⟩
  all_goals contradiction

/-- A step asks for the next instruction, or serves the call at the head of the queue (log 5). -/
theorem step_cases (s : State) :
    (∃ rest, s.AsksNext rest ∧ step s = instructionNext { s with requests := rest }) ∨
    ∃ c rest, s.requests = .call c :: rest ∧ step s = serve c { s with requests := rest } := by
  rcases hreq : s.requests with _ | ⟨_ | c, rest⟩
  · exact .inl ⟨[], .inl ⟨hreq, rfl⟩, step_asksNext (.inl ⟨hreq, rfl⟩)⟩
  · exact .inl ⟨rest, .inr hreq, step_next hreq⟩
  · exact .inr ⟨c, rest, rfl, step_call hreq⟩

/-- Settles O36: the call is served by presenting the word, which drives the ports and nothing else. -/
theorem presentedWordGivesItsResult : Obligations.PresentedWordGivesItsResult := by
  unfold Obligations.PresentedWordGivesItsResult
  exact fun s h rest hreq => (step_call hreq).trans rfl

/-! ## The parts of the invariant, update by update -/

theorem Item.byteLength_two_or_four (it : Item) : it.byteLength = 2 ∨ it.byteLength = 4 := by
  cases it with
  | block r => exact .inl rfl
  | full w => exact .inr rfl

namespace State

variable {s t : State}

theorem InstructionWalk.congr (hs : s.InstructionWalk) (hins : t.ins = s.ins) (hitems : t.insItems = s.insItems)
    (hended : t.insEnded = s.insEnded) : t.InstructionWalk := by
  obtain ⟨hbuffer, hbounded, heven, hcontiguous, hallowed, hend⟩ := hs
  constructor <;> simpa only [hins, hitems, hended]

theorem LocationWalk.congr (hs : s.LocationWalk) (hloc : t.loc = s.loc) (hitems : t.locItems = s.locItems)
    (hended : t.locEnded = s.locEnded) : t.LocationWalk := by
  obtain ⟨hbuffer, hbounded, heven, hleast, hmost, hend⟩ := hs
  constructor <;> simpa only [hloc, hitems, hended]

/-- An instruction that is all there moves the walk on by its length (R195, R199). -/
theorem InstructionWalk.yieldItem (hs : s.InstructionWalk) {it : Item} (hit : it.Allowed)
    (hroom : s.ins.cursor + it.byteLength ≤ s.ins.buffer.size) : (s.yieldItem it it.byteLength).InstructionWalk where
  buffer := hs.buffer
  bounded := hroom
  even := by
    have hlen := it.byteLength_two_or_four
    have heven := hs.even
    simp only [yieldItem_ins]
    omega
  contiguous := by simp [hs.contiguous]
  items := by
    intro it' hmem
    rcases List.mem_append.mp hmem with hold | hnew
    · exact hs.items it' hold
    · exact List.mem_singleton.mp hnew ▸ hit
  ended := by
    intro hended
    have hlen := it.byteLength_two_or_four
    have hend := hs.ended hended
    omega

theorem InstructionWalk.endInstructions (hs : s.InstructionWalk) (hend : s.ins.buffer.size ≤ s.ins.cursor) :
    s.endInstructions.InstructionWalk :=
  { hs with ended := fun _ => Nat.le_antisymm hs.bounded hend }

/-- Where two bytes are there, the walk moves on by either length, past the end by two at most (R193). -/
theorem LocationWalk.yieldLocation (hs : s.LocationWalk) {n : Nat} (hn : n = 2 ∨ n = 4)
    (hroom : s.loc.cursor + 2 ≤ s.loc.buffer.size) : (s.yieldLocation n).LocationWalk where
  buffer := hs.buffer
  bounded := by
    simp only [yieldLocation_loc]
    omega
  even := by
    have heven := hs.even
    simp only [yieldLocation_loc]
    omega
  atLeast := by
    have hleast := hs.atLeast
    simp only [yieldLocation_loc, yieldLocation_locItems, List.length_append, List.length_singleton]
    omega
  atMost := by
    have hmost := hs.atMost
    simp only [yieldLocation_loc, yieldLocation_locItems, List.length_append, List.length_singleton]
    omega
  ended := by
    intro hended
    have hend := hs.ended hended
    omega

theorem LocationWalk.endLocations (hs : s.LocationWalk) (hend : s.loc.buffer.size ≤ s.loc.cursor) :
    s.endLocations.LocationWalk :=
  { hs with ended := fun _ => hend }

/-- A walk over bytes that has not begun (R192). -/
theorem InstructionWalk.of_new (hm : s.ins.buffer.wf) (hcursor : s.ins.cursor = 0) (hitems : s.insItems = [])
    (hended : s.insEnded = false) : s.InstructionWalk :=
  ⟨hm, by simp [hcursor], by simp [hcursor], by simp [hcursor, hitems], by simp [hitems], by simp [hended]⟩

theorem LocationWalk.of_new (hm : s.loc.buffer.wf) (hcursor : s.loc.cursor = 0) (hitems : s.locItems = [])
    (hended : s.locEnded = false) : s.LocationWalk :=
  ⟨hm, by simp [hcursor], by simp [hcursor], by simp [hcursor, hitems], by simp [hcursor], by simp [hended]⟩

/-! ## The invariant, update by update -/

/-- A word held on `instr_i`, with the outputs following it (R21). -/
theorem Inv.present (hs : s.Inv) (h : Half) : ((s.setInstrI h).setOutputs (decompress h)).Inv :=
  ⟨rfl, hs.instructions.congr rfl rfl rfl, hs.locations.congr rfl rfl rfl⟩

theorem Inv.yieldItem (hs : s.Inv) {it : Item} (hit : it.Allowed)
    (hroom : s.ins.cursor + it.byteLength ≤ s.ins.buffer.size) : (s.yieldItem it it.byteLength).Inv :=
  ⟨hs.outputs, hs.instructions.yieldItem hit hroom, hs.locations.congr rfl rfl rfl⟩

/-- The invariant does not speak of the loaders' results or of the queue. -/
theorem Inv.frame (hs : s.Inv) (program : Option (Except LoaderError RiscuProgram))
    (decoded : Option (Except LoaderError DecodedRiscuProgram)) (requests : List Request) :
    ({ s with program := program, decodedProgram := decoded, requests := requests } : State).Inv :=
  ⟨hs.outputs, hs.instructions.congr rfl rfl rfl, hs.locations.congr rfl rfl rfl⟩

end State

/-- Settles O34: the outputs are the block's answer to the zero word, and neither walk has begun. -/
theorem resetMeetsInvariant : Obligations.ResetMeetsInvariant where
  outputs := rfl
  instructions := .of_new Memory.empty_wf rfl rfl rfl
  locations := .of_new Memory.empty_wf rfl rfl rfl

theorem instructionNext_keeps_inv {s t : State} (hs : s.Inv) (hnext : instructionNext s = .next t) : t.Inv := by
  rcases instructionNext_cases hnext with ⟨hend, rfl⟩ | ⟨h, hr, hq, rfl⟩ | ⟨h, w, hr, hq, hw, rfl⟩
  · exact ⟨hs.outputs, hs.instructions.endInstructions hend, hs.locations.congr rfl rfl rfl⟩
  · exact (hs.present h).yieldItem (decompress_allowed hq) (Memory.readHalf_eq_some.mp hr).1
  · have hlow : w.setWidth 16 = h := Option.some.inj ((readHalf_of_readWord hw).symm.trans hr)
    have hit : (Item.full w).Allowed := (congrArg quadrantOf hlow).trans hq
    rw [← decompress_of_q3 hq]
    exact (hs.present h).yieldItem hit (Memory.readWord_eq_some.mp hw).1

theorem locationNext_keeps_inv {s t : State} (hs : s.Inv) (hnext : locationNext s = .next t) : t.Inv := by
  rcases locationNext_cases hnext with ⟨hend, rfl⟩ | ⟨h, hr, rfl⟩
  · exact ⟨hs.outputs, hs.instructions.congr rfl rfl rfl, hs.locations.endLocations hend⟩
  · have hroom := (Memory.readHalf_eq_some.mp hr).1
    exact ⟨hs.outputs, hs.instructions.congr rfl rfl rfl,
      hs.locations.yieldLocation (instructionLength_two_or_four h) hroom⟩

theorem serve_keeps_inv {c : HostCall} {s t : State} (hs : s.Inv) (hserve : serve c s = .next t) : t.Inv := by
  cases c with
  | nextLocation => exact locationNext_keeps_inv hs hserve
  | present h =>
    cases hserve
    exact hs.present h
  | newInstructionIter bytes =>
    cases hserve
    exact ⟨hs.outputs, .of_new (Memory.ofBytes_wf bytes) rfl rfl rfl, hs.locations.congr rfl rfl rfl⟩
  | newLocationIter bytes base =>
    cases hserve
    exact ⟨hs.outputs, hs.instructions.congr rfl rfl rfl, .of_new (Memory.ofBytes_wf bytes) rfl rfl rfl⟩
  | loadObjectFile f =>
    cases hserve
    exact hs.frame _ _ _
  | loadAndDecodeObjectFile f =>
    obtain ⟨r, -, rfl⟩ := callLoadAndDecode_cases hserve
    exact hs.frame _ _ _

/-- Settles O33: the walk's next instruction and every call keep the invariant, which does not speak of the queue. -/
theorem stepKeepsInvariant : Obligations.StepKeepsInvariant := by
  unfold Obligations.StepKeepsInvariant
  intro s t hs hstep
  have hqueue (rest : List Request) : ({ s with requests := rest } : State).Inv := hs.frame _ _ rest
  rcases step_cases s with ⟨rest, -, heq⟩ | ⟨c, rest, -, heq⟩
  · exact instructionNext_keeps_inv (hqueue rest) (heq.symm.trans hstep)
  · exact serve_keeps_inv (hqueue rest) (heq.symm.trans hstep)

end Machine
end Sys2Proof

namespace Sys2Proof
namespace Machine

/-! ## Fetches byte by byte (R41 to R43, R47) -/

theorem Memory.read_eq_some {m : Memory} {a : Nat} {b : Byte} :
    m.read a = some b ↔ a < m.size ∧ cellAt a m.cells = b := by
  rw [Memory.read, Option.ite_none_right_eq_some, Option.some.injEq]

/-- The 16-bit read is the two bytes, both of which exist (R42). -/
theorem Memory.readHalf_eq_some_iff_bytes {m : Memory} {a : Nat} {h : Half} :
    m.readHalf a = some h ↔
      ∃ b0 b1, m.read a = some b0 ∧ m.read (a + 1) = some b1 ∧ h = halfOfBytes b0 b1 := by
  simp only [Memory.readHalf_eq_some, Memory.read_eq_some]
  constructor
  · rintro ⟨hs, rfl⟩
    exact ⟨_, _, ⟨by omega, rfl⟩, ⟨by omega, rfl⟩, rfl⟩
  · rintro ⟨_, _, ⟨-, rfl⟩, ⟨hs, rfl⟩, rfl⟩
    exact ⟨hs, rfl⟩

/-- The 32-bit read is the four bytes, all of which exist (R43, D16). -/
theorem Memory.readWord_eq_some_iff_bytes {m : Memory} {a : Nat} {w : Word} :
    m.readWord a = some w ↔
      ∃ b0 b1 b2 b3, m.read a = some b0 ∧ m.read (a + 1) = some b1 ∧ m.read (a + 2) = some b2 ∧
        m.read (a + 3) = some b3 ∧ w = wordOfBytes b0 b1 b2 b3 := by
  simp only [Memory.readWord_eq_some, Memory.read_eq_some]
  constructor
  · rintro ⟨hs, rfl⟩
    exact ⟨_, _, _, _, ⟨by omega, rfl⟩, ⟨by omega, rfl⟩, ⟨by omega, rfl⟩, ⟨by omega, rfl⟩, rfl⟩
  · rintro ⟨_, _, _, _, ⟨-, rfl⟩, ⟨-, rfl⟩, ⟨-, rfl⟩, ⟨hs, rfl⟩, rfl⟩
    exact ⟨hs, rfl⟩

/-- Settles O29: each read is its bytes, and the low half of a word is the half of its first two. -/
theorem fetchIsLittleEndian : Obligations.FetchIsLittleEndian := by
  unfold Obligations.FetchIsLittleEndian
  exact fun m a =>
    ⟨fun _ => Memory.readHalf_eq_some_iff_bytes, fun _ => Memory.readWord_eq_some_iff_bytes, fun _ => readHalf_of_readWord⟩

/-! ## The frame of every instruction (R46, R195) -/

/-- Whatever an instruction does, it drives the outputs and yields one item of its own length (R195). -/
theorem exec_yields_item (i : Instr) (s : State) :
    ∃ r it, it.byteLength = i.byteLength ∧ exec i s = .next ((s.setOutputs r).yieldItem it i.byteLength) := by
  rcases exec_cases i s with ⟨r, hlen, hexec⟩ | ⟨hlen, hexec⟩ <;> rw [hlen, hexec]
  · exact ⟨r, .block r, rfl, rfl⟩
  · exact ⟨.notCompressed, .full (encodeWord i), rfl, rfl⟩

/-- Settles O30: driving the outputs and yielding an item touch neither a buffer nor any of the fields named. -/
theorem execFrame : Obligations.ExecFrame := by
  unfold Obligations.ExecFrame
  intro i s t hnext
  obtain ⟨r, it, hlen, hexec⟩ := exec_yields_item i s
  obtain rfl : (s.setOutputs r).yieldItem it i.byteLength = t := Host.Outcome.next.inj (hexec.symm.trans hnext)
  simp [hlen]

end Machine
end Sys2Proof

namespace Sys2Proof

open Machine

/-! ## A 16-bit word put together again from its fields (R62 to R64) -/

/-- The quadrant tells `h[1:0]`, and nothing else of a word. -/
theorem quadrantOf_eq_iff {h h' : Half} :
    quadrantOf h = quadrantOf h' ↔ h.getLsbD 1 = h'.getLsbD 1 ∧ h.getLsbD 0 = h'.getLsbD 0 := by
  unfold quadrantOf
  cases h.getLsbD 1 <;> cases h.getLsbD 0 <;> cases h'.getLsbD 1 <;> cases h'.getLsbD 0 <;> simp

section
variable {h : Half}

section
variable {f : BitVec 3} {op : BitVec 2} (h15 : h.getLsbD 15 = f.getLsbD 2) (h14 : h.getLsbD 14 = f.getLsbD 1)
  (h13 : h.getLsbD 13 = f.getLsbD 0) (hq : quadrantOf h = quadrantOf (op.setWidth 16))
include h15 h14 h13 hq

theorem encodeClass_unreadField : encodeClass f (unreadField h) op = h := by
  obtain ⟨h1, h0⟩ := quadrantOf_eq_iff.mp hq
  refine BitVec.eq_of_getLsbD_eq fun k hk => ?_
  rw [encodeClass_getLsbD]
  simp only [unreadField, BitVec.getLsbD_extractLsb']
  interval_cases k <;> simp_all

theorem encodeCi_ciRaw_rdField : encodeCi f (ciRaw h) (rdField h) op = h := by
  obtain ⟨h1, h0⟩ := quadrantOf_eq_iff.mp hq
  refine BitVec.eq_of_getLsbD_eq fun k hk => ?_
  rw [encodeCi_getLsbD]
  simp only [rdField, BitVec.getLsbD_extractLsb', ciRaw_getLsbD]
  interval_cases k <;> simp_all

theorem encodeCi_ciRaw_zero (hrd : rdField h = 0#5) : encodeCi f (ciRaw h) 0#5 op = h := by
  rw [← hrd, encodeCi_ciRaw_rdField h15 h14 h13 hq]

end

section
variable (hq : quadrantOf h = .q1) (h15 : h.getLsbD 15 = true) (h14 : h.getLsbD 14 = false)
  (h13 : h.getLsbD 13 = false)
include hq h15 h14 h13

theorem encodeMisc_fields {sub : BitVec 2} (h11 : h.getLsbD 11 = sub.getLsbD 1) (h10 : h.getLsbD 10 = sub.getLsbD 0) :
    encodeMisc (h.extractLsb' 12 1) sub (h.extractLsb' 2 8) = h := by
  obtain ⟨h1, h0⟩ := quadrantOf_eq_q1.mp hq
  refine BitVec.eq_of_getLsbD_eq fun k hk => ?_
  rw [encodeMisc_getLsbD]
  simp only [BitVec.getLsbD_extractLsb']
  interval_cases k <;> simp_all

theorem encodeMisc11_fields (h11 : h.getLsbD 11 = true) (h10 : h.getLsbD 10 = true) {selHi : BitVec 1} {selLo : BitVec 2}
    (h12 : h.getLsbD 12 = selHi.getLsbD 0) (h6 : h.getLsbD 6 = selLo.getLsbD 1) (h5 : h.getLsbD 5 = selLo.getLsbD 0) :
    encodeMisc11 selHi selLo (rdPField h) (rs2PField h) = h := by
  obtain ⟨h1, h0⟩ := quadrantOf_eq_q1.mp hq
  refine BitVec.eq_of_getLsbD_eq fun k hk => ?_
  rw [encodeMisc11_getLsbD]
  simp only [rdPField, rs2PField, BitVec.getLsbD_extractLsb']
  interval_cases k <;> simp_all

end
end

/-! ## The decoder of 2-byte words (R60, R62) -/

/-- The instruction of a 2-byte word; a word of quadrant 3 is the first half of a longer one. -/
def decodeShort (h : Half) : Option Instr :=
  match quadrantOf h with
  | .q0 => some (decodeQ0 h)
  | .q1 => some (decodeQ1 h)
  | .q2 => some (decodeQ2 h)
  | .q3 => none

/-- `i` is a well-formed 2-byte instruction whose word is `h`. -/
structure Instr.IsShort (i : Instr) (h : Half) : Prop where
  wellFormed : i.wellFormed = true
  byteLength : i.byteLength = 2
  word : encodeWord i = h.setWidth 32

theorem Instr.IsShort.of_encode {i : Instr} {h h' : Half} (hwf : i.wellFormed = true) (hlen : i.byteLength = 2)
    (hword : encodeWord i = h'.setWidth 32) (heq : h' = h) : i.IsShort h :=
  ⟨hwf, hlen, heq ▸ hword⟩

section
variable {h : Half}

theorem decodeQ0_isShort (hq : quadrantOf h = .q0) : (decodeQ0 h).IsShort h := by
  unfold decodeQ0
  match h15 : h.getLsbD 15, h14 : h.getLsbD 14, h13 : h.getLsbD 13 with
  | false, false, false | false, false, true | false, true, false | false, true, true
  | true, false, false | true, false, true | true, true, false | true, true, true =>
    exact .of_encode rfl rfl rfl (encodeClass_unreadField h15 h14 h13 hq)

theorem decodeMisc11_isShort (hq : quadrantOf h = .q1) (h15 : h.getLsbD 15 = true) (h14 : h.getLsbD 14 = false)
    (h13 : h.getLsbD 13 = false) (h11 : h.getLsbD 11 = true) (h10 : h.getLsbD 10 = true) :
    (decodeMisc11 h).IsShort h := by
  unfold decodeMisc11
  match h12 : h.getLsbD 12, h6 : h.getLsbD 6, h5 : h.getLsbD 5 with
  | false, false, false | false, false, true | false, true, false | false, true, true
  | true, false, false | true, false, true | true, true, false | true, true, true =>
    exact .of_encode rfl rfl rfl (encodeMisc11_fields hq h15 h14 h13 h11 h10 h12 h6 h5)

theorem decodeMiscAlu_isShort (hq : quadrantOf h = .q1) (h15 : h.getLsbD 15 = true) (h14 : h.getLsbD 14 = false)
    (h13 : h.getLsbD 13 = false) : (decodeMiscAlu h).IsShort h := by
  unfold decodeMiscAlu
  match h11 : h.getLsbD 11, h10 : h.getLsbD 10 with
  | false, false | false, true | true, false =>
    exact .of_encode rfl rfl rfl (encodeMisc_fields hq h15 h14 h13 h11 h10)
  | true, true => exact decodeMisc11_isShort hq h15 h14 h13 h11 h10

theorem decodeQ1_isShort (hq : quadrantOf h = .q1) : (decodeQ1 h).IsShort h := by
  unfold decodeQ1
  match h15 : h.getLsbD 15, h14 : h.getLsbD 14, h13 : h.getLsbD 13 with
  | false, true, false =>
    show (if rdField h = 0#5 then Instr.cLiRd0 (ciRaw h) else .cLi (rdField h) (ciRaw h)).IsShort h
    split_ifs with hrd
    · exact .of_encode rfl rfl rfl (encodeCi_ciRaw_zero h15 h14 h13 hq hrd)
    · exact .of_encode (bne_iff_ne.mpr hrd) rfl rfl (encodeCi_ciRaw_rdField h15 h14 h13 hq)
  | true, false, false => exact decodeMiscAlu_isShort hq h15 h14 h13
  | false, false, false | false, false, true | false, true, true | true, false, true
  | true, true, false | true, true, true =>
    exact .of_encode rfl rfl rfl (encodeClass_unreadField h15 h14 h13 hq)

theorem decodeQ2_isShort (hq : quadrantOf h = .q2) : (decodeQ2 h).IsShort h := by
  unfold decodeQ2
  match h15 : h.getLsbD 15, h14 : h.getLsbD 14, h13 : h.getLsbD 13 with
  | false, true, false =>
    show (if rdField h = 0#5 then Instr.cLwspRd0 (ciRaw h) else .cLwsp (rdField h) (ciRaw h)).IsShort h
    split_ifs with hrd
    · exact .of_encode rfl rfl rfl (encodeCi_ciRaw_zero h15 h14 h13 hq hrd)
    · exact .of_encode (bne_iff_ne.mpr hrd) rfl rfl (encodeCi_ciRaw_rdField h15 h14 h13 hq)
  | false, false, false | false, false, true | false, true, true | true, false, false | true, false, true
  | true, true, false | true, true, true =>
    exact .of_encode rfl rfl rfl (encodeClass_unreadField h15 h14 h13 hq)

theorem decodeShort_isShort {i : Instr} (hi : decodeShort h = some i) : i.IsShort h := by
  unfold decodeShort at hi
  cases hq : quadrantOf h <;> simp only [hq, Option.some.injEq, reduceCtorEq] at hi <;> subst hi
  case q0 => exact decodeQ0_isShort hq
  case q1 => exact decodeQ1_isShort hq
  case q2 => exact decodeQ2_isShort hq

end

/-! ## Decoding an encoded 2-byte instruction -/

/-- A 2-byte instruction's word is of its quadrant, and the decoder takes its selectors and fields back out. -/
theorem Instr.exists_half {i : Instr} (hwf : i.wellFormed = true) (hlen : i.byteLength = 2) :
    ∃ h : Half, encodeWord i = h.setWidth 32 ∧ decodeShort h = some i := by
  cases i with
  | notCompressed | addi | lw | sub => cases hlen
  | q0c000 | q0c001Fld | q0c010Lw | q0c011Ld | q0c100 | q0c101Fsd | q0c110Sw | q0c111Sd
  | q1c000 | q1c001 | q1c011 | q1c101 | q1c110 | q1c111
  | q2c000 | q2c001 | q2c011 | q2c100 | q2c101 | q2c110 | q2c111 =>
    refine ⟨_, rfl, ?_⟩
    simp only [decodeShort, quadrantOf, decodeQ0, decodeQ1, decodeQ2, encodeClass_getLsbD, unreadField_encodeClass]
    rfl
  | miscAlu00 | miscAlu01 | miscAlu10 =>
    refine ⟨_, rfl, ?_⟩
    simp only [decodeShort, quadrantOf, decodeQ1, decodeMiscAlu, encodeMisc_getLsbD, hiField_encodeMisc,
      loField_encodeMisc]
    rfl
  | cSub | misc11s001 | misc11s010 | misc11s011 | misc11s100 | misc11s101 | misc11s110 | misc11s111 =>
    refine ⟨_, rfl, ?_⟩
    simp only [decodeShort, quadrantOf, decodeQ1, decodeMiscAlu, decodeMisc11, encodeMisc11_getLsbD,
      rdPField_encodeMisc11, rs2PField_encodeMisc11]
    rfl
  | cLi rd raw | cLwsp rd raw =>
    refine ⟨_, rfl, ?_⟩
    have hrd : rd ≠ 0#5 := bne_iff_ne.mp hwf
    simp only [decodeShort, quadrantOf, decodeQ1, decodeQ2, encodeCi_getLsbD, rdField_encodeCi, ciRaw_encodeCi,
      if_neg hrd]
    rfl
  | cLiRd0 raw | cLwspRd0 raw =>
    refine ⟨_, rfl, ?_⟩
    simp only [decodeShort, quadrantOf, decodeQ1, decodeQ2, encodeCi_getLsbD, rdField_encodeCi, ciRaw_encodeCi]
    rfl

/-! ## Full words -/

section
variable (rd rs1 rs2 : RegId) (imm : BitVec 12)

@[simp] theorem fitsAddi_buildAddi : fitsAddi (buildAddi rd rs1 imm) = true := by simp [fitsAddi, buildAddi]

@[simp] theorem fitsLw_buildLw : fitsLw (buildLw rd imm) = true := by simp [fitsLw, buildLw]

@[simp] theorem fitsSub_buildSub : fitsSub (buildSub rd rs1 rs2) = true := by simp [fitsSub, buildSub]

/-- The opcodes of R67 tell the three output rows apart. -/
@[simp] theorem fitsAddi_buildLw : fitsAddi (buildLw rd imm) = false := by
  simp [fitsAddi, buildLw, show Config.lwOpcode ≠ Config.addiOpcode by decide]

@[simp] theorem fitsAddi_buildSub : fitsAddi (buildSub rd rs1 rs2) = false := by
  simp [fitsAddi, buildSub, show Config.r6.subOpcode ≠ Config.addiOpcode by decide]

@[simp] theorem fitsLw_buildSub : fitsLw (buildSub rd rs1 rs2) = false := by
  simp [fitsLw, buildSub, show Config.r6.subOpcode ≠ Config.lwOpcode by decide]

theorem decodeFullWord_buildAddi : decodeFullWord (buildAddi rd rs1 imm) = .addi rd rs1 imm := by
  rw [decodeFullWord, if_pos (fitsAddi_buildAddi ..)]
  simp [buildAddi]

theorem decodeFullWord_buildLw : decodeFullWord (buildLw rd imm) = .lw rd imm := by
  rw [decodeFullWord, fitsAddi_buildLw, fitsLw_buildLw]
  simp [buildLw]

theorem decodeFullWord_buildSub : decodeFullWord (buildSub rd rs1 rs2) = .sub rd rs1 rs2 := by
  rw [decodeFullWord, fitsAddi_buildSub, fitsLw_buildSub, fitsSub_buildSub]
  simp [buildSub]

end

/-- A word that is none of the output rows is kept whole (log 14). -/
theorem decodeFullWord_of_wellFormed {w : Word} (hwf : (Instr.notCompressed w).wellFormed = true) :
    decodeFullWord w = .notCompressed w := by
  simp only [Instr.wellFormed, Bool.and_eq_true, Bool.not_eq_true'] at hwf
  obtain ⟨⟨⟨-, hAddi⟩, hLw⟩, hSub⟩ := hwf
  simp [decodeFullWord, hAddi, hLw, hSub]

/-- A 4-byte instruction's word is of quadrant 3, and decodes to the instruction. -/
theorem Instr.decodeFullWord_encodeWord {i : Instr} (hwf : i.wellFormed = true) (hlen : i.byteLength = 4) :
    quadrantOf i.firstHalf = .q3 ∧ decodeFullWord (encodeWord i) = i := by
  rw [← instructionLength_eq_four]
  cases i with
  | notCompressed w => exact ⟨(Laws.EncodedForm.notCompressed w).2 hwf, decodeFullWord_of_wellFormed hwf⟩
  | addi rd rs1 imm => exact ⟨(Laws.EncodedForm.addi rd rs1 imm).2 hwf, decodeFullWord_buildAddi rd rs1 imm⟩
  | lw rd imm => exact ⟨(Laws.EncodedForm.lw rd imm).2 hwf, decodeFullWord_buildLw rd imm⟩
  | sub rd rs1 rs2 => exact ⟨(Laws.EncodedForm.sub rd rs1 rs2).2 hwf, decodeFullWord_buildSub rd rs1 rs2⟩
  | _ => cases hlen

theorem decodeFullWord_wellFormed {w : Word} (hq : quadrantOf (w.setWidth 16) = .q3) :
    (decodeFullWord w).wellFormed = true := by
  unfold decodeFullWord
  split_ifs with hAddi hLw hSub
  case neg =>
    obtain ⟨h1, h0⟩ := (quadrantOf_eq_iff (h' := 3#16)).mp hq
    simp_all [Instr.wellFormed]
  all_goals rfl

/-! ## Byte lists (R42, R43, R60) -/

theorem encode_eq_two_bytes {i : Instr} {b0 b1 : Byte} (hlen : i.byteLength = 2)
    (hword : encodeWord i = (halfOfBytes b0 b1).setWidth 32) : encode i = [b0, b1] := by
  have h0 : (halfOfBytes b0 b1).extractLsb' 0 8 = b0 := BitVec.extractLsb'_append_eq_right
  have h1 : (halfOfBytes b0 b1).extractLsb' 8 8 = b1 := BitVec.extractLsb'_append_eq_left
  simp [encode, hlen, hword, bytesOfWord, BitVec.extractLsb'_setWidth_of_le, h0, h1]

theorem encode_eq_four_bytes {i : Instr} {b0 b1 b2 b3 : Byte} (hlen : i.byteLength = 4)
    (hword : encodeWord i = wordOfBytes b0 b1 b2 b3) : encode i = [b0, b1, b2, b3] := by
  have h0 : (wordOfBytes b0 b1 b2 b3).extractLsb' 0 8 = b0 := BitVec.extractLsb'_append_eq_right
  have h1 : (wordOfBytes b0 b1 b2 b3).extractLsb' 8 8 = b1 :=
    (BitVec.extractLsb'_append_eq_of_le (by omega)).trans BitVec.extractLsb'_append_eq_right
  have h2 : (wordOfBytes b0 b1 b2 b3).extractLsb' 16 8 = b2 :=
    (BitVec.extractLsb'_append_eq_of_le (by omega)).trans
      ((BitVec.extractLsb'_append_eq_of_le (by omega)).trans BitVec.extractLsb'_append_eq_right)
  have h3 : (wordOfBytes b0 b1 b2 b3).extractLsb' 24 8 = b3 :=
    (BitVec.extractLsb'_append_eq_of_le (by omega)).trans
      ((BitVec.extractLsb'_append_eq_of_le (by omega)).trans BitVec.extractLsb'_append_eq_left)
  simp [encode, hlen, hword, bytesOfWord, h0, h1, h2, h3]

theorem Instr.byteLength_two_or_four (i : Instr) : i.byteLength = 2 ∨ i.byteLength = 4 := by
  unfold Instr.byteLength
  split <;> simp

theorem exists_halfOfBytes (h : Half) : ∃ b0 b1, h = halfOfBytes b0 b1 :=
  ⟨_, _, by rw [halfOfBytes_of_word (h.setWidth 32), BitVec.setWidth_setWidth_of_le _ (by omega), BitVec.setWidth_eq]⟩

/-- Everything the decoder accepts: a 2-byte word of its quadrant, or the four bytes of a quadrant-3 word (R60). -/
theorem decodeBytes_eq_ok_iff {bs rest : List Byte} {i : Instr} :
    decodeBytes bs = .ok (i, rest) ↔
      (∃ b0 b1, bs = b0 :: b1 :: rest ∧ decodeShort (halfOfBytes b0 b1) = some i) ∨
      ∃ b0 b1 b2 b3, bs = b0 :: b1 :: b2 :: b3 :: rest ∧ quadrantOf (halfOfBytes b0 b1) = .q3 ∧
        decodeFullWord (wordOfBytes b0 b1 b2 b3) = i := by
  match bs with
  | [] | [_] => simp [decodeBytes]
  | b0 :: b1 :: tail =>
    rw [decodeBytes_half]
    cases hq : quadrantOf (halfOfBytes b0 b1) with
    | q0 | q1 | q2 => simp [decodeShort, hq, and_comm]
    | q3 =>
      match tail with
      | [] | [_] => simp [decodeShort, hq, decodeLong]
      | b2 :: b3 :: tail => simp [decodeShort, hq, decodeLong, and_comm]

/-- Settles O20: an instruction's word decodes to it at either length, and its bytes are the word's. -/
theorem decodeEncodeRoundTrip : Obligations.DecodeEncodeRoundTrip := by
  unfold Obligations.DecodeEncodeRoundTrip
  intro i rest hwf
  rw [decodeBytes_eq_ok_iff]
  rcases i.byteLength_two_or_four with hlen | hlen
  · obtain ⟨h, hword, hdecode⟩ := Instr.exists_half hwf hlen
    obtain ⟨b0, b1, rfl⟩ := exists_halfOfBytes h
    exact .inl ⟨b0, b1, by rw [encode_eq_two_bytes hlen hword]; rfl, hdecode⟩
  · obtain ⟨hq, hdecode⟩ := Instr.decodeFullWord_encodeWord hwf hlen
    have hword := wordOfBytes_of_word (encodeWord i)
    refine .inr ⟨_, _, _, _, by rw [encode_eq_four_bytes hlen hword.symm]; rfl, ?_, ?_⟩
    · rw [halfOfBytes_of_word]
      exact hq
    · rw [hword, hdecode]

/-- Settles O21: a decoded instruction's word is the one it was decoded from, so its bytes are those. -/
theorem encodeDecodeRoundTrip : Obligations.EncodeDecodeRoundTrip := by
  unfold Obligations.EncodeDecodeRoundTrip
  intro bs rest i hdecode
  rcases decodeBytes_eq_ok_iff.mp hdecode with ⟨b0, b1, rfl, hi⟩ | ⟨b0, b1, b2, b3, rfl, hq, rfl⟩
  · obtain ⟨hwf, hlen, hword⟩ := decodeShort_isShort hi
    exact ⟨hwf, by rw [encode_eq_two_bytes hlen hword]; rfl⟩
  · rw [← setWidth_wordOfBytes b0 b1 b2 b3] at hq
    exact ⟨decodeFullWord_wellFormed hq,
      by rw [encode_eq_four_bytes (decodeFullWord_byteLength _) (encodeWord_decodeFullWord _)]; rfl⟩

/-! ## The input rows exclude each other (R77) -/

/-- Two rows that no word is of: they fix some bit differently, or the first leaves out `rd = 0`, which the second fixes. -/
def Row.apart (r r' : Row) : Bool :=
  r.mask &&& r'.mask &&& (r.pattern ^^^ r'.pattern) != 0#16 ||
    (r.rdNot0 && rdField r'.mask == 31#5 && rdField r'.pattern == 0#5)

theorem Row.selects_iff {r : Row} {h : Half} :
    r.selects h = true ↔ h &&& r.mask = r.pattern ∧ (r.rdNot0 = true → rdField h ≠ 0#5) := by
  unfold Row.selects
  cases r.rdNot0 <;> simp

theorem Row.not_selects_of_apart {r r' : Row} (hapart : r.apart r' = true) {h : Half} (hr : r.selects h = true) :
    r'.selects h = false := by
  rw [← Bool.not_eq_true]
  intro hr'
  obtain ⟨hp, hrd⟩ := Row.selects_iff.mp hr
  obtain ⟨hp', -⟩ := Row.selects_iff.mp hr'
  simp only [Row.apart, Bool.or_eq_true, Bool.and_eq_true, bne_iff_ne, beq_iff_eq] at hapart
  rcases hapart with hbits | ⟨⟨hnot0, hmask⟩, hzero⟩
  · refine hbits (BitVec.eq_of_getLsbD_eq fun k _ => ?_)
    rw [← hp, ← hp']
    simp only [BitVec.getLsbD_and, BitVec.getLsbD_xor, BitVec.getLsbD_zero]
    cases h.getLsbD k <;> cases r.mask.getLsbD k <;> cases r'.mask.getLsbD k <;> rfl
  · refine hrd hnot0 ?_
    calc rdField h = rdField h &&& rdField r'.mask := by rw [hmask]; exact BitVec.and_allOnes.symm
      _ = rdField (h &&& r'.mask) := BitVec.extractLsb'_and.symm
      _ = 0#5 := by rw [hp', hzero]

theorem inputRows_apart : inputRows.Pairwise fun r r' => r.apart r' = true := by decide

/-- Of rows that exclude each other, the one that selects a word is the only one. -/
theorem filter_selects_eq_singleton {rows : List Row} (hapart : rows.Pairwise fun r r' => r.apart r' = true) {r : Row}
    (hmem : r ∈ rows) {h : Half} (hr : r.selects h = true) : rows.filter (fun r => r.selects h) = [r] := by
  induction rows with
  | nil => contradiction
  | cons r' rows ih =>
    obtain ⟨hhead, htail⟩ := List.pairwise_cons.mp hapart
    rcases List.mem_cons.mp hmem with rfl | hmem
    · have hnil : rows.filter (fun r => r.selects h) = [] := by
        simpa using fun r' hr' => Row.not_selects_of_apart (hhead r' hr') hr
      rw [List.filter_cons, if_pos hr, hnil]
    · have hne : ¬ r'.selects h = true := fun hr' => by
        simpa [hr] using Row.not_selects_of_apart (hhead r hmem) hr'
      rw [List.filter_cons, if_neg hne, ih htail hmem]

/-! ## The selectors of an encoded word, by the masks of the rows (R73 to R76) -/

section
variable (f : BitVec 3) (op : BitVec 2)

theorem encodeClass_and_mask (x : BitVec 11) : encodeClass f x op &&& 0xE003#16 = encodeClass f 0#11 op := by
  refine BitVec.eq_of_getLsbD_eq fun k hk => ?_
  rw [BitVec.getLsbD_and, encodeClass_getLsbD, encodeClass_getLsbD]
  interval_cases k <;> simp

theorem encodeCi_and_mask (raw : BitVec 6) (rd : RegId) :
    encodeCi f raw rd op &&& 0xE003#16 = encodeCi f 0#6 0#5 op := by
  refine BitVec.eq_of_getLsbD_eq fun k hk => ?_
  rw [BitVec.getLsbD_and, encodeCi_getLsbD, encodeCi_getLsbD]
  interval_cases k <;> simp

theorem encodeCi_rd0_and_mask (raw : BitVec 6) : encodeCi f raw 0#5 op &&& 0xEF83#16 = encodeCi f 0#6 0#5 op := by
  refine BitVec.eq_of_getLsbD_eq fun k hk => ?_
  rw [BitVec.getLsbD_and, encodeCi_getLsbD, encodeCi_getLsbD]
  interval_cases k <;> simp

end

theorem encodeMisc_and_mask (hi : BitVec 1) (sub : BitVec 2) (lo : BitVec 8) :
    encodeMisc hi sub lo &&& 0xEC03#16 = encodeMisc 0#1 sub 0#8 := by
  refine BitVec.eq_of_getLsbD_eq fun k hk => ?_
  rw [BitVec.getLsbD_and, encodeMisc_getLsbD, encodeMisc_getLsbD]
  interval_cases k <;> simp

theorem encodeMisc11_and_mask (selHi : BitVec 1) (selLo : BitVec 2) (rdP rs2P : BitVec 3) :
    encodeMisc11 selHi selLo rdP rs2P &&& 0xFC63#16 = encodeMisc11 selHi selLo 0#3 0#3 := by
  refine BitVec.eq_of_getLsbD_eq fun k hk => ?_
  rw [BitVec.getLsbD_and, encodeMisc11_getLsbD, encodeMisc11_getLsbD]
  interval_cases k <;> simp

theorem and_mask_of_q3 {h : Half} (hq : quadrantOf h = .q3) : h &&& 0x0003#16 = 0x0003#16 := by
  obtain ⟨h1, h0⟩ := (quadrantOf_eq_iff (h' := 0x0003#16)).mp hq
  simp only [and_eq_iff_bits, Fin.forall_fin_succ]
  simp_all

/-! ## Every instruction's row (R77) -/

/-- `r` is a row of the table, it selects the first half of `i`, and its result is the status `i` leaves. -/
structure Instr.HasRow (i : Instr) (r : Row) : Prop where
  mem : r ∈ inputRows
  selects : r.selects i.firstHalf = true
  status : ∀ s : State, ∃ t, exec i s = .next t ∧ t.statusO = r.result

theorem Instr.exists_hasRow_of_half {i : Instr} {h : Half} (r : Row) (hmem : r ∈ inputRows) (hword : i.firstHalf = h)
    (hmask : h &&& r.mask = r.pattern) (hrd : r.rdNot0 = true → rdField h ≠ 0#5)
    (hstatus : ∀ s : State, ∃ t, exec i s = .next t ∧ t.statusO = r.result) : ∃ r, i.HasRow r :=
  ⟨r, hmem, Row.selects_iff.mpr (hword ▸ ⟨hmask, hrd⟩), hstatus⟩

theorem Instr.firstHalf_of_word {i : Instr} {h : Half} (hword : encodeWord i = h.setWidth 32) : i.firstHalf = h := by
  rw [Instr.firstHalf, hword, Laws.EncodedForm.firstHalf_setWidth]

/-- The row of an instruction is the row of its selectors, and gives what its meaning leaves on `status_o`. -/
theorem Instr.exists_hasRow {i : Instr} (hwf : i.wellFormed = true) : ∃ r, i.HasRow r := by
  cases i with
  | q0c000 =>
    exact exists_hasRow_of_half ⟨0xE003#16, _, false, .illegal, 2048⟩ (by decide) (firstHalf_of_word rfl)
      (encodeClass_and_mask ..) nofun fun _ => ⟨_, rfl, rfl⟩
  | q0c100 =>
    exact exists_hasRow_of_half ⟨0xE003#16, _, false, .reserved, 2048⟩ (by decide) (firstHalf_of_word rfl)
      (encodeClass_and_mask ..) nofun fun _ => ⟨_, rfl, rfl⟩
  | q0c001Fld | q0c010Lw | q0c011Ld | q0c101Fsd | q0c110Sw | q0c111Sd
  | q1c000 | q1c001 | q1c011 | q1c101 | q1c110 | q1c111
  | q2c000 | q2c001 | q2c011 | q2c100 | q2c101 | q2c110 | q2c111 =>
    exact exists_hasRow_of_half ⟨0xE003#16, _, false, .unimplemented, 2048⟩ (by decide) (firstHalf_of_word rfl)
      (encodeClass_and_mask ..) nofun fun _ => ⟨_, rfl, rfl⟩
  | cLi | cLwsp =>
    refine exists_hasRow_of_half ⟨0xE003#16, _, true, .ok, 1984⟩ (by decide) (firstHalf_of_word rfl)
      (encodeCi_and_mask ..) (fun _ => ?_) fun _ => ⟨_, rfl, rfl⟩
    rw [rdField_encodeCi]
    exact bne_iff_ne.mp hwf
  | cLiRd0 | cLwspRd0 =>
    exact exists_hasRow_of_half ⟨0xEF83#16, _, false, .reserved, 64⟩ (by decide) (firstHalf_of_word rfl)
      (encodeCi_rd0_and_mask ..) nofun fun _ => ⟨_, rfl, rfl⟩
  | miscAlu00 | miscAlu01 | miscAlu10 =>
    exact exists_hasRow_of_half ⟨0xEC03#16, _, false, .unimplemented, 512⟩ (by decide) (firstHalf_of_word rfl)
      (encodeMisc_and_mask ..) nofun fun _ => ⟨_, rfl, rfl⟩
  | cSub =>
    exact exists_hasRow_of_half ⟨0xFC63#16, _, false, .ok, 64⟩ (by decide) (firstHalf_of_word rfl)
      (encodeMisc11_and_mask ..) nofun fun _ => ⟨_, rfl, rfl⟩
  | misc11s001 | misc11s010 | misc11s011 | misc11s100 | misc11s101 =>
    exact exists_hasRow_of_half ⟨0xFC63#16, _, false, .unimplemented, 64⟩ (by decide) (firstHalf_of_word rfl)
      (encodeMisc11_and_mask ..) nofun fun _ => ⟨_, rfl, rfl⟩
  | misc11s110 | misc11s111 =>
    exact exists_hasRow_of_half ⟨0xFC63#16, _, false, .reserved, 64⟩ (by decide) (firstHalf_of_word rfl)
      (encodeMisc11_and_mask ..) nofun fun _ => ⟨_, rfl, rfl⟩
  | notCompressed | addi | lw | sub =>
    obtain ⟨hq, -⟩ := decodeFullWord_encodeWord hwf rfl
    exact exists_hasRow_of_half ⟨0x0003#16, _, false, .notCompressed, 16384⟩ (by decide) rfl (and_mask_of_q3 hq) nofun
      fun _ => ⟨_, rfl, rfl⟩

/-! ## Every word's instruction -/

/-- The meanings and the block agree on 2-byte words (R195). -/
theorem exec_of_decodeShort {h : Half} {i : Instr} (hi : decodeShort h = some i) (s : State) :
    exec i s = .next (s.answer (decompress h)) := by
  unfold decodeShort at hi
  unfold decompress
  cases hq : quadrantOf h <;> simp only [hq, Option.some.injEq, reduceCtorEq] at hi <;> subst hi
  case q0 => exact exec_decodeQ0 h s
  case q1 => exact exec_decodeQ1 h s
  case q2 => exact exec_decodeQ2 h s

theorem decodeShort_eq_none {h : Half} : decodeShort h = none ↔ quadrantOf h = .q3 := by
  unfold decodeShort
  cases quadrantOf h <;> simp

/-- Every 16-bit word is the first half of an instruction that leaves the block's status of it. -/
theorem exists_instr_of_half (h : Half) :
    ∃ i : Instr, i.wellFormed = true ∧ i.firstHalf = h ∧
      ∀ s : State, ∃ t, exec i s = .next t ∧ t.statusO = (decompress h).status := by
  cases hi : decodeShort h with
  | some i =>
    obtain ⟨hwf, -, hword⟩ := decodeShort_isShort hi
    exact ⟨i, hwf, Instr.firstHalf_of_word hword, fun s => ⟨_, exec_of_decodeShort hi s, rfl⟩⟩
  | none =>
    have hq := decodeShort_eq_none.mp hi
    have hlow : (h.setWidth 32).setWidth 16 = h := Laws.EncodedForm.firstHalf_setWidth h
    refine ⟨decodeFullWord (h.setWidth 32), decodeFullWord_wellFormed (hlow.symm ▸ hq),
      Instr.firstHalf_of_word (encodeWord_decodeFullWord _), fun s => ⟨_, exec_decodeFullWord _ s, ?_⟩⟩
    rw [decompress_of_q3 hq]
    rfl

/-- Settles O19: every instruction has a row, the rows exclude each other, and every word is some instruction's first half. -/
theorem everyWordOneRow : Obligations.EveryWordOneRow := by
  unfold Obligations.EveryWordOneRow
  constructor
  · intro h
    obtain ⟨i, hwf, rfl, hblock⟩ := exists_instr_of_half h
    obtain ⟨r, hmem, hselects, hrow⟩ := Instr.exists_hasRow hwf
    refine ⟨r, filter_selects_eq_singleton inputRows_apart hmem hselects, ?_⟩
    obtain ⟨t, ht, hstatus⟩ := hblock .reset
    obtain ⟨t', ht', hresult⟩ := hrow .reset
    obtain rfl : t = t' := Host.Outcome.next.inj (ht.symm.trans ht')
    exact hstatus.symm.trans hresult
  · intro i hwf
    obtain ⟨r, hmem, hselects, hrow⟩ := Instr.exists_hasRow hwf
    exact ⟨r, filter_selects_eq_singleton inputRows_apart hmem hselects, hrow⟩

end Sys2Proof

namespace Sys2Proof
namespace Machine

/-! ## The Bit Permutation Utility (R90 to R97) -/

section
variable {W : Nat} {L : List Nat}

/-- A position that the list names is the entry `e_k` of a dense bit `k` (R92). -/
theorem exists_denseBit_of_mem {p : Nat} (hp : p ∈ L) : ∃ k < L.length, L.getD (L.length - 1 - k) 0 = p := by
  obtain ⟨k, hk, he⟩ := List.getElem_of_mem (List.mem_reverse.mpr hp)
  have hlen : k < L.length := by rwa [List.length_reverse] at hk
  have hrev := reverse_at hlen
  rw [List.getElem?_eq_getElem hk, he] at hrev
  exact ⟨k, hlen, (Option.some.inj hrev).symm⟩

theorem entry_mem {k : Nat} (hk : k < L.length) : L.getD (L.length - 1 - k) 0 ∈ L :=
  List.mem_reverse.mp (List.mem_of_getElem? (reverse_at hk))

theorem entry_lt (hL : validPerm W L) {k : Nat} (hk : k < L.length) : L.getD (L.length - 1 - k) 0 < W := by
  obtain ⟨-, -, hlt, -⟩ := hL
  exact hlt _ (entry_mem hk)

theorem denseBit_lt (hL : validPerm W L) {k : Nat} (hk : k < L.length) : k < W := by
  obtain ⟨-, hlen, -, -⟩ := hL
  exact hk.trans_le hlen

/-- A list of full width names every position. -/
theorem mem_of_length_eq_width (hL : validPerm W L) (hlen : L.length = W) {p : Nat} (hp : p < W) : p ∈ L := by
  obtain ⟨-, -, hlt, hnodup⟩ := hL
  have hsub : L.Subperm (List.range W) := List.subperm_of_subset hnodup fun e he => List.mem_range.mpr (hlt e he)
  have hperm : L.Perm (List.range W) := hsub.perm_of_length_le (by rw [List.length_range, hlen])
  exact hperm.mem_iff.mpr (List.mem_range.mpr hp)

/-- A list that suits the 16-bit unit suits the 32-bit unit. -/
theorem validPerm_32_of_16 (hL : validPerm 16 L) : validPerm 32 L := by
  obtain ⟨-, hlen, hlt, hnodup⟩ := hL
  exact ⟨.inr rfl, by omega, fun e he => (hlt e he).trans (by decide), hnodup⟩

/-- The bits that R92 gives determine the scatter. -/
theorem scatter_eq_of_bits {x y : BitVec W} (hL : validPerm W L)
    (hentry : ∀ k < L.length, y.getLsbD (L.getD (L.length - 1 - k) 0) = x.getLsbD k)
    (hother : ∀ p < W, p ∉ L → y.getLsbD p = false) : scatter x L = y := by
  refine BitVec.eq_of_getLsbD_eq fun p hp => ?_
  by_cases hmem : p ∈ L
  · obtain ⟨k, hk, rfl⟩ := exists_denseBit_of_mem hmem
    rw [scatter_at x hL hk, hentry k hk]
  · rw [scatter_of_notMem x hmem, hother p hp hmem]

/-- The bits that R93 gives determine the gather. -/
theorem gather_eq_of_bits {x y : BitVec W} (hL : validPerm W L)
    (hentry : ∀ k < L.length, y.getLsbD k = x.getLsbD (L.getD (L.length - 1 - k) 0))
    (habove : ∀ k < W, L.length ≤ k → y.getLsbD k = false) : gather x L = y := by
  refine BitVec.eq_of_getLsbD_eq fun k hk => ?_
  by_cases hlen : k < L.length
  · rw [gather_at x hL hlen, hentry k hlen]
  · rw [gather_above x (not_lt.mp hlen), habove k hk (not_lt.mp hlen)]

/-! ### The inverse laws (R95) -/

theorem lowMask_getLsbD {n k : Nat} (hk : k < W) : (BitVec.ofNat W (2 ^ n - 1)).getLsbD k = decide (k < n) := by
  rw [BitVec.getLsbD_ofNat, Nat.testBit_two_pow_sub_one, decide_eq_true hk, Bool.true_and]

theorem and_lowMask_of_lt {x : BitVec W} {n : Nat} (hx : x.toNat < 2 ^ n) : x &&& BitVec.ofNat W (2 ^ n - 1) = x := by
  refine BitVec.eq_of_getLsbD_eq fun k hk => ?_
  rw [BitVec.getLsbD_and, lowMask_getLsbD hk]
  by_cases hkn : k < n
  · simp [hkn]
  · have hzero : x.getLsbD k = false :=
      Nat.testBit_lt_two_pow (hx.trans_le (Nat.pow_le_pow_right (by decide) (not_lt.mp hkn)))
    rw [hzero, Bool.false_and]

theorem gather_scatter (hL : validPerm W L) (x : BitVec W) :
    gather (scatter x L) L = x &&& BitVec.ofNat W (2 ^ L.length - 1) := by
  refine gather_eq_of_bits hL (fun k hk => ?_) fun k hk hlen => ?_
  · rw [scatter_at x hL hk, BitVec.getLsbD_and, lowMask_getLsbD (denseBit_lt hL hk), decide_eq_true hk, Bool.and_true]
  · rw [BitVec.getLsbD_and, lowMask_getLsbD hk, decide_eq_false (not_lt.mpr hlen), Bool.and_false]

theorem scatter_gather (hL : validPerm W L) (y : BitVec W) : scatter (gather y L) L = y &&& permMask W L := by
  refine scatter_eq_of_bits hL (fun k hk => ?_) fun p hp hmem => ?_
  · rw [gather_at y hL hk, BitVec.getLsbD_and, permMask_getLsbD (entry_lt hL hk), decide_eq_true (entry_mem hk),
      Bool.and_true]
  · rw [BitVec.getLsbD_and, permMask_getLsbD hp, decide_eq_false hmem, Bool.and_false]

theorem gather_scatter_of_lt (hL : validPerm W L) {x : BitVec W} (hx : x.toNat < 2 ^ L.length) :
    gather (scatter x L) L = x := by
  rw [gather_scatter hL, and_lowMask_of_lt hx]

theorem scatter_gather_of_full (hL : validPerm W L) (hlen : L.length = W) (y : BitVec W) :
    scatter (gather y L) L = y :=
  scatter_eq_of_bits hL (fun _ hk => (gather_at y hL hk).symm)
    fun _ hp hmem => absurd (mem_of_length_eq_width hL hlen hp) hmem

/-! ### The two widths (R96) -/

theorem scatter_setWidth_32 (hL : validPerm 16 L) (x : BitVec 16) :
    scatter (x.setWidth 32) L = (scatter x L).setWidth 32 := by
  have hL' := validPerm_32_of_16 hL
  refine scatter_eq_of_bits hL' (fun k hk => ?_) fun p hp hmem => ?_
  · rw [BitVec.getLsbD_setWidth, BitVec.getLsbD_setWidth, scatter_at x hL hk, decide_eq_true (entry_lt hL' hk),
      decide_eq_true (denseBit_lt hL' hk)]
  · rw [BitVec.getLsbD_setWidth, scatter_of_notMem x hmem, Bool.and_false]

theorem gather_setWidth_32 (hL : validPerm 16 L) (x : BitVec 16) :
    gather (x.setWidth 32) L = (gather x L).setWidth 32 := by
  have hL' := validPerm_32_of_16 hL
  refine gather_eq_of_bits hL' (fun k hk => ?_) fun k hk hlen => ?_
  · rw [BitVec.getLsbD_setWidth, BitVec.getLsbD_setWidth, gather_at x hL hk, decide_eq_true (entry_lt hL' hk),
      decide_eq_true (denseBit_lt hL' hk)]
  · rw [BitVec.getLsbD_setWidth, gather_above x hlen, Bool.and_false]

/-! ### Building a unit (R91) -/

theorem scatterUnit_eq_none : scatterUnit W L = none ↔ ¬ validPerm W L := by
  simp only [scatterUnit, ite_eq_right_iff, reduceCtorEq, imp_false]

theorem gatherUnit_eq_none : gatherUnit W L = none ↔ ¬ validPerm W L := by
  simp only [gatherUnit, ite_eq_right_iff, reduceCtorEq, imp_false]

theorem scatterUnit_eq_some {u : BitVec W → BitVec W} (hu : scatterUnit W L = some u) : u = fun x => scatter x L :=
  (Option.some.inj (Option.ite_none_right_eq_some.mp hu).2).symm

theorem gatherUnit_eq_some {u : BitVec W → BitVec W} (hu : gatherUnit W L = some u) : u = fun x => gather x L :=
  (Option.some.inj (Option.ite_none_right_eq_some.mp hu).2).symm

end

/-- Settles O47: dense bit `k` is the list's `k`th entry from its end, and nothing else is driven. -/
theorem scatterPlacesBits : Obligations.ScatterPlacesBits := by
  unfold Obligations.ScatterPlacesBits
  exact fun _ _ x hL => ⟨fun _ hk => scatter_at x hL hk, fun _ hp => scatter_of_notMem x hp⟩

/-- Settles O48: dense bit `k` reads the list's `k`th entry from its end, and no dense bit lies beyond the list. -/
theorem gatherReadsBits : Obligations.GatherReadsBits := by
  unfold Obligations.GatherReadsBits
  exact fun _ _ x hL => ⟨fun _ hk => gather_at x hL hk, fun _ hk => gather_above x hk⟩

/-- Settles O49: each composition masks its input, by the bits of both directions, and a list of full width leaves no position out. -/
theorem permutationsInvert : Obligations.PermutationsInvert := by
  unfold Obligations.PermutationsInvert
  intro W L hL
  refine ⟨gather_scatter hL, scatter_gather hL, fun x hx => gather_scatter_of_lt hL hx, fun hlen x => ⟨?_, ?_⟩⟩
  · exact gather_scatter_of_lt hL (hlen.symm ▸ x.isLt)
  · exact scatter_gather_of_full hL hlen x

/-- Settles O50: the zero-extended result has the bits that R92 and R93 give the 32-bit unit. -/
theorem permutationWidthsAgree : Obligations.PermutationWidthsAgree := by
  unfold Obligations.PermutationWidthsAgree
  exact fun _ x hL => ⟨scatter_setWidth_32 hL x, gather_setWidth_32 hL x⟩

/-- Settles O51: the build tests the preconditions and nothing else. -/
theorem badPermutationListsRefused : Obligations.BadPermutationListsRefused := by
  unfold Obligations.BadPermutationListsRefused
  refine ⟨fun W L => ⟨scatterUnit_eq_none, gatherUnit_eq_none, fun u hu x => ?_, fun u hu x => ?_⟩, by decide⟩
  · rw [scatterUnit_eq_some hu]
  · rw [gatherUnit_eq_some hu]

end Machine
end Sys2Proof

namespace Sys2Proof
namespace Machine

/-! ## The Immediate Extractor (R100, R101) -/

theorem ciRaw_and (h m : Half) : ciRaw (h &&& m) = ciRaw h &&& ciRaw m := by
  simp only [ciRaw, BitVec.extractLsb'_and, ← BitVec.and_append]

/-- R100: the mask `0x107C` of the six bits that the extractor reads takes nothing from its result. -/
theorem ciRaw_and_readMask (h : Half) : ciRaw (h &&& 0x107C#16) = ciRaw h := by
  have hmask : ciRaw 0x107C#16 = BitVec.allOnes 6 := by decide
  rw [ciRaw_and, hmask, BitVec.and_allOnes]

/-- Settles O52: the result is a function of the masked word, so words that agree under the mask agree in it. -/
theorem extractorReadsSixBits : Obligations.ExtractorReadsSixBits := by
  unfold Obligations.ExtractorReadsSixBits
  refine ⟨fun h => ⟨ciRaw_getLsbD h 5, fun k hk => ?_⟩, fun h h' e => ?_⟩
  · rw [ciRaw_getLsbD, if_pos hk]
  · calc ciRaw h = ciRaw (h &&& 0x107C#16) := (ciRaw_and_readMask h).symm
      _ = ciRaw (h' &&& 0x107C#16) := congrArg ciRaw e
      _ = ciRaw h' := ciRaw_and_readMask h'

end Machine
end Sys2Proof

namespace Sys2Proof
namespace Machine

/-! ## The builders as shifts and ORs (R106 to R110) -/

/-- R108: peeling the fields of a concatenation from its low end shifts what is left by their widths. -/
theorem buildI_eq_shiftLeft_or (imm : BitVec 12) (rs1 : RegId) (f3 : BitVec 3) (rd : RegId) (op : BitVec 7) :
    buildI imm rs1 f3 rd op =
      (imm.setWidth 32 <<< 20 ||| rs1.setWidth 32 <<< 15 ||| f3.setWidth 32 <<< 12 ||| rd.setWidth 32 <<< 7
        ||| op.setWidth 32) := by
  rw [← BitVec.setWidth_eq (buildI imm rs1 f3 rd op), buildI]
  simp only [BitVec.setWidth_append_eq_shiftLeft_setWidth_or, BitVec.shiftLeft_or_distrib, ← BitVec.shiftLeft_add]

/-- R106: the immediate of an R-type word is `{funct7, rs2}`, which splits 5 bits above position 20. -/
theorem buildR_eq_shiftLeft_or (f7 : BitVec 7) (rs2 rs1 : RegId) (f3 : BitVec 3) (rd : RegId) (op : BitVec 7) :
    buildR f7 rs2 rs1 f3 rd op =
      (f7.setWidth 32 <<< 25 ||| rs2.setWidth 32 <<< 20 ||| rs1.setWidth 32 <<< 15 ||| f3.setWidth 32 <<< 12
        ||| rd.setWidth 32 <<< 7 ||| op.setWidth 32) := by
  rw [buildR_eq_buildI, buildI_eq_shiftLeft_or, BitVec.setWidth_append_eq_shiftLeft_setWidth_or,
    BitVec.shiftLeft_or_distrib, ← BitVec.shiftLeft_add]

/-- Settles O54: the formulas are the concatenations peeled field by field, and each field is read back at its position. -/
theorem buildersPackFields : Obligations.BuildersPackFields := by
  unfold Obligations.BuildersPackFields
  refine ⟨fun f7 rs2 rs1 f3 rd op => ⟨buildR_eq_shiftLeft_or .., ?_⟩, fun imm rs1 f3 rd op => ⟨buildI_eq_shiftLeft_or .., ?_⟩⟩
  · exact ⟨opcodeOf_buildR .., rdOf_buildR .., funct3Of_buildR .., rs1Of_buildR .., rs2Of_buildR .., funct7Of_buildR ..⟩
  · exact ⟨opcodeOf_buildI .., rdOf_buildI .., funct3Of_buildI .., rs1Of_buildI .., immOf_buildI ..⟩

/-- R107: `funct7` and `opcode` of `SUB` make up the constant, its `funct3` adds nothing (D13). -/
theorem buildSub_eq_or (rd rs1 rs2 : RegId) : buildSub rd rs1 rs2 =
    (0x40000033#32 ||| rs2.setWidth 32 <<< 20 ||| rs1.setWidth 32 <<< 15 ||| rd.setWidth 32 <<< 7) := by
  have hconst : 0x40000033#32 = (Config.r6.subFunct7.setWidth 32 <<< 25 ||| Config.r6.subFunct3.setWidth 32 <<< 12
    ||| Config.r6.subOpcode.setWidth 32) := by decide
  have hgather (f7 r2 r1 f3 r op : Word) : f7 ||| r2 ||| r1 ||| f3 ||| r ||| op = (f7 ||| f3 ||| op) ||| r2 ||| r1 ||| r := by
    ac_rfl
  rw [buildSub, buildR_eq_shiftLeft_or, hconst, hgather]

/-- R109: `opcode` of `ADDI` is the constant, its `funct3` adds nothing. -/
theorem buildAddi_eq_or (rd rs1 : RegId) (imm : BitVec 12) : buildAddi rd rs1 imm =
    (0x00000013#32 ||| imm.setWidth 32 <<< 20 ||| rs1.setWidth 32 <<< 15 ||| rd.setWidth 32 <<< 7) := by
  have hconst : 0x00000013#32 = (Config.addiFunct3.setWidth 32 <<< 12 ||| Config.addiOpcode.setWidth 32) := by decide
  have hgather (im r1 f3 r op : Word) : im ||| r1 ||| f3 ||| r ||| op = (f3 ||| op) ||| im ||| r1 ||| r := by ac_rfl
  rw [buildAddi, buildI_eq_shiftLeft_or, hconst, hgather]

/-- R110: the base register `sp`, `funct3` and `opcode` of `LW` make up the constant (D12). -/
theorem buildLw_eq_or (rd : RegId) (imm : BitVec 12) : buildLw rd imm =
    (0x00012003#32 ||| imm.setWidth 32 <<< 20 ||| rd.setWidth 32 <<< 7) := by
  have hconst : 0x00012003#32 = (Config.r6.spReg.setWidth 32 <<< 15 ||| Config.lwFunct3.setWidth 32 <<< 12
    ||| Config.lwOpcode.setWidth 32) := by decide
  have hgather (im r1 f3 r op : Word) : im ||| r1 ||| f3 ||| r ||| op = (r1 ||| f3 ||| op) ||| im ||| r := by ac_rfl
  rw [buildLw, buildI_eq_shiftLeft_or, hconst, hgather]

/-- Settles O55: in each builder's formula the fields that are no operands OR to the constant. -/
theorem builderConstants : Obligations.BuilderConstants := by
  unfold Obligations.BuilderConstants
  exact ⟨buildSub_eq_or, buildAddi_eq_or, buildLw_eq_or⟩

/-! ## The output rows in the code buffer (R195, log 14) -/

/-- An instruction of 4 bytes hands its own word on and leaves `NOT_COMPRESSED` and the zero word on the outputs. -/
theorem exec_of_byteLength_four {i : Instr} (hlen : i.byteLength = 4) (s : State) :
    exec i s = .next (s.afterFull (encodeWord i)) := by
  rcases exec_cases i s with ⟨r, htwo, -⟩ | ⟨-, hexec⟩
  · rw [hlen] at htwo
    contradiction
  · exact hexec

/-- Settles O12: each output row is a 4-byte instruction, and its encoding is the builder's concatenation. -/
theorem outputRowsHandedOn : Obligations.OutputRowsHandedOn := by
  unfold Obligations.OutputRowsHandedOn
  refine ⟨fun s rd rs1 imm => ?addi, fun s rd imm => ?lw, fun s rd rs1 rs2 => ?sub⟩
  case addi => exact exec_of_byteLength_four (i := .addi rd rs1 imm) rfl s
  case lw => exact exec_of_byteLength_four (i := .lw rd imm) rfl s
  case sub => exact exec_of_byteLength_four (i := .sub rd rs1 rs2) rfl s

end Machine
end Sys2Proof

namespace Sys2Proof
namespace Machine

/-! ## Words that agree in a range of bits -/

section
variable {n a m : Nat} {x y : BitVec n} (e : x.extractLsb' a m = y.extractLsb' a m)
include e

/-- Words that agree in a range agree in every field inside it. -/
theorem extractLsb'_congr (b c : Nat) (h : b + c ≤ m) : x.extractLsb' (a + b) c = y.extractLsb' (a + b) c :=
  (extractLsb'_of_field e h).trans (extractLsb'_of_field rfl h).symm

theorem getLsbD_congr (k : Nat) (hk : k < m) : x.getLsbD (a + k) = y.getLsbD (a + k) := by
  simpa [hk] using congrArg (BitVec.getLsbD · k) e

end

/-! ## The bits that the quadrant decoders read (R115, R130, R160, D11) -/

section
variable {h h' : Half}

theorem decompressQ0_congr (e : h.extractLsb' 13 3 = h'.extractLsb' 13 3) : decompressQ0 h = decompressQ0 h' := by
  unfold decompressQ0
  rw [getLsbD_congr e 0 (by decide), getLsbD_congr e 1 (by decide), getLsbD_congr e 2 (by decide)]

section
variable (e : h.extractLsb' 2 14 = h'.extractLsb' 2 14)
include e

theorem ciRaw_congr : ciRaw h = ciRaw h' := by
  rw [ciRaw, extractLsb'_congr e 10 1 (by decide), extractLsb'_congr e 0 5 (by decide), ciRaw]

theorem rdField_congr : rdField h = rdField h' := extractLsb'_congr e 5 5 (by decide)

theorem miscAlu11_congr : miscAlu11 h = miscAlu11 h' := by
  have hrd : rdPField h = rdPField h' := extractLsb'_congr e 5 3 (by decide)
  have hrs2 : rs2PField h = rs2PField h' := extractLsb'_congr e 0 3 (by decide)
  unfold miscAlu11
  rw [getLsbD_congr e 10 (by decide), getLsbD_congr e 4 (by decide), getLsbD_congr e 3 (by decide), hrd, hrs2]

theorem miscAlu_congr : miscAlu h = miscAlu h' := by
  unfold miscAlu
  rw [getLsbD_congr e 9 (by decide), getLsbD_congr e 8 (by decide), miscAlu11_congr e]

theorem decompressQ1_congr : decompressQ1 h = decompressQ1 h' := by
  unfold decompressQ1
  rw [getLsbD_congr e 13 (by decide), getLsbD_congr e 12 (by decide), getLsbD_congr e 11 (by decide), rdField_congr e,
    ciRaw_congr e, miscAlu_congr e]

theorem decompressQ2_congr : decompressQ2 h = decompressQ2 h' := by
  unfold decompressQ2
  rw [getLsbD_congr e 13 (by decide), getLsbD_congr e 12 (by decide), getLsbD_congr e 11 (by decide), rdField_congr e,
    ciRaw_congr e]

end
end

/-- Settles O56: the selectors and fields a decoder uses lie in its range, and what it answers is allowed as an item. -/
theorem quadrantDecodersReadTheirFields : Obligations.QuadrantDecodersReadTheirFields := by
  unfold Obligations.QuadrantDecodersReadTheirFields
  refine ⟨fun _ _ => decompressQ0_congr, fun _ _ e => ⟨decompressQ1_congr e, decompressQ2_congr e⟩, fun h => ?_⟩
  obtain ⟨-, hq0⟩ := decompressQ0_allowed h
  obtain ⟨-, hq1⟩ := decompressQ1_allowed h
  obtain ⟨-, hq2⟩ := decompressQ2_allowed h
  exact ⟨hq0, hq1, hq2⟩

/-! ## The classes of quadrant 0 (R116 to R123) -/

/-- A classified word leaves its status and the zero word (R9, D4). -/
theorem answerErr_eq_afterBlock (e : DecodingError) (s : State) :
    answerErr e s = .next (s.afterBlock e.status 0#32) := rfl

section
variable {h pattern : Half}

theorem decompress_of_q0 (hq : quadrantOf h = .q0) (P : Config.Params := Config.r6) :
    decompress h P = decompressQ0 h P := by
  simp only [decompress, hq]

/-- The mask of the classes keeps all that the decoder reads. -/
theorem decompressQ0_of_and_eq (e : h &&& 0xE003#16 = pattern) : decompressQ0 h = decompressQ0 pattern := by
  have hmask : (0xE003#16 : Half).extractLsb' 13 3 = BitVec.allOnes 3 := by decide
  refine decompressQ0_congr ?_
  rw [← e, BitVec.extractLsb'_and, hmask, BitVec.and_allOnes]

/-- A whole class of quadrant 0 gives what the decoder gives its pattern. -/
theorem classGives_decompressQ0 {st : Status} (hq : quadrantOf pattern = .q0)
    (hpattern : decompressQ0 pattern = ⟨st, 0#32⟩) : ClassGives (decompressQ0 ·) 0xE003#16 pattern st := by
  intro h e
  have hdecoder : decompressQ0 h = ⟨st, 0#32⟩ := (decompressQ0_of_and_eq e).trans hpattern
  have hquadrant : quadrantOf h = .q0 := (quadrantOf_of_and_eq e (by decide) (by decide)).trans hq
  exact ⟨hdecoder, (decompress_of_q0 hquadrant).trans hdecoder⟩

end

/-- Settles O4: both meanings are classified answers, and each class gives what its pattern gives. -/
theorem quadrant0IllegalAndReserved : Obligations.Quadrant0IllegalAndReserved := by
  unfold Obligations.Quadrant0IllegalAndReserved
  refine ⟨fun s _ => answerErr_eq_afterBlock .illegal s, fun s _ => answerErr_eq_afterBlock .reserved s, ?illegal, ?reserved⟩
  case illegal => exact classGives_decompressQ0 (by decide) (by decide)
  case reserved => exact classGives_decompressQ0 (by decide) (by decide)

/-- Settles O5: the six meanings are one classified answer, and each class gives what its pattern gives. -/
theorem quadrant0Unimplemented : Obligations.Quadrant0Unimplemented := by
  unfold Obligations.Quadrant0Unimplemented
  constructor
  · intro s _
    have hanswer := answerErr_eq_afterBlock .unimplemented s
    exact ⟨hanswer, hanswer, hanswer, hanswer, hanswer, hanswer⟩
  · refine ⟨?fld, ?lw, ?ld, ?fsd, ?sw, ?sd⟩
    all_goals exact classGives_decompressQ0 (by decide) (by decide)

end Machine
end Sys2Proof

namespace Sys2Proof
namespace Machine

/-! ## Answers and bytes of a 2-byte word (R9, R42) -/

/-- An expanded word leaves OK and the canonical word (R9). -/
theorem answerOk_eq_afterBlock (w : Word) (s : State) : answerOk w s = .next (s.afterBlock .ok w) := rfl

/-- The two bytes of a word make the word. -/
theorem halfOfBytes_of_half (h : Half) : halfOfBytes (h.extractLsb' 0 8) (h.extractLsb' 8 8) = h := by
  obtain ⟨b0, b1, rfl⟩ := exists_halfOfBytes h
  simp only [halfOfBytes, BitVec.extractLsb'_append_eq_right, BitVec.extractLsb'_append_eq_left]

/-- The bytes of a 2-byte word decode to its instruction and leave nothing over. -/
theorem decodeBytes_bytesOfHalf {h : Half} {i : Instr} (hi : decodeShort h = some i) :
    decodeBytes (bytesOfHalf h) = .ok (i, []) :=
  decodeBytes_eq_ok_iff.mpr (.inl ⟨_, _, rfl, (halfOfBytes_of_half h).symm ▸ hi⟩)

/-! ## The classes of quadrant 1 (R131 to R151) -/

section
variable {h : Half}

theorem decompress_of_q1 (hq : quadrantOf h = .q1) (P : Config.Params := Config.r6) :
    decompress h P = decompressQ1 h P := by
  simp only [decompress, hq]

theorem decompress_of_q2 (hq : quadrantOf h = .q2) (P : Config.Params := Config.r6) :
    decompress h P = decompressQ2 h P := by
  simp only [decompress, hq]

section
variable (e : h &&& 0xE003#16 = 0x4001#16)
include e

theorem quadrantOf_of_cLi_class : quadrantOf h = .q1 :=
  (quadrantOf_of_and_eq e (by decide) (by decide)).trans (by decide)

theorem decodeShort_of_cLi_class (hrd : rdField h ≠ 0#5) : decodeShort h = some (.cLi (rdField h) (ciRaw h)) := by
  simp only [decodeShort, quadrantOf_of_cLi_class e, decodeQ1, if_neg hrd]
  rw [getLsbD_of_and_eq e 15 (by decide), getLsbD_of_and_eq e 14 (by decide), getLsbD_of_and_eq e 13 (by decide)]
  rfl

end

section
variable (e : h &&& 0xFC63#16 = 0x8C01#16)
include e

theorem quadrantOf_of_cSub : quadrantOf h = .q1 :=
  (quadrantOf_of_and_eq e (by decide) (by decide)).trans (by decide)

theorem decodeShort_of_cSub : decodeShort h = some (.cSub (rdPField h) (rs2PField h)) := by
  simp only [decodeShort, quadrantOf_of_cSub e, decodeQ1, decodeMiscAlu, decodeMisc11]
  rw [getLsbD_of_and_eq e 15 (by decide), getLsbD_of_and_eq e 14 (by decide), getLsbD_of_and_eq e 13 (by decide),
    getLsbD_of_and_eq e 12 (by decide), getLsbD_of_and_eq e 11 (by decide), getLsbD_of_and_eq e 10 (by decide),
    getLsbD_of_and_eq e 6 (by decide), getLsbD_of_and_eq e 5 (by decide)]
  rfl

end

/-- The classes of quadrant 1 that `h[15:13]` alone tells (R131, R132, R135, R149 to R151). -/
abbrev q1UnreadPatterns : List Half := [0x0001#16, 0x2001#16, 0x6001#16, 0xA001#16, 0xC001#16, 0xE001#16]

theorem decompress_of_q1Unread (P : Config.Params) (e : h &&& 0xE003#16 ∈ q1UnreadPatterns) :
    decompress h P = .err .unimplemented P := by
  generalize hp : h &&& 0xE003#16 = p at e
  simp only [decompress, quadrantOf_of_and_eq hp (by decide) (by decide), decompressQ1]
  rw [getLsbD_of_and_eq hp 15 (by decide), getLsbD_of_and_eq hp 14 (by decide), getLsbD_of_and_eq hp 13 (by decide)]
  simp only [List.mem_cons, List.not_mem_nil, or_false] at e
  rcases e with rfl | rfl | rfl | rfl | rfl | rfl <;> rfl

/-- The MISC-ALU classes that `h[11:10]` alone tells (R137 to R139). -/
abbrev miscAluPatterns : List Half := [0x8001#16, 0x8401#16, 0x8801#16]

theorem decompress_of_miscAlu (P : Config.Params) (e : h &&& 0xEC03#16 ∈ miscAluPatterns) :
    decompress h P = .err .unimplemented P := by
  generalize hp : h &&& 0xEC03#16 = p at e
  simp only [decompress, quadrantOf_of_and_eq hp (by decide) (by decide), decompressQ1, miscAlu]
  rw [getLsbD_of_and_eq hp 15 (by decide), getLsbD_of_and_eq hp 14 (by decide), getLsbD_of_and_eq hp 13 (by decide),
    getLsbD_of_and_eq hp 11 (by decide), getLsbD_of_and_eq hp 10 (by decide)]
  simp only [List.mem_cons, List.not_mem_nil, or_false] at e
  rcases e with rfl | rfl | rfl <;> rfl

/-- The two reserved MISC-ALU combinations (R142, R143). -/
abbrev miscReservedPatterns : List Half := [0x9C41#16, 0x9C61#16]

theorem misc11_class_of_mem_miscReservedPatterns : ∀ p ∈ miscReservedPatterns, p &&& 0xEC03#16 = 0x8C01#16 := by
  simp [miscReservedPatterns]

theorem decompress_of_miscReserved (P : Config.Params) (e : h &&& 0xFC63#16 ∈ miscReservedPatterns) :
    decompress h P = .err .reserved P := by
  generalize hp : h &&& 0xFC63#16 = p at e
  have hclass : p &&& 0xEC03#16 = 0x8C01#16 := misc11_class_of_mem_miscReservedPatterns p e
  rw [decompress_of_misc11_class P ((and_eq_of_and_eq hp 0xEC03#16).trans hclass), miscAlu11,
    getLsbD_of_and_eq hp 12 (by decide), getLsbD_of_and_eq hp 6 (by decide), getLsbD_of_and_eq hp 5 (by decide)]
  simp only [List.mem_cons, List.not_mem_nil, or_false] at e
  rcases e with rfl | rfl <;> rfl

end

/-! ### From the block to the quadrant's decoder (R180) -/

section
variable {mask pattern : Half} {st : Status} (h1 : mask.getLsbD 1 = true) (h0 : mask.getLsbD 0 = true)
  (hblock : ∀ h : Half, h &&& mask = pattern → decompress h = ⟨st, 0#32⟩)
include h1 h0 hblock

/-- A mask that keeps `h[1:0]` keeps the quadrant, so on its class the block is the quadrant's decoder. -/
theorem classGives_of_block {decoder : Half → BlockResult}
    (hroute : ∀ h : Half, quadrantOf h = quadrantOf pattern → decompress h = decoder h) :
    ClassGives decoder mask pattern st :=
  fun h e => ⟨(hroute h (quadrantOf_of_and_eq e h1 h0)).symm.trans (hblock h e), hblock h e⟩

theorem classGives_decompressQ1 (hq : quadrantOf pattern = .q1) : ClassGives (decompressQ1 ·) mask pattern st :=
  classGives_of_block h1 h0 hblock fun _ hquadrant => decompress_of_q1 (hquadrant.trans hq)

theorem classGives_decompressQ2 (hq : quadrantOf pattern = .q2) : ClassGives (decompressQ2 ·) mask pattern st :=
  classGives_of_block h1 h0 hblock fun _ hquadrant => decompress_of_q2 (hquadrant.trans hq)

end

/-! ### The statements -/

/-- Settles O1: the meaning is an OK answer, a word of the class decodes to the instruction, and the block builds the `ADDI`. -/
theorem cLiExpandsToAddi : Obligations.CLiExpandsToAddi := by
  unfold Obligations.CLiExpandsToAddi
  refine ⟨fun s rd raw _ =>
    answerOk_eq_afterBlock (buildAddi rd Config.r6.zeroReg (liImm raw)) s, fun h e hrd => ⟨?_, ?_, ?_⟩⟩
  · exact decodeBytes_bytesOfHalf (decodeShort_of_cLi_class e hrd)
  · exact (decompress_of_q1 (quadrantOf_of_cLi_class e)).symm
  · exact (decompress_of_cLi_class Config.r6 e).trans (if_neg hrd)

/-- Settles O2: the meaning is an OK answer, a word of the class decodes to the instruction, and the block builds the `SUB`. -/
theorem cSubExpandsToSub : Obligations.CSubExpandsToSub := by
  unfold Obligations.CSubExpandsToSub
  refine ⟨fun s rdP rs2P =>
    answerOk_eq_afterBlock (buildSub (expandCReg rdP) (expandCReg rdP) (expandCReg rs2P)) s, fun h e => ⟨?_, ?_, ?_⟩⟩
  · exact decodeBytes_bytesOfHalf (decodeShort_of_cSub e)
  · exact (decompress_of_q1 (quadrantOf_of_cSub e)).symm
  · exact decompress_of_cSub Config.r6 e

/-- Settles O6: the six meanings are one classified answer, and `h[15:13]` alone gives each class. -/
theorem quadrant1TopLevelUnimplemented : Obligations.Quadrant1TopLevelUnimplemented := by
  unfold Obligations.Quadrant1TopLevelUnimplemented
  constructor
  · intro s _
    have hanswer := answerErr_eq_afterBlock .unimplemented s
    exact ⟨hanswer, hanswer, hanswer, hanswer, hanswer, hanswer⟩
  · refine ⟨?_, ?_, ?_, ?_, ?_, ?_⟩
    all_goals
      exact classGives_decompressQ1 (by decide) (by decide)
        (fun _ e => decompress_of_q1Unread Config.r6 (by rw [e]; decide)) (by decide)

/-- Settles O7: the eight meanings are one classified answer; `h[11:10]` alone gives three of the classes, and
`MISC_OTHER_CLASS` at the value of R6 the five others (D6). -/
theorem miscAluUnimplemented : Obligations.MiscAluUnimplemented := by
  unfold Obligations.MiscAluUnimplemented
  have hanswer := answerErr_eq_afterBlock .unimplemented
  refine ⟨fun s _ _ => ⟨hanswer s, hanswer s, hanswer s⟩,
    fun s _ _ => ⟨hanswer s, hanswer s, hanswer s, hanswer s, hanswer s⟩, ?s00, ?s01, ?s10, ?_⟩
  case s00 | s01 | s10 =>
    exact classGives_decompressQ1 (by decide) (by decide)
      (fun _ e => decompress_of_miscAlu Config.r6 (by rw [e]; decide)) (by decide)
  refine ⟨?_, ?_, ?_, ?_, ?_⟩
  all_goals
    exact classGives_decompressQ1 (by decide) (by decide)
      (fun _ e => decompress_of_miscOther Config.r6 (by rw [e]; decide)) (by decide)

/-- Settles O8: both meanings are one classified answer, and both classes are reserved. -/
theorem miscAluReserved : Obligations.MiscAluReserved := by
  unfold Obligations.MiscAluReserved
  refine ⟨fun s _ _ => ⟨answerErr_eq_afterBlock .reserved s, answerErr_eq_afterBlock .reserved s⟩, ?_, ?_⟩
  all_goals
    exact classGives_decompressQ1 (by decide) (by decide)
      (fun _ e => decompress_of_miscReserved Config.r6 (by rw [e]; decide)) (by decide)

/-- Settles O9: both meanings answer `RD0_CLASS` at the value of R6, and so does the block on both classes (D5). -/
theorem rdZeroReserved : Obligations.RdZeroReserved := by
  unfold Obligations.RdZeroReserved
  have hanswer := answerErr_eq_afterBlock Config.r6.rd0Class
  refine ⟨fun s _ => ⟨hanswer s, hanswer s⟩, ?cLi, ?cLwsp⟩
  case cLi =>
    exact classGives_decompressQ1 (by decide) (by decide) (fun _ e => decompress_of_rd0 Config.r6 (.inl e)) (by decide)
  case cLwsp =>
    exact classGives_decompressQ2 (by decide) (by decide) (fun _ e => decompress_of_rd0 Config.r6 (.inr e)) (by decide)

end Machine
end Sys2Proof

namespace Sys2Proof
namespace Machine

/-! ## The classes of quadrant 2 (R161 to R169) -/

section
variable {h : Half}

/-! ### `C.LWSP` (R163) -/

section
variable (e : h &&& 0xE003#16 = 0x4002#16)
include e

theorem quadrantOf_of_cLwsp_class : quadrantOf h = .q2 :=
  (quadrantOf_of_and_eq e (by decide) (by decide)).trans (by decide)

theorem decodeShort_of_cLwsp_class (hrd : rdField h ≠ 0#5) : decodeShort h = some (.cLwsp (rdField h) (ciRaw h)) := by
  simp only [decodeShort, quadrantOf_of_cLwsp_class e, decodeQ2, if_neg hrd]
  rw [getLsbD_of_and_eq e 15 (by decide), getLsbD_of_and_eq e 14 (by decide), getLsbD_of_and_eq e 13 (by decide)]
  rfl

end

/-! ### The classes that are not expanded (R161, R162, R165 to R169) -/

/-- Of the selectors `h[15:13]`, only that of `C.LWSP` is expanded (R160). -/
theorem decompressQ2_of_selector_ne (hsel : h.extractLsb' 13 3 ≠ 0b010#3) (P : Config.Params := Config.r6) :
    decompressQ2 h P = .err .unimplemented P := by
  unfold decompressQ2
  match h15 : h.getLsbD 15, h14 : h.getLsbD 14, h13 : h.getLsbD 13 with
  | false, true, false =>
    refine absurd (extractLsb'_eq_of_bits 13 fun k hk => ?_) hsel
    interval_cases k <;> simp_all
  | false, false, false | false, false, true | false, true, true | true, false, false | true, false, true
  | true, true, false | true, true, true => rfl

/-- A class that keeps `h[15:13]` and `h[1:0]` is unimplemented if it is of quadrant 2 and its selector is not that of `C.LWSP`. -/
theorem classGives_unimplemented_of_selector_ne {pattern : Half} (hq : quadrantOf pattern = .q2)
    (hsel : pattern.extractLsb' 13 3 ≠ 0b010#3) : ClassGives (decompressQ2 ·) 0xE003#16 pattern .unimplemented := by
  refine classGives_decompressQ2 (by decide) (by decide) (fun h e => ?_) hq
  have hquadrant : quadrantOf h = .q2 := (quadrantOf_of_and_eq e (by decide) (by decide)).trans hq
  have hmask : (0xE003#16 : Half).extractLsb' 13 3 = BitVec.allOnes 3 := by decide
  have hselector : h.extractLsb' 13 3 = pattern.extractLsb' 13 3 := by
    rw [← e, BitVec.extractLsb'_and, hmask, BitVec.and_allOnes]
  exact (decompress_of_q2 hquadrant).trans (decompressQ2_of_selector_ne (hselector ▸ hsel))

end

/-! ### The statements -/

/-- Settles O3: the meaning is an OK answer, a word of the class decodes to the instruction, and the block builds the `LW` with
the offset that `LWSP_PERM` permutes. -/
theorem cLwspExpandsToLw : Obligations.CLwspExpandsToLw := by
  unfold Obligations.CLwspExpandsToLw
  refine ⟨fun s rd raw _ => ?meaning, fun h e hrd => ⟨?decoding, ?decoder, ?block⟩⟩
  case meaning =>
    have hanswer : exec (.cLwsp rd raw) s = .next (s.afterBlock .ok (buildLw rd (lwspImm raw))) :=
      answerOk_eq_afterBlock ..
    rw [hanswer, lwspImm_eq_append]
    rfl
  case decoding => exact decodeBytes_bytesOfHalf (decodeShort_of_cLwsp_class e hrd)
  case decoder => exact (decompress_of_q2 (quadrantOf_of_cLwsp_class e)).symm
  case block =>
    rw [decompress_of_cLwsp_class Config.r6 e, rdField, if_neg hrd, lwspImm_ciRaw]
    rfl

/-- Settles O10: the seven meanings are one classified answer, and no class has the selector of `C.LWSP`. -/
theorem quadrant2Unimplemented : Obligations.Quadrant2Unimplemented := by
  unfold Obligations.Quadrant2Unimplemented
  constructor
  · intro s _
    have hanswer := answerErr_eq_afterBlock .unimplemented s
    exact ⟨hanswer, hanswer, hanswer, hanswer, hanswer, hanswer, hanswer⟩
  · refine ⟨?_, ?_, ?_, ?_, ?_, ?_, ?_⟩
    all_goals exact classGives_unimplemented_of_selector_ne (by decide) (by decide)

end Machine
end Sys2Proof

namespace Sys2Proof

open Machine

/-! ## The instructions that are expanded (R133, R141, R163) -/

/-- The 32-bit instruction that a 2-byte one is expanded to, if it is one that is (R133, R141, R163). -/
def Instr.expansion : Instr → Option Instr
  | .cLi rd raw => some (.addi rd Config.r6.zeroReg (liImm raw))
  | .cSub rdP rs2P => some (.sub (expandCReg rdP) (expandCReg rdP) (expandCReg rs2P))
  | .cLwsp rd raw => some (.lw rd (lwspImm raw))
  | _ => none

/-- The 2-byte instruction that an output row's operands are read back into (R184). -/
def Instr.compression : Instr → Option Instr
  | .addi rd _ imm => some (.cLi rd (imm.extractLsb' 0 6))
  | .sub rd _ rs2 => some (.cSub (rd.extractLsb' 0 3) (rs2.extractLsb' 0 3))
  | .lw rd imm => some (.cLwsp rd (imm.extractLsb' 2 4 ++ imm.extractLsb' 6 2))
  | _ => none

theorem DecodingError.status_ne_ok (e : DecodingError) : e.status ≠ .ok := by cases e <;> nofun

namespace Machine

section
variable {i j : Instr}

/-- An instruction that is expanded answers the word of its expansion (R9). -/
theorem exec_of_expansion (hj : i.expansion = some j) (s : State) : exec i s = answerOk (encodeWord j) s := by
  cases i with
  | cLi | cSub | cLwsp =>
    cases hj
    rfl
  | _ => cases hj

/-- A 2-byte instruction that is not expanded is classified (R9). -/
theorem exec_of_expansion_eq_none (hlen : i.byteLength = 2) (hnone : i.expansion = none) :
    ∃ e, ∀ s, exec i s = answerErr e s := by
  cases i with
  | cLi | cSub | cLwsp => cases hnone
  | notCompressed | addi | lw | sub => cases hlen
  | _ => exact ⟨_, fun _ => rfl⟩

theorem isFull_of_expansion (hj : i.expansion = some j) : j.wellFormed = true ∧ j.byteLength = 4 := by
  cases i with
  | cLi | cSub | cLwsp =>
    cases hj
    exact ⟨rfl, rfl⟩
  | _ => cases hj

theorem byteLength_of_expansion (hj : i.expansion = some j) : i.byteLength = 2 := by
  cases i with
  | cLi | cSub | cLwsp => rfl
  | _ => cases hj

theorem quadrantOf_of_expansion (hj : i.expansion = some j) : quadrantOf j.firstHalf = .q3 := by
  obtain ⟨hwf, hlen⟩ := isFull_of_expansion hj
  exact (Instr.decodeFullWord_encodeWord hwf hlen).1

theorem decodeFullWord_of_expansion (hj : i.expansion = some j) : decodeFullWord (encodeWord j) = j := by
  obtain ⟨hwf, hlen⟩ := isFull_of_expansion hj
  exact (Instr.decodeFullWord_encodeWord hwf hlen).2

/-- R182: the low bits of an expanded word are 11. -/
theorem lowBits_of_expansion (hj : i.expansion = some j) : (encodeWord j).extractLsb' 0 2 = 0b11#2 := by
  have hlow := (quadrantOf_eq_q3 _).mp (quadrantOf_of_expansion hj)
  rwa [Instr.firstHalf, BitVec.extractLsb'_setWidth_of_le (by omega)] at hlow

end

theorem ne_zero_of_lowBits {w : Word} (hlow : w.extractLsb' 0 2 = 0b11#2) : w ≠ 0#32 := by
  rintro rfl
  contradiction

/-- Settles O14: a 4-byte instruction leaves NOT_COMPRESSED and the zero word, a 2-byte one a classified word or its expansion. -/
theorem errorCarriesZeroWord : Obligations.ErrorCarriesZeroWord := by
  unfold Obligations.ErrorCarriesZeroWord
  intro i s t hnext
  rcases i.byteLength_two_or_four with hlen | hlen
  · cases hj : i.expansion with
    | none =>
      obtain ⟨e, hexec⟩ := exec_of_expansion_eq_none hlen hj
      obtain rfl := Host.Outcome.next.inj ((hexec s).symm.trans hnext)
      exact ⟨fun _ => rfl, fun hok => absurd hok e.status_ne_ok⟩
    | some j =>
      obtain rfl := Host.Outcome.next.inj ((exec_of_expansion hj s).symm.trans hnext)
      have hlow := lowBits_of_expansion hj
      exact ⟨absurd rfl, fun _ => ⟨hlow, ne_zero_of_lowBits hlow⟩⟩
  · obtain rfl := Host.Outcome.next.inj ((exec_of_byteLength_four hlen s).symm.trans hnext)
    exact ⟨fun _ => rfl, nofun⟩

/-! ## The OK answers (R184) -/

theorem State.answer_injective (s : State) : Function.Injective s.answer := fun _ _ e =>
  congrArg (fun t : State => BlockResult.mk t.statusO t.wordO) e

section
variable {h : Half} {i : Instr}

theorem decompress_of_expansion {j : Instr} (hi : decodeShort h = some i) (hj : i.expansion = some j) :
    decompress h = .ok (encodeWord j) :=
  State.answer_injective .reset
    (Host.Outcome.next.inj ((exec_of_decodeShort hi .reset).symm.trans (exec_of_expansion hj .reset)))

theorem decompress_of_expansion_eq_none (hi : decodeShort h = some i) (hnone : i.expansion = none) :
    ∃ e, decompress h = .err e := by
  obtain ⟨-, hlen, -⟩ := decodeShort_isShort hi
  obtain ⟨e, hexec⟩ := exec_of_expansion_eq_none hlen hnone
  exact ⟨e, State.answer_injective .reset
    (Host.Outcome.next.inj ((exec_of_decodeShort hi .reset).symm.trans (hexec .reset)))⟩

/-- The block answers OK for the words of the instructions that are expanded, and for no others. -/
theorem decompress_eq_ok_iff {w : Word} :
    decompress h = ⟨.ok, w⟩ ↔ ∃ i j, decodeShort h = some i ∧ i.expansion = some j ∧ encodeWord j = w := by
  constructor
  · intro hok
    cases hi : decodeShort h with
    | none =>
      rw [decompress_of_q3 (decodeShort_eq_none.mp hi)] at hok
      cases hok
    | some i =>
      cases hj : i.expansion with
      | none =>
        obtain ⟨e, herr⟩ := decompress_of_expansion_eq_none hi hj
        exact absurd (congrArg BlockResult.status (herr.symm.trans hok)) e.status_ne_ok
      | some j =>
        exact ⟨i, j, rfl, hj, congrArg BlockResult.word ((decompress_of_expansion hi hj).symm.trans hok)⟩
  · rintro ⟨i, j, hi, hj, rfl⟩
    exact decompress_of_expansion hi hj

end

/-! ### Emitted words read back -/

theorem liImm_extractLsb'_low : ∀ raw : BitVec 6, (liImm raw).extractLsb' 0 6 = raw := by decide

theorem lwspImm_extractLsb'_append :
    ∀ raw : BitVec 6, (lwspImm raw).extractLsb' 2 4 ++ (lwspImm raw).extractLsb' 6 2 = raw := by decide

theorem expandCReg_extractLsb'_low : ∀ f : CReg, (expandCReg f).extractLsb' 0 3 = f := by decide

theorem compression_of_expansion {i j : Instr} (hj : i.expansion = some j) : j.compression = some i := by
  cases i with
  | cLi rd raw =>
    cases hj
    rw [Instr.compression, liImm_extractLsb'_low]
  | cSub rdP rs2P =>
    cases hj
    rw [Instr.compression, expandCReg_extractLsb'_low, expandCReg_extractLsb'_low]
  | cLwsp rd raw =>
    cases hj
    rw [Instr.compression, lwspImm_extractLsb'_append]
  | _ => cases hj

theorem decodeShort_injective {h h' : Half} {i : Instr} (hi : decodeShort h = some i) (hi' : decodeShort h' = some i) :
    h = h' := by
  obtain ⟨-, -, hword⟩ := decodeShort_isShort hi
  obtain ⟨-, -, hword'⟩ := decodeShort_isShort hi'
  rw [← Instr.firstHalf_of_word hword, Instr.firstHalf_of_word hword']

/-- Settles O17: an emitted word tells the expansion, the expansion the instruction, and the instruction its 16-bit word. -/
theorem okExpansionInjective : Obligations.OkExpansionInjective := by
  unfold Obligations.OkExpansionInjective
  intro h h' w hok hok'
  obtain ⟨i, j, hi, hj, rfl⟩ := decompress_eq_ok_iff.mp hok
  obtain ⟨i', j', hi', hj', hword⟩ := decompress_eq_ok_iff.mp hok'
  obtain rfl : j' = j := by
    rw [← decodeFullWord_of_expansion hj', hword, decodeFullWord_of_expansion hj]
  obtain rfl : i = i' := Option.some.inj ((compression_of_expansion hj).symm.trans (compression_of_expansion hj'))
  exact decodeShort_injective hi hi'

/-! ### The emitted shapes -/

theorem emittedShape_of_expansion {i j : Instr} (hwf : i.wellFormed = true) (hj : i.expansion = some j) :
    emittedShape (encodeWord j) = true := by
  cases i with
  | cLi rd raw =>
    cases hj
    simp [emittedShape, encodeWord, shapeLi_buildAddi raw (bne_iff_ne.mp hwf)]
  | cSub rdP rs2P =>
    cases hj
    simp [emittedShape, encodeWord, shapeSub_buildSub]
  | cLwsp rd raw =>
    cases hj
    simp [emittedShape, encodeWord, shapeLwsp_buildLw raw (bne_iff_ne.mp hwf)]
  | _ => cases hj

theorem liImm_eq_append :
    ∀ raw : BitVec 6, liImm raw = ((raw.extractLsb' 5 1).signExtend 7 ++ raw.extractLsb' 0 5 : BitVec 12) := by decide

/-- An immediate whose upper bits repeat its bit 5 is a sign-extended one (R69). -/
theorem eq_liImm_of_upper {imm : BitVec 12} (hupper : imm.extractLsb' 5 7 = (imm.extractLsb' 5 1).signExtend 7) :
    imm = liImm (imm.extractLsb' 0 6) := by
  rw [liImm_eq_append]
  iterate 2 rw [BitVec.extractLsb'_extractLsb'_of_le (by decide)]
  rw [← hupper, BitVec.extractLsb'_append_extractLsb']

/-- A multiple of 4 below 256 is an offset of `C.LWSP` (R70). -/
theorem eq_lwspImm_of_outer {imm : BitVec 12} (hupper : imm.extractLsb' 8 4 = 0b0000#4)
    (hlower : imm.extractLsb' 0 2 = 0b00#2) : imm = lwspImm (imm.extractLsb' 2 4 ++ imm.extractLsb' 6 2) := by
  rw [lwspImm_eq_append, BitVec.extractLsb'_append_eq_right, BitVec.extractLsb'_append_eq_left, ← hupper, ← hlower]
  iterate 3 rw [BitVec.extractLsb'_append_extractLsb'_eq_extractLsb' (by decide)]
  rw [BitVec.extractLsb'_eq_self]

theorem eq_expandCReg_of_upper :
    ∀ r : RegId, r.extractLsb' 3 2 = 0b01#2 → r = expandCReg (r.extractLsb' 0 3) := by decide

section
variable {w : Word} {b c : Nat}

theorem immOf_extractLsb' (h : b + c ≤ 12) : (immOf w).extractLsb' b c = w.extractLsb' (20 + b) c :=
  (extractLsb'_of_field rfl h).symm

theorem rs2Of_extractLsb' (h : b + c ≤ 5) : (rs2Of w).extractLsb' b c = w.extractLsb' (20 + b) c :=
  (extractLsb'_of_field rfl h).symm

theorem rdOf_extractLsb' (h : b + c ≤ 5) : (rdOf w).extractLsb' b c = w.extractLsb' (7 + b) c :=
  (extractLsb'_of_field rfl h).symm

theorem buildAddi_of_shapeLi (hshape : shapeLi w = true) :
    rdOf w ≠ 0#5 ∧ buildAddi (rdOf w) Config.r6.zeroReg (liImm ((immOf w).extractLsb' 0 6)) = w := by
  simp only [shapeLi, Bool.and_eq_true, beq_iff_eq, bne_iff_ne] at hshape
  obtain ⟨⟨⟨hfits, hrs1⟩, hrd⟩, hupper⟩ := hshape
  have himm : immOf w = liImm ((immOf w).extractLsb' 0 6) := eq_liImm_of_upper <| by
    rw [immOf_extractLsb' (by decide), immOf_extractLsb' (by decide), hupper]
  rw [← himm, ← hrs1]
  exact ⟨hrd, buildAddi_of_fitsAddi hfits⟩

theorem buildSub_of_shapeSub (hshape : shapeSub w = true) :
    buildSub (expandCReg ((rdOf w).extractLsb' 0 3)) (expandCReg ((rdOf w).extractLsb' 0 3))
      (expandCReg ((rs2Of w).extractLsb' 0 3)) = w := by
  simp only [shapeSub, Bool.and_eq_true, beq_iff_eq] at hshape
  obtain ⟨⟨⟨⟨hfits, hrs2⟩, -⟩, hrd⟩, hrs1⟩ := hshape
  have hrd' := eq_expandCReg_of_upper (rdOf w) ((rdOf_extractLsb' (by decide)).trans hrd)
  have hrs2' := eq_expandCReg_of_upper (rs2Of w) ((rs2Of_extractLsb' (by decide)).trans hrs2)
  calc _ = buildSub (rdOf w) (rs1Of w) (rs2Of w) := by rw [hrs1, ← hrd', ← hrs2']
    _ = w := buildSub_of_fitsSub hfits

theorem buildLw_of_shapeLwsp (hshape : shapeLwsp w = true) :
    rdOf w ≠ 0#5 ∧ buildLw (rdOf w) (lwspImm ((immOf w).extractLsb' 2 4 ++ (immOf w).extractLsb' 6 2)) = w := by
  simp only [shapeLwsp, Bool.and_eq_true, beq_iff_eq, bne_iff_ne] at hshape
  obtain ⟨⟨⟨hfits, hupper⟩, hlower⟩, hrd⟩ := hshape
  rw [← eq_lwspImm_of_outer ((immOf_extractLsb' (by decide)).trans hupper)
    ((immOf_extractLsb' (by decide)).trans hlower)]
  exact ⟨hrd, buildLw_of_fitsLw hfits⟩

/-- The emitted shapes are those of the words of the well-formed instructions' expansions (R184). -/
theorem emittedShape_iff :
    emittedShape w = true ↔ ∃ i j : Instr, i.wellFormed = true ∧ i.expansion = some j ∧ encodeWord j = w := by
  constructor
  · intro hshape
    simp only [emittedShape, Bool.or_eq_true] at hshape
    rcases hshape with (hli | hsub) | hlwsp
    · obtain ⟨hrd, hword⟩ := buildAddi_of_shapeLi hli
      exact ⟨.cLi _ _, _, bne_iff_ne.mpr hrd, rfl, hword⟩
    · exact ⟨.cSub _ _, _, rfl, rfl, buildSub_of_shapeSub hsub⟩
    · obtain ⟨hrd, hword⟩ := buildLw_of_shapeLwsp hlwsp
      exact ⟨.cLwsp _ _, _, bne_iff_ne.mpr hrd, rfl, hword⟩
  · rintro ⟨i, j, hwf, hj, rfl⟩
    exact emittedShape_of_expansion hwf hj

end

/-- Settles O16: a word has an emitted shape, and is an OK answer, if it is what a well-formed instruction is expanded to. -/
theorem okWordsHaveEmittedShape : Obligations.OkWordsHaveEmittedShape := by
  unfold Obligations.OkWordsHaveEmittedShape
  intro w
  rw [emittedShape_iff]
  constructor
  · rintro ⟨i, j, hwf, hj, rfl⟩
    obtain ⟨h, -, hi⟩ := Instr.exists_half hwf (byteLength_of_expansion hj)
    exact ⟨h, decompress_of_expansion hi hj⟩
  · rintro ⟨h, hok⟩
    obtain ⟨i, j, hi, hj, hword⟩ := decompress_eq_ok_iff.mp hok
    exact ⟨i, j, (decodeShort_isShort hi).wellFormed, hj, hword⟩

end Machine
end Sys2Proof

namespace Sys2Proof
namespace Machine

/-! ## The dispatch (R180, R181) -/

/-- The field `h[1:0]` is all that the quadrant is told from (R62). -/
theorem quadrantOf_of_op {h : Half} {op : BitVec 2} (e : h.extractLsb' 0 2 = op) :
    quadrantOf h = quadrantOf (op.setWidth 16) := by
  subst e
  exact quadrantOf_eq_iff.mpr (by simp)

/-- Settles O13: the field `h[1:0]` tells the quadrant, and the quadrant the decoder. -/
theorem topLevelDispatch : Obligations.TopLevelDispatch := by
  unfold Obligations.TopLevelDispatch
  exact fun h => ⟨fun e => decompress_of_q0 (quadrantOf_of_op e), fun e => decompress_of_q1 (quadrantOf_of_op e),
    fun e => decompress_of_q2 (quadrantOf_of_op e), fun e => decompress_of_q3 (quadrantOf_of_op e) Config.r6⟩

/-- Settles O11: a quadrant-3 instruction is 4 bytes long, and the mask keeps the quadrant. -/
theorem quadrantThreeNotCompressed : Obligations.QuadrantThreeNotCompressed := by
  unfold Obligations.QuadrantThreeNotCompressed
  refine ⟨fun s w _ => exec_of_byteLength_four (i := .notCompressed w) rfl s, fun h e => ?_⟩
  have hq : quadrantOf h = .q3 := quadrantOf_of_and_eq e (by decide) (by decide)
  exact ⟨decompress_of_q3 hq Config.r6, decompress_of_q3 hq Config.r6⟩

/-- Settles O24: with nothing queued a step is the walk, which presents the word and answers the block's function of it. -/
theorem stepRefinesBlock : Obligations.StepRefinesBlock := by
  unfold Obligations.StepRefinesBlock
  intro s h hreq hr hop
  exact (step_nil hreq).trans (instructionNext_half hr (mt (quadrantOf_eq_q3 h).mp hop))

/-! ## What `decode` makes of a 2-byte word (R185, R200) -/

section
variable {h : Half} (hq : quadrantOf h ≠ .q3)
include hq

theorem isHalfOrigin_setWidth : isHalfOrigin (h.setWidth 32) = true := by
  have hupper : (h.setWidth 32).extractLsb' 16 16 = 0#16 := extractLsb'_eq_of_bits 16 fun k hk => by
    simp
  have hlower : (h.setWidth 32).setWidth 16 = h := Laws.EncodedForm.firstHalf_setWidth h
  simp [isHalfOrigin, hupper, hlower, hq]

/-- A zero-extended 2-byte word goes through the block (log 8), as a walk's item does. -/
theorem decode_setWidth : decode (h.setWidth 32) = (Item.block (decompress h)).decoded := by
  rw [decode, if_pos (isHalfOrigin_setWidth hq), Laws.EncodedForm.firstHalf_setWidth]
  rfl

end

theorem decoded_of_status_eq_ok {r : BlockResult} (hok : r.status = .ok) :
    (Item.block r).decoded = decodeFullWidth r.word := by
  simp only [Item.decoded, BlockResult.read, hok]

theorem decoded_of_status_eq_error {r : BlockResult} (e : DecodingError) (herr : r.status = e.status) :
    (Item.block r).decoded = .error e := by
  cases e <;> simp only [Item.decoded, BlockResult.read, herr, DecodingError.status]

/-- An emitted word is of quadrant 3, so `decode` takes it as a full-width word, and succeeds on it (log 7). -/
theorem decode_of_emittedShape {w : Word} (hshape : emittedShape w = true) :
    decodeFullWidth w = .ok ⟨w⟩ ∧ decode w = .ok ⟨w⟩ := by
  obtain ⟨i, j, -, hj, rfl⟩ := emittedShape_iff.mp hshape
  have hq : quadrantOf ((encodeWord j).setWidth 16) = .q3 := quadrantOf_of_expansion hj
  have hfull : decodeFullWidth (encodeWord j) = .ok ⟨encodeWord j⟩ := if_pos hshape
  refine ⟨hfull, ?_⟩
  rw [decode, isHalfOrigin, hq]
  simpa using hfull

/-- Settles O46: `decode` gives the zero extension to the block, as the walk does, and the status tells the rest. -/
theorem decodeRoutesHalfWords : Obligations.DecodeRoutesHalfWords := by
  unfold Obligations.DecodeRoutesHalfWords
  intro h hop
  have hq : quadrantOf h ≠ .q3 := mt (quadrantOf_eq_q3 h).mp hop
  rw [decode_setWidth hq]
  refine ⟨rfl, fun hok => ?_, decoded_of_status_eq_error .illegal, decoded_of_status_eq_error .reserved,
    decoded_of_status_eq_error .unimplemented⟩
  obtain ⟨⟨hshape, -⟩, -⟩ := decompress_allowed hq
  obtain ⟨hfull, hdecode⟩ := decode_of_emittedShape (hshape hok)
  rw [decoded_of_status_eq_ok hok, hfull, hdecode]
  exact ⟨rfl, rfl⟩

end Machine
end Sys2Proof

namespace Sys2Proof
namespace Machine

/-! ## Counting 16-bit words (R72, R183) -/

/-- How many of the 65536 words have a property. -/
def countHalves (p : Half → Bool) : Nat := (List.range 65536).countP fun n => p (BitVec.ofNat 16 n)

theorem countStatus_eq_countHalves (st : Status) : countStatus st = countHalves fun h => (decompress h).status == st := rfl

/-- The words with a property are those that have another one too and those that have not. -/
theorem countHalves_eq_add (p q : Half → Bool) :
    countHalves p = countHalves (fun h => p h && q h) + countHalves (fun h => p h && !q h) := by
  simp only [countHalves]
  rw [List.countP_eq_countP_filter_add _ _ fun n => q (BitVec.ofNat 16 n), List.countP_filter, List.countP_filter]

/-! ### The words of a mask and a pattern -/

/-- How many values of the low `w` bits a mask and a pattern select: each bit multiplies by the values it may take. -/
def maskCount (mask pattern : Half) : Nat → Nat
  | 0 => 1
  | w + 1 => maskCount mask pattern w *
      ((false == pattern.getLsbD w).toNat + (mask.getLsbD w == pattern.getLsbD w).toNat)

theorem countP_and_const {α : Type} (l : List α) (p : α → Bool) (b : Bool) :
    l.countP (fun x => p x && b) = l.countP p * b.toNat := by
  cases b <;> simp

/-- The numbers below `2 ^ (w + 1)` are those below `2 ^ w`, with bit `w` clear and with bit `w` set. -/
theorem countP_bits_eq_maskCount (mask pattern : Half) (w : Nat) :
    (List.range (2 ^ w)).countP (fun n => decide (∀ k < w, (n.testBit k && mask.getLsbD k) = pattern.getLsbD k)) =
      maskCount mask pattern w := by
  induction w with
  | zero => rfl
  | succ w ih =>
    rw [pow_succ, mul_two, List.range_add, List.countP_append, List.countP_map, maskCount, mul_add, ← ih,
      ← countP_and_const, ← countP_and_const]
    congr 1 <;> refine List.countP_congr fun n hn => ?_
    · have htop : n.testBit w = false := Nat.testBit_lt_two_pow (List.mem_range.mp hn)
      simp only [decide_eq_true_iff, Nat.forall_lt_succ_right, htop, Bool.false_and, Bool.and_eq_true, beq_iff_eq]
    · have htop : (2 ^ w + n).testBit w = true := by
        rw [Nat.testBit_two_pow_add_eq, Nat.testBit_lt_two_pow (List.mem_range.mp hn), Bool.not_false]
      have hlow (k : Nat) (hk : k < w) := Nat.testBit_two_pow_add_gt hk n
      simp +contextual only [Function.comp_apply, decide_eq_true_iff, Nat.forall_lt_succ_right, htop, hlow, Bool.true_and,
        Bool.and_eq_true, beq_iff_eq]

theorem countHalves_mask (mask pattern : Half) :
    countHalves (fun h => h &&& mask == pattern) = maskCount mask pattern 16 := by
  rw [← countP_bits_eq_maskCount]
  refine List.countP_congr fun n _ => ?_
  rw [beq_iff_eq, decide_eq_true_iff, and_eq_iff_bits, Fin.forall_iff]
  simp +contextual only [BitVec.getLsbD_ofNat, decide_true, Bool.true_and]

/-! ### The words of a row (R77) -/

theorem rdField_eq_zero_iff_mask {h : Half} : rdField h = 0#5 ↔ h &&& 0x0F80#16 = 0#16 := by
  simp [rdField_eq_zero, and_eq_iff_bits, Fin.forall_fin_succ]

theorem or_and_absorb (m c : Half) : (m ||| c) &&& m = m ∧ (m ||| c) &&& c = c := by
  constructor <;> ext k <;> simp +contextual

/-- A row that excludes `rd = 0`: those of its words that it excludes are given by a mask too. -/
theorem and_eq_and_rdField_eq_zero_iff {h m p : Half} (hm : p &&& m = p) (hrd : p &&& 0x0F80#16 = 0#16) :
    h &&& m = p ∧ rdField h = 0#5 ↔ h &&& (m ||| 0x0F80#16) = p := by
  rw [rdField_eq_zero_iff_mask]
  constructor
  · rintro ⟨e, erd⟩
    rw [BitVec.and_or_distrib_left, e, erd, BitVec.or_zero]
  · intro e
    obtain ⟨hleft, hright⟩ := or_and_absorb m 0x0F80#16
    have em := and_eq_of_and_eq e m
    have erd := and_eq_of_and_eq e 0x0F80#16
    rw [hleft, hm] at em
    rw [hright, hrd] at erd
    exact ⟨em, erd⟩

/-- Each row fixes no bit outside its mask, and leaves `rd` free if it excludes 0. -/
theorem inputRows_patterns : ∀ r ∈ inputRows,
    r.pattern &&& r.mask = r.pattern ∧ (r.rdNot0 = true → r.pattern &&& 0x0F80#16 = 0#16) := by decide

/-- The words of each row's mask are those the row counts and, if it excludes `rd = 0`, those with `rd = 0`. -/
theorem inputRows_words : ∀ r ∈ inputRows, maskCount r.mask r.pattern 16 =
    r.words + bif r.rdNot0 then maskCount (r.mask ||| 0x0F80#16) r.pattern 16 else 0 := by decide

/-- R77: each row selects as many words as the table says. -/
theorem countHalves_selects {r : Row} (hmem : r ∈ inputRows) : countHalves r.selects = r.words := by
  have hwords := inputRows_words r hmem
  obtain ⟨hpattern, hfree⟩ := inputRows_patterns r hmem
  simp only [← countHalves_mask] at hwords
  cases hnot : r.rdNot0 with
  | false =>
    have hselects : r.selects = fun h => h &&& r.mask == r.pattern := by
      funext h
      simp [Row.selects, hnot]
    rw [hnot] at hwords
    rw [hselects, hwords, cond_false, Nat.add_zero]
  | true =>
    have hexcluded : (fun h : Half => h &&& r.mask == r.pattern && rdField h == 0#5) =
        fun h => h &&& (r.mask ||| 0x0F80#16) == r.pattern := by
      funext h
      rw [Bool.eq_iff_iff, Bool.and_eq_true, beq_iff_eq, beq_iff_eq, beq_iff_eq]
      exact and_eq_and_rdField_eq_zero_iff hpattern (hfree hnot)
    have hselects : r.selects = fun h => h &&& r.mask == r.pattern && !(rdField h == 0#5) := by
      funext h
      simp [Row.selects, hnot, bne]
    rw [countHalves_eq_add _ fun h => rdField h == 0#5, hexcluded, ← hselects, hnot, cond_true] at hwords
    omega

/-- Rows that exclude each other select together as many words as each of them, added up. -/
theorem countHalves_any_selects {rows : List Row} (hapart : rows.Pairwise fun r r' => r.apart r' = true) :
    countHalves (fun h => rows.any (·.selects h)) = (rows.map fun r => countHalves r.selects).sum := by
  induction rows with
  | nil => simp [countHalves]
  | cons r rows ih =>
    obtain ⟨hhead, htail⟩ := List.pairwise_cons.mp hapart
    rw [countHalves_eq_add _ r.selects, List.map_cons, List.sum_cons, ← ih htail]
    congr 2 <;> funext h
    · cases hr : r.selects h <;> simp [hr]
    · cases hr : r.selects h with
      | false => simp [hr]
      | true =>
        have hnone : ∀ r' ∈ rows, r'.selects h = false := fun r' hr' => Row.not_selects_of_apart (hhead r' hr') hr
        simpa using hnone

/-- A word has a status if and only if a row with that result selects it (R77). -/
theorem status_eq_iff_any_selects (h : Half) (st : Status) :
    ((decompress h).status == st) = (inputRows.filter (·.result == st)).any (·.selects h) := by
  obtain ⟨r, hrow, hresult⟩ := everyWordOneRow.1 h
  have hswap : (inputRows.filter (·.result == st)).any (·.selects h) =
      (inputRows.filter (·.selects h)).any (·.result == st) := by
    simp only [List.any_filter, Bool.and_comm]
  rw [hswap, hrow, hresult, List.any_cons, List.any_nil, Bool.or_false]

theorem countStatus_eq_sum_words (st : Status) :
    countStatus st = ((inputRows.filter (·.result == st)).map Row.words).sum := by
  rw [countStatus_eq_countHalves]
  simp only [status_eq_iff_any_selects]
  rw [countHalves_any_selects (inputRows_apart.filter _)]
  exact congrArg List.sum (List.map_congr_left fun r hr => countHalves_selects (List.mem_of_mem_filter hr))

/-- Settles O15: the words of each status are those of the rows with that result, which the table counts. -/
theorem statusCounts : Obligations.StatusCounts := by
  unfold Obligations.StatusCounts
  simp only [countStatus_eq_sum_words]
  decide

end Machine
end Sys2Proof

namespace Sys2Proof
namespace Machine

/-! ## The step that asks for the next instruction (R195 to R197) -/

/-- Settles O25: with nothing queued a step is the walk, which hands the whole word on. -/
theorem stepHandsOnFullWord : Obligations.StepHandsOnFullWord := by
  unfold Obligations.StepHandsOnFullWord
  intro s h w hreq hr hop hw
  exact (step_nil hreq).trans (instructionNext_full hr ((quadrantOf_eq_q3 h).mpr hop) hw)

/-- The bytes run out under the fetch: one is left, or fewer than four of a quadrant-3 word (R197). -/
def State.FetchIsCut (s : State) : Prop :=
  s.ins.cursor + 1 = s.ins.buffer.size ∨
    ∃ h, s.ins.buffer.readHalf s.ins.cursor = some h ∧ h.extractLsb' 0 2 = 0b11#2 ∧
      s.ins.buffer.size < s.ins.cursor + 4

section
variable {s : State} {rest : List Request} (hask : s.AsksNext rest)
include hask

theorem step_end (hend : s.ins.buffer.size ≤ s.ins.cursor) :
    step s = .next { s with requests := rest, insEnded := true } :=
  (step_asksNext hask).trans (instructionNext_end hend)

theorem step_cut (hcut : s.FetchIsCut) : step s = .fault .truncated := by
  refine (step_asksNext hask).trans ?_
  rcases hcut with hone | ⟨h, hr, hop, hs⟩
  · exact instructionNext_cut hone
  · exact instructionNext_full_cut hr ((quadrantOf_eq_q3 h).mpr hop) hs

variable {h : Half} (hr : s.ins.buffer.readHalf s.ins.cursor = some h)
include hr

theorem step_half (hq : quadrantOf h ≠ .q3) :
    step s = .next ((({ s with requests := rest } : State).setInstrI h).answer (decompress h)) :=
  (step_asksNext hask).trans (instructionNext_half hr hq)

theorem step_full {w : Word} (hq : quadrantOf h = .q3) (hw : s.ins.buffer.readWord s.ins.cursor = some w) :
    step s =
      .next (((({ s with requests := rest } : State).setInstrI h).setOutputs .notCompressed).yieldItem (.full w) 4) :=
  (step_asksNext hask).trans (instructionNext_full (s := { s with requests := rest }) hr hq hw)

end

/-- Settles O26: the end leaves buffer and cursor, so the next step is at the end too. -/
theorem walkEnds : Obligations.WalkEnds := by
  unfold Obligations.WalkEnds
  exact fun s rest hask hend => ⟨step_end hask hend, fun rest' hask' => step_end hask' hend⟩

/-- Unless the fetch is cut, `InstructionIter` answers: no other defect is reached with the classifier of R191 (R235). -/
theorem step_next_of_not_cut {s : State} {rest : List Request} (hask : s.AsksNext rest) (hcut : ¬ s.FetchIsCut) :
    ∃ t, step s = .next t := by
  rcases classifyAt_cases s.ins.buffer s.ins.cursor with ⟨hend, -⟩ | ⟨hone, -⟩ | ⟨h, hr, -⟩
  · exact ⟨_, step_end hask hend⟩
  · exact absurd (.inl hone) hcut
  by_cases hq : quadrantOf h = .q3
  · have hs : s.ins.cursor + 4 ≤ s.ins.buffer.size := by
      by_contra hs
      exact hcut (.inr ⟨h, hr, (quadrantOf_eq_q3 h).mp hq, by omega⟩)
    exact ⟨_, step_full hask hr hq (Memory.readWord_eq_some.mpr ⟨hs, rfl⟩)⟩
  · exact ⟨_, step_half hask hr hq⟩

/-- Settles O27: a cut fetch is `TRUNCATED`, and from every other state the step answers a next state. -/
theorem stepFaultsExactlyWhenTruncated : Obligations.StepFaultsExactlyWhenTruncated := by
  unfold Obligations.StepFaultsExactlyWhenTruncated
  intro s rest hask
  by_cases hcut : s.FetchIsCut
  · rw [step_cut hask hcut]
    exact ⟨iff_of_true rfl hcut, fun f hf => (Host.Outcome.fault.inj hf).symm, nofun⟩
  · obtain ⟨t, hnext⟩ := step_next_of_not_cut hask hcut
    rw [hnext]
    exact ⟨iff_of_false nofun hcut, nofun, nofun⟩

/-- Settles O28: the length check stands in the part of the fetch that both iterators share. -/
theorem badLengthIsDefect : Obligations.BadLengthIsDefect := by
  unfold Obligations.BadLengthIsDefect
  intro classifier m c h hr h2 h4
  have hbad := classifyAt_badLength hr h2 h4
  exact ⟨hbad, fetchAt_of_classifyAt_error hbad⟩

/-! ## The walk moves forward (R199) -/

/-- `t`'s walk goes on from `s`'s: the same buffer, items added, and the cursor on by exactly their lengths. -/
def State.WalkGoesOn (s t : State) : Prop :=
  t.ins.buffer = s.ins.buffer ∧
    ∃ new : List Item, t.insItems = s.insItems ++ new ∧ t.ins.cursor = s.ins.cursor + (new.map Item.byteLength).sum

theorem State.WalkGoesOn.of_eq {s t : State} (hins : t.ins = s.ins) (hitems : t.insItems = s.insItems) :
    s.WalkGoesOn t :=
  ⟨by rw [hins], [], by simp [hitems], by simp [hins]⟩

theorem instructionNext_walkGoesOn {s t : State} (hnext : instructionNext s = .next t) : s.WalkGoesOn t := by
  rcases instructionNext_cases hnext with ⟨-, rfl⟩ | ⟨h, -, -, rfl⟩ | ⟨h, w, -, -, -, rfl⟩
  · exact .of_eq rfl rfl
  · exact ⟨rfl, [.block (decompress h)], rfl, rfl⟩
  · exact ⟨rfl, [.full w], rfl, rfl⟩

/-- No call but `InstructionIter::new` touches `InstructionIter` or its record. -/
theorem serve_keeps_ins {c : HostCall} {s t : State} (hc : ∀ bytes, c ≠ .newInstructionIter bytes)
    (hserve : serve c s = .next t) : t.ins = s.ins ∧ t.insItems = s.insItems := by
  cases c with
  | nextLocation => rcases locationNext_cases hserve with ⟨-, rfl⟩ | ⟨h, -, rfl⟩ <;> exact ⟨rfl, rfl⟩
  | newInstructionIter bytes => exact absurd rfl (hc bytes)
  | loadAndDecodeObjectFile f =>
    obtain ⟨r, -, rfl⟩ := callLoadAndDecode_cases hserve
    exact ⟨rfl, rfl⟩
  | present | newLocationIter | loadObjectFile =>
    cases hserve
    exact ⟨rfl, rfl⟩

/-- Settles O31: the next instruction goes on with the walk, and every other call leaves it. -/
theorem walkMovesForward : Obligations.WalkMovesForward := by
  unfold Obligations.WalkMovesForward
  intro s t hstep hnew
  rcases step_cases s with ⟨rest, -, heq⟩ | ⟨c, rest, hreq, heq⟩
  · exact instructionNext_walkGoesOn (s := { s with requests := rest }) (heq.symm.trans hstep)
  · have hc : ∀ bytes, c ≠ .newInstructionIter bytes := by
      rintro bytes rfl
      exact hnew bytes rest hreq
    obtain ⟨hins, hitems⟩ := serve_keeps_ins hc (heq.symm.trans hstep)
    exact State.WalkGoesOn.of_eq hins hitems

/-! ## What a step yields depends on the fetched bytes (R264) -/

/-- Where a step goes on from a quadrant-3 word, the four bytes are there. -/
theorem exists_readWord_of_step {s t : State} {rest : List Request} {h : Half} (hask : s.AsksNext rest)
    (hr : s.ins.buffer.readHalf s.ins.cursor = some h) (hq : quadrantOf h = .q3) (hstep : step s = .next t) :
    ∃ w, s.ins.buffer.readWord s.ins.cursor = some w := by
  by_cases hs : s.ins.cursor + 4 ≤ s.ins.buffer.size
  · exact ⟨_, Memory.readWord_eq_some.mpr ⟨hs, rfl⟩⟩
  · rw [step_cut hask (.inr ⟨h, hr, (quadrantOf_eq_q3 h).mp hq, by omega⟩)] at hstep
    contradiction

/-- Settles O32: the walk's answer is written from the fetched half alone, or from it and the fetched word. -/
theorem answerDependsOnFetchedBytesOnly : Obligations.AnswerDependsOnFetchedBytesOnly := by
  unfold Obligations.AnswerDependsOnFetchedBytesOnly
  intro s s' t t' rest rest' h hask hask' hr hr' hword hstep hstep'
  by_cases hq : quadrantOf h = .q3
  · obtain ⟨w, hw⟩ := exists_readWord_of_step hask hr hq hstep
    have hw' := (hword ((quadrantOf_eq_q3 h).mp hq)).symm.trans hw
    obtain rfl := Host.Outcome.next.inj ((step_full hask hr hq hw).symm.trans hstep)
    obtain rfl := Host.Outcome.next.inj ((step_full hask' hr' hq hw').symm.trans hstep')
    exact ⟨rfl, rfl, rfl, .full w, rfl, rfl⟩
  · obtain rfl := Host.Outcome.next.inj ((step_half hask hr hq).symm.trans hstep)
    obtain rfl := Host.Outcome.next.inj ((step_half hask' hr' hq).symm.trans hstep')
    exact ⟨rfl, rfl, rfl, .block (decompress h), rfl, rfl⟩

/-! ## The bytes at the cursor decode (R60, R195) -/

theorem Memory.readBytes_eq_some {m : Memory} {a n : Nat} {bs : List Byte} :
    m.readBytes a n = some bs ↔ a + n ≤ m.size ∧ (List.range n).map (fun k => cellAt (a + k) m.cells) = bs := by
  rw [Memory.readBytes, Option.ite_none_right_eq_some, Option.some.injEq]

theorem readHalf_of_readBytes {m : Memory} {a n : Nat} {b0 b1 : Byte} {tail : List Byte}
    (h : m.readBytes a n = some (b0 :: b1 :: tail)) : m.readHalf a = some (halfOfBytes b0 b1) := by
  obtain ⟨hs, hcells⟩ := Memory.readBytes_eq_some.mp h
  obtain ⟨k, rfl⟩ : ∃ k, n = k + 2 := ⟨tail.length, by simpa using congrArg List.length hcells⟩
  simp only [List.range_succ_eq_map, List.map_cons, List.cons.injEq] at hcells
  obtain ⟨rfl, rfl, -⟩ := hcells
  exact Memory.readHalf_eq_some.mpr ⟨by omega, rfl⟩

/-- The classifier tells how many bytes the decoder takes. -/
theorem instructionLength_of_decodeBytes {bs : List Byte} {i : Instr} (hdecode : decodeBytes bs = .ok (i, [])) :
    ∃ b0 b1 tail, bs = b0 :: b1 :: tail ∧ instructionLength (halfOfBytes b0 b1) = bs.length := by
  rcases decodeBytes_eq_ok_iff.mp hdecode with ⟨b0, b1, rfl, hi⟩ | ⟨b0, b1, b2, b3, rfl, hq, -⟩
  · have hq : quadrantOf (halfOfBytes b0 b1) ≠ .q3 := by
      intro hq
      simp [decodeShort, hq] at hi
    exact ⟨b0, b1, [], rfl, instructionLength_eq_two.mpr hq⟩
  · exact ⟨b0, b1, [b2, b3], rfl, instructionLength_eq_four.mpr hq⟩

/-- The fetch takes exactly the bytes that decode. -/
theorem fetchAt_of_decodeBytes {m : Memory} {c : Nat} {h : Half} {bs : List Byte} {i : Instr}
    (hr : m.readHalf c = some h) (hbytes : m.readBytes c bs.length = some bs) (hdecode : decodeBytes bs = .ok (i, [])) :
    fetchAt instructionLength m c = .ok (some (h, bs)) := by
  obtain ⟨b0, b1, tail, rfl, hlen⟩ := instructionLength_of_decodeBytes hdecode
  obtain rfl : h = halfOfBytes b0 b1 := Option.some.inj (hr.symm.trans (readHalf_of_readBytes hbytes))
  simp only [fetchAt, classifyAt_word hr, hlen, hbytes]

theorem instructionNext_of_decodeBytes {s : State} {h : Half} {bs : List Byte} {i : Instr}
    (hr : s.ins.buffer.readHalf s.ins.cursor = some h)
    (hbytes : s.ins.buffer.readBytes s.ins.cursor bs.length = some bs) (hdecode : decodeBytes bs = .ok (i, [])) :
    instructionNext s = exec i (s.setInstrI h) := by
  simp only [instructionNext, fetchAt_of_decodeBytes hr hbytes hdecode, hdecode]

/-- Settles O23: the walk fetches those bytes and runs what they decode to, and the queue only decides that it is asked. -/
theorem stepRunsDecodedInstruction : Obligations.StepRunsDecodedInstruction := by
  unfold Obligations.StepRunsDecodedInstruction
  intro s h bs i hr hbytes hdecode
  refine ⟨fun hreq => ?_, fun rest hreq => ?_⟩
  · exact (step_nil hreq).trans (instructionNext_of_decodeBytes hr hbytes hdecode)
  · exact (step_next hreq).trans (instructionNext_of_decodeBytes (s := { s with requests := rest }) hr hbytes hdecode)

/-! ## An instruction placed from outside (log 4) -/

/-- Bytes put into a canonical buffer are read back, as many of them as are asked for. -/
theorem Memory.readBytes_writeBytes {m : Memory} (hm : m.wf) (a : Nat) {bs : List Byte} (hne : bs ≠ []) {n : Nat}
    (hn : n ≤ bs.length) : (m.writeBytes a bs).readBytes a n = some (bs.take n) := by
  obtain ⟨b, bs', rfl⟩ := List.exists_cons_of_ne_nil hne
  have hsize : (m.writeBytes a (b :: bs')).size = max (m.write a b).size (a + 1 + bs'.length) :=
    Memory.writeBytes_size bs' (m.write a b) (a + 1) (Nat.le_max_right ..)
  rw [List.length_cons] at hn
  refine Memory.readBytes_eq_some.mpr ⟨by omega, List.ext_getElem (by simpa using hn) fun k hk _ => ?_⟩
  have hlt : k < (b :: bs').length := by
    rw [List.length_map, List.length_range] at hk
    exact Nat.lt_of_lt_of_le hk hn
  rw [List.getElem_map, List.getElem_range, cellAt_writeBytes _ m a k hm hlt, List.getElem_take,
    List.getD_eq_getElem _ _ hlt]

theorem length_encode (i : Instr) : (encode i).length = i.byteLength := by
  rcases i.byteLength_two_or_four with hlen | hlen <;> simp [encode, bytesOfWord, hlen]

/-- An instruction's word fits the width that `withFetchWord` is given for it. -/
theorem encodeWord_toNat_mod {i : Instr} (hwf : i.wellFormed = true) :
    BitVec.ofNat 32 ((encodeWord i).toNat % 2 ^ (8 * i.byteLength)) = encodeWord i := by
  have hlt : (encodeWord i).toNat < 2 ^ (8 * i.byteLength) := by
    rcases i.byteLength_two_or_four with hlen | hlen <;> rw [hlen]
    · obtain ⟨h, hword, -⟩ := Instr.exists_half hwf hlen
      rw [hword, BitVec.toNat_setWidth_of_le (by omega)]
      exact h.isLt
    · exact (encodeWord i).isLt
  rw [Nat.mod_eq_of_lt hlt, BitVec.ofNat_toNat, BitVec.setWidth_eq]

/-- Settles O35: the placed bytes begin with the instruction's encoding, which decodes to it. -/
theorem placedWordRunsNext : Obligations.PlacedWordRunsNext := by
  unfold Obligations.PlacedWordRunsNext
  intro s i hm hwf
  have hbuffer : (s.withFetchWord (8 * i.byteLength) (encodeWord i).toNat).ins.buffer =
      s.ins.buffer.writeBytes s.ins.cursor (bytesOfWord 4 (encodeWord i)) := by
    rw [State.withFetchWord, encodeWord_toNat_mod hwf]
  have hread {n : Nat} (hn : n ≤ 4) := Memory.readBytes_writeBytes hm s.ins.cursor
    (bs := bytesOfWord 4 (encodeWord i)) (List.cons_ne_nil _ _) hn
  have hhalf : (s.ins.buffer.writeBytes s.ins.cursor (bytesOfWord 4 (encodeWord i))).readHalf s.ins.cursor =
      some i.firstHalf :=
    (readHalf_of_readBytes (hread le_rfl)).trans (congrArg some (halfOfBytes_of_word (encodeWord i)))
  have hbytes : (s.ins.buffer.writeBytes s.ins.cursor (bytesOfWord 4 (encodeWord i))).readBytes s.ins.cursor
      (encode i).length = some (encode i) := by
    rw [length_encode]
    exact hread (by rcases i.byteLength_two_or_four with hlen | hlen <;> omega)
  have hdecode : decodeBytes (encode i) = .ok (i, []) := by
    simpa using decodeEncodeRoundTrip i [] hwf
  rw [← hbuffer] at hhalf hbytes
  exact (stepRunsDecodedInstruction _ _ _ _ hhalf hbytes hdecode).1 rfl

/-! ## `LocationIter` (R193, R196 to R198) -/

section
variable {classifier : Half → Nat} {s : State}

theorem locationNextOf_end (h : s.loc.buffer.size ≤ s.loc.cursor) :
    locationNextOf classifier s = .next s.endLocations := by
  simp only [locationNextOf, classifyAt_end h]

theorem locationNextOf_cut (h : s.loc.cursor + 1 = s.loc.buffer.size) :
    locationNextOf classifier s = .fault .truncated := by
  simp only [locationNextOf, classifyAt_cut h]

variable {h : Half} (hr : s.loc.buffer.readHalf s.loc.cursor = some h)
include hr

theorem locationNextOf_word (hl : classifier h = 2 ∨ classifier h = 4) :
    locationNextOf classifier s = .next (s.yieldLocation (classifier h)) := by
  simp only [locationNextOf, classifyAt_word_of hr hl]

theorem locationNextOf_badLength (h2 : classifier h ≠ 2) (h4 : classifier h ≠ 4) :
    locationNextOf classifier s = .fault .badLength := by
  simp only [locationNextOf, classifyAt_badLength hr h2 h4]

theorem locationNext_word : locationNext s = .next (s.yieldLocation (instructionLength h)) :=
  locationNextOf_word hr (instructionLength_two_or_four h)

end

/-- Settles O59: the call is served by the walk, which is read off the fetch that both iterators share. -/
theorem locationWalkTakesClassifier : Obligations.LocationWalkTakesClassifier := by
  unfold Obligations.LocationWalkTakesClassifier
  exact ⟨fun s rest hreq => step_call hreq, fun classifier s =>
    ⟨locationNextOf_end, locationNextOf_cut, fun h hr => ⟨locationNextOf_word hr, locationNextOf_badLength hr⟩⟩⟩

/-- The length is told from `h[1:0]` (R191). -/
theorem instructionLength_eq_ite (h : Half) : instructionLength h = if h.extractLsb' 0 2 = 0b11#2 then 4 else 2 := by
  split_ifs with hop
  · exact instructionLength_eq_four.mpr ((quadrantOf_eq_q3 h).mpr hop)
  · exact instructionLength_eq_two.mpr (mt (quadrantOf_eq_q3 h).mp hop)

/-- Settles O37: the call is served by the walk with the classifier of R191. -/
theorem locationNextYieldsStartAddress : Obligations.LocationNextYieldsStartAddress := by
  unfold Obligations.LocationNextYieldsStartAddress
  intro s rest hreq
  rw [step_call hreq]
  refine ⟨locationNextOf_end (s := { s with requests := rest }), locationNextOf_cut (s := { s with requests := rest }),
    fun h hr => ?_⟩
  rw [← instructionLength_eq_ite]
  exact locationNext_word (s := { s with requests := rest }) hr

/-- Settles O38: both iterators end at the buffer length, and both move by the length of the word they read. -/
theorem iteratorsAgree : Obligations.IteratorsAgree := by
  unfold Obligations.IteratorsAgree
  intro s t hreq hbuffer hcursor hstep
  have hserve : step { s with requests := [.call .nextLocation] } = locationNext { s with requests := [] } := rfl
  rw [hserve]
  rw [step_nil hreq] at hstep
  have hloc {h : Half} (hr : s.ins.buffer.readHalf s.ins.cursor = some h) :
      locationNext { s with requests := [] } =
        .next (({ s with requests := [] } : State).yieldLocation (instructionLength h)) :=
    locationNext_word (by rwa [← hbuffer, ← hcursor] at hr)
  rcases instructionNext_cases hstep with ⟨hend, rfl⟩ | ⟨h, hr, hq, rfl⟩ | ⟨h, w, hr, hq, -, rfl⟩
  · rw [← hbuffer, ← hcursor] at hend
    exact ⟨_, locationNextOf_end hend, hcursor, .inl ⟨rfl, rfl, rfl⟩⟩
  · refine ⟨_, hloc hr, ?_, .inr ⟨.block (decompress h), rfl, rfl⟩⟩
    rw [instructionLength_eq_two.mpr hq]
    exact congrArg (· + 2) hcursor
  · refine ⟨_, hloc hr, ?_, .inr ⟨.full w, rfl, rfl⟩⟩
    rw [instructionLength_eq_four.mpr hq]
    exact congrArg (· + 4) hcursor

/-! ## Iterators made anew (R192) -/

/-- Settles O39: the buffer of the caller's bytes is canonical and reads as them. -/
theorem newInstructionIterHoldsBytes : Obligations.NewInstructionIterHoldsBytes := by
  unfold Obligations.NewInstructionIterHoldsBytes
  exact fun s bytes rest hreq =>
    ⟨Memory.ofBytes bytes, Memory.ofBytes_wf bytes, rfl, Memory.read_ofBytes bytes, step_call hreq⟩

/-- Settles O40: the buffer of the caller's bytes is canonical and reads as them. -/
theorem newLocationIterHoldsBytes : Obligations.NewLocationIterHoldsBytes := by
  unfold Obligations.NewLocationIterHoldsBytes
  exact fun s bytes base rest hreq =>
    ⟨Memory.ofBytes bytes, Memory.ofBytes_wf bytes, rfl, Memory.read_ofBytes bytes, step_call hreq⟩

/-! ## The loader (R202 to R204, R209) -/

/-- The first constraint of R202, as the loader tests it and as the spec lists it. -/
theorem imageKind_iff {img : ElfImage} :
    (img.is64 && img.littleEndian && !img.library) = true ↔
      img.is64 = true ∧ img.littleEndian = true ∧ img.library = false := by
  simp [and_assoc]

/-- Settles O41: the loader tests the four constraints, the last two by taking the only segment of its kind. -/
theorem loaderAcceptsExactly : Obligations.LoaderAcceptsExactly := by
  unfold Obligations.LoaderAcceptsExactly
  intro img p
  have hload := load_eq_ok (img := img) (p := p)
  rw [imageKind_iff] at hload
  simp only [onlyOne_eq_some, and_assoc] at hload
  exact hload

section
variable {img : ElfImage}

theorem load_of_not_imageKind (h : ¬ (img.is64 = true ∧ img.littleEndian = true ∧ img.library = false)) :
    img.load = .error (.shape .imageKind) := by
  rw [← imageKind_iff] at h
  simp [ElfImage.load, h]

variable (hkind : (img.is64 && img.littleEndian && !img.library) = true)
include hkind

theorem load_of_not_twoSegments (hlen : img.loadable.length ≠ 2) : img.load = .error (.shape .twoSegments) := by
  simp [ElfImage.load, hkind, hlen]

theorem load_of_not_oneCode (hlen : img.loadable.length = 2)
    (hcode : (img.loadable.filter (·.isCode)).length ≠ 1) : img.load = .error (.shape .codeSegment) := by
  simp [ElfImage.load, hkind, hlen, onlyOne_eq_none.mpr hcode]

theorem load_of_not_oneData (hlen : img.loadable.length = 2)
    (hcode : (img.loadable.filter (·.isCode)).length = 1)
    (hdata : (img.loadable.filter (·.isData)).length ≠ 1) : img.load = .error (.shape .dataSegment) := by
  obtain ⟨code, hcode⟩ := List.length_eq_one_iff.mp hcode
  simp [ElfImage.load, hkind, hlen, onlyOne_eq_some.mpr hcode, onlyOne_eq_none.mpr hdata]

end

/-- Settles O42: each constraint is tested only where those before it hold. -/
theorem loaderReportsFirstFailure : Obligations.LoaderReportsFirstFailure := by
  unfold Obligations.LoaderReportsFirstFailure
  refine ⟨fun s f rest hreq => step_call hreq, rfl, rfl, fun img => ⟨load_of_not_imageKind, fun h64 hle hlib => ?_⟩⟩
  have hkind := imageKind_iff.mpr ⟨h64, hle, hlib⟩
  exact ⟨load_of_not_twoSegments hkind, fun hlen => ⟨load_of_not_oneCode hkind hlen, load_of_not_oneData hkind hlen⟩⟩

/-! ## The decoding loader (R205 to R209) -/

section
variable {s : State} {f : ElfFile} {rest : List Request}
  (hreq : s.requests = .call (.loadAndDecodeObjectFile f) :: rest)
include hreq

/-- A result goes to the caller, and nothing else changes. -/
theorem step_loadAndDecode_next {r : Except LoaderError DecodedRiscuProgram} (hload : loadAndDecodeObjectFile f = .next r) :
    step s = .next { s with requests := rest, decodedProgram := some r } := by
  rw [step_call hreq]
  simp only [serve, callLoadAndDecode, hload]

theorem step_loadAndDecode_fault {x : Fault} (hload : loadAndDecodeObjectFile f = .fault x) : step s = .fault x := by
  rw [step_call hreq]
  simp only [serve, callLoadAndDecode, hload]

theorem step_loadAndDecode_refused {x : Refusal} (hload : loadAndDecodeObjectFile f = .refused x) :
    step s = .refused x := by
  rw [step_call hreq]
  simp only [serve, callLoadAndDecode, hload]

end

theorem loadAndDecode_of_error {f : ElfFile} {e : LoaderError} (hload : loadObjectFile f = .error e) :
    loadAndDecodeObjectFile f = .next (.error e) := by
  simp only [loadAndDecodeObjectFile, hload]

theorem loadAndDecode_of_ok {f : ElfFile} {p : RiscuProgram} (hload : loadObjectFile f = .ok p) :
    loadAndDecodeObjectFile f = decodeProgram p := by
  simp only [loadAndDecodeObjectFile, hload]

section
variable {p : RiscuProgram}

theorem decodeProgram_of_codeLength (hcode : p.codeSegment.length % 4 ≠ 0) :
    decodeProgram p = .fault .codeSegmentLength :=
  if_pos hcode

variable (hcode : p.codeSegment.length % 4 = 0)
include hcode

theorem decodeProgram_of_dataLength (hdata : p.dataSegment.length % 8 ≠ 0) :
    decodeProgram p = .refused .dataSegmentLength := by
  rw [decodeProgram, if_neg (not_not.mpr hcode), if_pos hdata]

variable (hdata : p.dataSegment.length % 8 = 0)
include hdata

theorem decodeProgram_of_error {e : DecodingError} (hchunks : decodeChunks p.codeSegment = .error e) :
    decodeProgram p = .next (.error (.decoding e)) := by
  rw [decodeProgram, if_neg (not_not.mpr hcode), if_neg (not_not.mpr hdata), hchunks]

theorem decodeProgram_of_ok {is : List Instruction} (hchunks : decodeChunks p.codeSegment = .ok is) :
    decodeProgram p = .next (.ok ⟨is, dataWords p.dataSegment, p.entryAddress⟩) := by
  rw [decodeProgram, if_neg (not_not.mpr hcode), if_neg (not_not.mpr hdata), hchunks]

end

/-- Settles O43: the decoding of a program begins with the check on the code, then that on the data (log 10). -/
theorem decodingLoaderChecksLengths : Obligations.DecodingLoaderChecksLengths := by
  unfold Obligations.DecodingLoaderChecksLengths
  intro s f rest p hreq hload
  have hdecode := loadAndDecode_of_ok hload
  refine ⟨fun hcode => ?_, fun hcode hdata => ?_⟩
  · exact step_loadAndDecode_fault hreq (hdecode.trans (decodeProgram_of_codeLength hcode))
  · exact step_loadAndDecode_refused hreq (hdecode.trans (decodeProgram_of_dataLength hcode hdata))

/-! ### The code segment, word by word (R205, R208; log 22) -/

theorem decodeChunks_of_error {w : Word} {e : DecodingError} (hw : decode w = .error e) (after : List Byte) :
    decodeChunks (bytesOfWord 4 w ++ after) = .error e := by
  show decodeChunks (_ :: _ :: _ :: _ :: after) = _
  rw [decodeChunks, wordOfBytes_of_word, hw]

theorem decodeChunks_of_ok {w : Word} {i : Instruction} (hw : decode w = .ok i) (after : List Byte) :
    decodeChunks (bytesOfWord 4 w ++ after) = (decodeChunks after).map (i :: ·) := by
  show decodeChunks (_ :: _ :: _ :: _ :: after) = _
  rw [decodeChunks, wordOfBytes_of_word, hw]
  cases decodeChunks after <;> rfl

/-- The first word that does not decode ends the decoding with its error (R208). -/
theorem decodeChunks_first_error {ws : List Word} {w : Word} {e : DecodingError} (after : List Byte)
    (hws : ∀ v ∈ ws, ∃ i, decode v = .ok i) (hw : decode w = .error e) :
    decodeChunks ((ws.map (bytesOfWord 4)).flatten ++ bytesOfWord 4 w ++ after) = .error e := by
  induction ws with
  | nil => exact decodeChunks_of_error hw after
  | cons v ws ih =>
    obtain ⟨⟨i, hi⟩, hrest⟩ := List.forall_mem_cons.mp hws
    rw [List.map_cons, List.flatten_cons, List.append_assoc, List.append_assoc, decodeChunks_of_ok hi, ← List.append_assoc,
      ih hrest]
    rfl

theorem decodeChunks_all {ws : List Word} {is : List Instruction} (hws : ws.map decode = is.map .ok) :
    decodeChunks (ws.map (bytesOfWord 4)).flatten = .ok is := by
  induction ws generalizing is with
  | nil =>
    obtain rfl : is = [] := List.map_eq_nil_iff.mp hws.symm
    rfl
  | cons w ws ih =>
    cases is with
    | nil => contradiction
    | cons i is =>
      obtain ⟨hw, hrest⟩ := List.cons.inj hws
      rw [List.map_cons, List.flatten_cons, decodeChunks_of_ok hw, ih hrest]
      rfl

/-- Settles O44: a loader error is the result, and so is, wrapped, that of the first code word that does not decode. -/
theorem decodingLoaderAborts : Obligations.DecodingLoaderAborts := by
  unfold Obligations.DecodingLoaderAborts
  intro s f rest hreq
  refine ⟨fun e hload => step_loadAndDecode_next hreq (loadAndDecode_of_error hload),
    fun p ws w after e hload hcode hdata hsegment hws hw => ?_⟩
  have hchunks : decodeChunks p.codeSegment = .error e := hsegment ▸ decodeChunks_first_error after hws hw
  exact step_loadAndDecode_next hreq ((loadAndDecode_of_ok hload).trans (decodeProgram_of_error hcode hdata hchunks))

/-! ### The data segment, word by word (R44, R205) -/

/-- The eight little-endian bytes of a 64-bit word (R44). -/
def bytesOfDoubleWord (d : BitVec 64) : List Byte := (List.range 8).map (fun k => d.extractLsb' (8 * k) 8)

/-- The eight bytes of a word make the word. -/
theorem dataWords_bytesOfDoubleWord (d : BitVec 64) (after : List Byte) :
    dataWords (bytesOfDoubleWord d ++ after) = d :: dataWords after := by
  show dataWords (_ :: _ :: _ :: _ :: _ :: _ :: _ :: _ :: after) = _
  rw [dataWords]
  congr 1
  refine BitVec.eq_of_getLsbD_eq fun k hk => ?_
  simp only [BitVec.getLsbD_append, BitVec.getLsbD_extractLsb']
  interval_cases k <;> simp

theorem dataWords_flatten (ds : List (BitVec 64)) : dataWords (ds.map bytesOfDoubleWord).flatten = ds := by
  induction ds with
  | nil => rfl
  | cons d ds ih => rw [List.map_cons, List.flatten_cons, dataWords_bytesOfDoubleWord, ih]

/-- Pieces of one length make up a multiple of it. -/
theorem length_flatten_map_mod {α : Type} {pieces : α → List Byte} {n : Nat} (hlen : ∀ x, (pieces x).length = n)
    (xs : List α) : (xs.map pieces).flatten.length % n = 0 := by
  simp [List.length_flatten, Function.comp_def, hlen]

/-- Settles O45: both segments have sound lengths, every code word decodes, and the data is read back word by word. -/
theorem decodingLoaderDecodesAll : Obligations.DecodingLoaderDecodesAll := by
  unfold Obligations.DecodingLoaderDecodesAll
  intro s f rest p ws is ds hreq hload hcode hws hdata
  have hdata' : p.dataSegment = (ds.map bytesOfDoubleWord).flatten := hdata
  have hcodeLen : p.codeSegment.length % 4 = 0 := hcode ▸ length_flatten_map_mod (n := 4) (fun _ => rfl) ws
  have hdataLen : p.dataSegment.length % 8 = 0 := hdata' ▸ length_flatten_map_mod (n := 8) (fun _ => rfl) ds
  have hchunks : decodeChunks p.codeSegment = .ok is := hcode ▸ decodeChunks_all hws
  have hprogram := decodeProgram_of_ok hcodeLen hdataLen hchunks
  rw [hdata', dataWords_flatten] at hprogram
  exact step_loadAndDecode_next hreq ((loadAndDecode_of_ok hload).trans hprogram)

/-! ## Status codes and sample words -/

/-- With the codes of R6 a status is read back from its code (R234). -/
theorem Status.ofCode_code (st : Status) : Status.ofCode (Status.code st) = some st := by
  cases st <;> rfl

/-- Settles O18: a status is read back from its code, so no two share one; the codes from 5 up are compared with the five. -/
theorem statusCodes : Obligations.StatusCodes := by
  unfold Obligations.StatusCodes
  have hinj (st st' : Status) (h : st.code = st'.code) : st = st' := by
    have hread := congrArg (Status.ofCode ·) h
    simpa only [Status.ofCode_code, Option.some.injEq] using hread
  exact ⟨rfl, rfl, rfl, rfl, rfl, Status.ofCode_eq_some_iff hinj, by decide⟩

/-- Settles O22: eight closed words, each decoded by evaluation. -/
theorem sampleWordsDecode : Obligations.SampleWordsDecode := by
  unfold Obligations.SampleWordsDecode
  decide

end Machine
end Sys2Proof
